-- ==== Sys2Proof/Word.lean ====
section
/-! DEFINITION. The word types of the core: 32-bit registers and addresses (R3, D2), 16-bit instruction units
(R61, R65), bytes, and the 4-bit general-register numbers of the encodings (R65). -/

namespace Sys2Proof

/-- A register, an address: `XLEN` = 32 bits, arithmetic modulo 2^32 (R3, D2). -/
abbrev Word := BitVec 32

/-- One instruction unit of 2 bytes (R61, R65). -/
abbrev Half := BitVec 16

/-- The smallest addressable unit (R40). -/
abbrev Byte := BitVec 8

/-- A general-register number r0 to r15 (R65: 4-bit register fields). -/
abbrev Reg := BitVec 4

/-- `v[0] = 1` (R3: "v is odd"). -/
def isOdd (v : Word) : Bool := v.getLsbD 0

end Sys2Proof
end

