-- ==== Sys2Proof/Syntax.lean ====
section
/-! DEFINITION. The instructions: one constructor per row of spec/opcode_table.json (R62, R65, R66). Field names are
the table's; register fields are register numbers, `d` displacements, `c` a control-register number. -/

namespace Sys2Proof

inductive Instr where
  /-- `ld.w rz,(rx,disp)` (R70) -/
  | ldW (rz rx : Reg) (d : BitVec 4)
  /-- `st.w rz,(rx,disp)` (R70) -/
  | stW (rz rx : Reg) (d : BitVec 4)
  /-- `ld.b rz,(rx,disp)` (R70) -/
  | ldB (rz rx : Reg) (d : BitVec 4)
  /-- `st.b rz,(rx,disp)` (R70) -/
  | stB (rz rx : Reg) (d : BitVec 4)
  /-- `ld.h rz,(rx,disp)` (R70) -/
  | ldH (rz rx : Reg) (d : BitVec 4)
  /-- `st.h rz,(rx,disp)` (R70) -/
  | stH (rz rx : Reg) (d : BitVec 4)
  /-- `ldm rf-r15,(r0)` (R71) -/
  | ldm (rf : Reg)
  /-- `ldq r4-r7,(rx)` (R72) -/
  | ldq (rx : Reg)
  /-- `stm rf-r15,(r0)` (R73) -/
  | stm (rf : Reg)
  /-- `stq r4-r7,(rx)` (R74) -/
  | stq (rx : Reg)
  /-- `jmp rx` (R80) -/
  | jmp (rx : Reg)
  /-- `jsr rx` (R81) -/
  | jsr (rx : Reg)
  /-- `jmpi [label]` (R82) -/
  | jmpi (d : BitVec 8)
  /-- `jsri [label]` (R83) -/
  | jsri (d : BitVec 8)
  /-- `br label` (R84) -/
  | br (d : BitVec 11)
  /-- `bt label` (R85) -/
  | bt (d : BitVec 11)
  /-- `bf label` (R86) -/
  | bf (d : BitVec 11)
  /-- `bsr label` (R87) -/
  | bsr (d : BitVec 11)
  /-- `loopt ry,label` (R88) -/
  | loopt (ry : Reg) (d : BitVec 4)
  /-- `divs rx,r1` (R93) -/
  | divs (rx : Reg)
  /-- `divu rx,r1` (R94) -/
  | divu (rx : Reg)
  /-- `mult rx,ry` (R95) -/
  | mult (rx ry : Reg)
  /-- `mfcr rx,crc` (R100) -/
  | mfcr (rx : Reg) (c : BitVec 5)
  /-- `mtcr rx,crc` (R101) -/
  | mtcr (rx : Reg) (c : BitVec 5)
  /-- `rte` (R102) -/
  | rte
  /-- `rfi` (R103) -/
  | rfi
  /-- `stop` (R104) -/
  | stop
  /-- `wait` (R105) -/
  | wait
  /-- `doze` (R106) -/
  | doze
  /-- `trap #n`, n in 0 to 7 (R107, D17) -/
  | trap (n : BitVec 3)
  /-- `bkpt` (R108) -/
  | bkpt
  /-- a `hai` opcode, held as its whole instruction word (R109) -/
  | hai (op : Half)
  deriving DecidableEq, Repr

end Sys2Proof
end

