-- ==== Sys2Proof/Config.lean ====
section
/-! DEFINITION. What an implementation fixes and the spec leaves open (R2, 92_eei_decisions.md), and the free values
("draw" in the spec). Every constant here is opaque: no statement can rest on what it is. -/

namespace Sys2Proof

/-- What the decoder parameter (R60) says of an instruction unit that is no row of R65's table. -/
inductive OtherWord where
  /-- A `hai` opcode (R109: its encoding is not in the source). -/
  | hai
  /-- `trap #n` with n = 4 + k, which the table's two-bit field cannot express (C14, U21). -/
  | trapHigh (k : BitVec 2)
  /-- `IsIllegal`: an illegal or unimplemented instruction (R63, U4). -/
  | illegal
  /-- An instruction of the architecture that the source does not name: R62's catch-all `other`. -/
  | other
  /-- A word of which the decoder says only that it is not in the table (U6). -/
  | unlisted
  deriving DecidableEq, Repr, Inhabited

/-- R62's instruction syntax, the values of `decode` (R60): the instructions of the opcode table, and the catch-all. -/
inductive Decoded where
  /-- An instruction of spec/opcode_table.json. -/
  | named (i : Instr)
  /-- `other`: an instruction the source does not name, in none of R62's sets. -/
  | other
  deriving DecidableEq, Repr

/-- Why an instruction word decodes to no instruction. -/
inductive WordError where
  /-- `IsIllegal`: decoding it raises the illegal-instruction exception (R63, R136). -/
  | illegal
  /-- A word outside R65's table whose instruction the decoder does not know: not modelled (U6). -/
  | unlisted
  deriving DecidableEq, Repr

/-- Why a list of bytes begins with no instruction. -/
inductive DecodeError where
  /-- The word at its head is none. -/
  | word (e : WordError)
  /-- Fewer bytes were given than an instruction has. -/
  | truncated
  deriving DecidableEq, Repr

/-- A fresh arbitrary word, the spec's `draw` (R31, D23). -/
opaque Config.freeWord : Nat → Word

/-- A fresh arbitrary choice, for "a draw of old or new value" (D20, D27). -/
opaque Config.freeBit : Nat → Bool

/-- Fresh arbitrary memory contents (D23, U7; the action of an accelerator, U15). -/
opaque Config.freeCells : Nat → List (Nat × Byte)

/-- `decode` and `IsIllegal` outside the table of R65: R60, R63, U4, U6. -/
opaque Config.otherWord : Half → OtherWord

/-- `decode` and `IsIllegal` (R60, R63) of a platform that does not use R65's table: the instruction that the `ILEN` bytes
at the pc, in address order, are; none where they are illegal. -/
opaque Config.otherDecode : List Byte → Option Decoded

/-- `PSR_LAYOUT` (D1): which bit of the named-field order of `Psr.canon` stands at each bit of the 32-bit view. -/
opaque Config.psrLayout : Equiv.Perm (Fin 32)

/-- `TM_ENCODING` (D12): how the two-bit codes are assigned. -/
opaque Config.tmCode : Equiv.Perm (BitVec 2)

/-- Whether the reserved code of TM (R14) traces an instruction; the argument says whether it is in `FlowTrace`. -/
opaque Config.reservedTmTraces : Bool → Bool

/-- `FINT_ENTRY_CLEARS_EE` (D8). -/
opaque Config.fintEntryClearsEE : Bool

/-- `HaiEnabled` (D19): the number of the U bit that enables a given `hai` opcode. -/
opaque Config.haiUnit : Half → BitVec 2

/-- R93: whether an inexact signed quotient of these operands is rounded up (to the next greater integer) or down. -/
opaque Config.divsRoundsUp : Word → Word → Bool

/-- R93: the quotient of 0x80000000 by -1, which no 32-bit signed number is. -/
opaque Config.divsOverflow : Word

/-- R88: whether `loopt` branches, from the condition bit and the old value of `ry`. -/
opaque Config.looptTaken : Bool → Word → Bool

/-- R88: the value `loopt` leaves in `ry`, from the condition bit and the old value. -/
opaque Config.looptCount : Bool → Word → Word

/-- R88: the condition bit `loopt` leaves, from the condition bit and the old value of `ry`. -/
opaque Config.looptC : Bool → Word → Bool

/-- R88: the halfword displacement that `loopt`'s four displacement bits stand for. -/
opaque Config.looptDisp : BitVec 4 → Word

/-- R81: whether `jsr r15` jumps to the link address it has just written (true) or to the old r15 (false). -/
opaque Config.jsrLinkFirst : Bool

end Sys2Proof
end

