-- ==== Sys2Proof/Decode.lean ====
section
/-! DEFINITION. The decoder and the encoder: R65's table of masks and patterns, the decoder parameter for every other
word (R60, R63), and the two byte orders in which a word can stand in memory (R48). The bits are the GK table's
(PRESUMED, log 1). -/

namespace Sys2Proof

/-- One row of R65's table: the word `w` is this instruction iff `w &&& mask = bits`. -/
structure Row where
  mnemonic : String
  bits : Half
  mask : Half
  build : Half → Instr

/-- Bits 3:0, the field `rx` (or `rf`, or `d` of `loopt`) of R65. -/
def fieldLow (w : Half) : BitVec 4 := w.extractLsb' 0 4

/-- Bits 7:4, the field `ry` (or `i` of a load or store) of R65. -/
def fieldMid (w : Half) : BitVec 4 := w.extractLsb' 4 4

/-- Bits 11:8, the field `rz` of R65. -/
def fieldHigh (w : Half) : BitVec 4 := w.extractLsb' 8 4

/-- Bits 7:0, the literal displacement of `jmpi` and `jsri` (R65). -/
def fieldLit (w : Half) : BitVec 8 := w.extractLsb' 0 8

/-- Bits 10:0, the branch displacement (R65). -/
def fieldDisp (w : Half) : BitVec 11 := w.extractLsb' 0 11

/-- Bits 8:4, the control-register number of `mfcr` and `mtcr` (R65). -/
def fieldCr (w : Half) : BitVec 5 := w.extractLsb' 4 5

/-- Bits 1:0, the `n` of `trap #n` (R65). -/
def fieldTrap (w : Half) : BitVec 2 := w.extractLsb' 0 2

/-- R65: the load and store class. -/
def loadStoreRows : List Row :=
  [ ⟨"ld.w", 0x8000, 0xF000, fun w => .ldW (fieldHigh w) (fieldLow w) (fieldMid w)⟩,
    ⟨"st.w", 0x9000, 0xF000, fun w => .stW (fieldHigh w) (fieldLow w) (fieldMid w)⟩,
    ⟨"ld.b", 0xA000, 0xF000, fun w => .ldB (fieldHigh w) (fieldLow w) (fieldMid w)⟩,
    ⟨"st.b", 0xB000, 0xF000, fun w => .stB (fieldHigh w) (fieldLow w) (fieldMid w)⟩,
    ⟨"ld.h", 0xC000, 0xF000, fun w => .ldH (fieldHigh w) (fieldLow w) (fieldMid w)⟩,
    ⟨"st.h", 0xD000, 0xF000, fun w => .stH (fieldHigh w) (fieldLow w) (fieldMid w)⟩ ]

/-- R65: the multi-register loads and stores. -/
def multipleRows : List Row :=
  [ ⟨"ldm", 0x0060, 0xFFF0, fun w => .ldm (fieldLow w)⟩,
    ⟨"ldq", 0x0040, 0xFFF0, fun w => .ldq (fieldLow w)⟩,
    ⟨"stm", 0x0070, 0xFFF0, fun w => .stm (fieldLow w)⟩,
    ⟨"stq", 0x0050, 0xFFF0, fun w => .stq (fieldLow w)⟩ ]

/-- R65: the control transfers. -/
def controlRows : List Row :=
  [ ⟨"jmp", 0x00C0, 0xFFF0, fun w => .jmp (fieldLow w)⟩,
    ⟨"jsr", 0x00D0, 0xFFF0, fun w => .jsr (fieldLow w)⟩,
    ⟨"jmpi", 0x7000, 0xFF00, fun w => .jmpi (fieldLit w)⟩,
    ⟨"jsri", 0x7F00, 0xFF00, fun w => .jsri (fieldLit w)⟩,
    ⟨"br", 0xF000, 0xF800, fun w => .br (fieldDisp w)⟩,
    ⟨"bt", 0xE000, 0xF800, fun w => .bt (fieldDisp w)⟩,
    ⟨"bf", 0xE800, 0xF800, fun w => .bf (fieldDisp w)⟩,
    ⟨"bsr", 0xF800, 0xF800, fun w => .bsr (fieldDisp w)⟩,
    ⟨"loopt", 0x0400, 0xFF00, fun w => .loopt (fieldMid w) (fieldLow w)⟩ ]

/-- R65: the multi-cycle arithmetic. -/
def arithRows : List Row :=
  [ ⟨"divs", 0x3210, 0xFFF0, fun w => .divs (fieldLow w)⟩,
    ⟨"divu", 0x2C10, 0xFFF0, fun w => .divu (fieldLow w)⟩,
    ⟨"mult", 0x0300, 0xFF00, fun w => .mult (fieldLow w) (fieldMid w)⟩ ]

/-- R65: the system, privileged and trapping instructions. -/
def systemRows : List Row :=
  [ ⟨"mfcr", 0x1000, 0xFE00, fun w => .mfcr (fieldLow w) (fieldCr w)⟩,
    ⟨"mtcr", 0x1800, 0xFE00, fun w => .mtcr (fieldLow w) (fieldCr w)⟩,
    ⟨"rte", 0x0002, 0xFFFF, fun _ => .rte⟩,
    ⟨"rfi", 0x0003, 0xFFFF, fun _ => .rfi⟩,
    ⟨"stop", 0x0004, 0xFFFF, fun _ => .stop⟩,
    ⟨"wait", 0x0005, 0xFFFF, fun _ => .wait⟩,
    ⟨"doze", 0x0006, 0xFFFF, fun _ => .doze⟩,
    ⟨"trap", 0x0008, 0xFFFC, fun w => .trap (0#1 ++ fieldTrap w)⟩,
    ⟨"bkpt", 0x0000, 0xFFFF, fun _ => .bkpt⟩ ]

/-- The table of R65. -/
def table : List Row :=
  loadStoreRows ++ multipleRows ++ controlRows ++ arithRows ++ systemRows

/-- The row's match test (R65: `match` and `mask`). -/
def Row.hits (r : Row) (w : Half) : Bool := w &&& r.mask == r.bits

/-- The instruction the table of R65 reads from a word, if a row matches. -/
def lookup (w : Half) : Option Instr := (table.find? (·.hits w)).map (·.build w)

/-- A word outside the table, by the decoder parameter (R60, R62, R63, U4, U6, U21). -/
def decodeOther (w : Half) : Except WordError Decoded :=
  match Config.otherWord w with
  | .hai => .ok (.named (.hai w))
  | .trapHigh k => .ok (.named (.trap (1#1 ++ k)))
  | .other => .ok .other
  | .illegal => .error .illegal
  | .unlisted => .error .unlisted

/-- The instruction of one 16-bit word (R60). -/
def decodeWord (w : Half) : Except WordError Decoded :=
  match lookup w with
  | some i => .ok (.named i)
  | none => decodeOther w

/-- The word that two bytes, the one at the lower address first, make in the given byte order (R48). -/
def halfOfBytes (bigEndian : Bool) (b0 b1 : Byte) : Half :=
  if bigEndian then b0 ++ b1 else b1 ++ b0

/-- The two bytes of a word, the one for the lower address first (R48). -/
def bytesOfHalf (bigEndian : Bool) (w : Half) : List Byte :=
  if bigEndian then [w.extractLsb' 8 8, w.extractLsb' 0 8] else [w.extractLsb' 0 8, w.extractLsb' 8 8]

/-- The instruction at the head of a list of bytes, and the bytes after it. -/
def decode (bigEndian : Bool) : List Byte → Except DecodeError (Decoded × List Byte)
  | b0 :: b1 :: rest =>
    match decodeWord (halfOfBytes bigEndian b0 b1) with
    | .ok d => .ok (d, rest)
    | .error e => .error (.word e)
  | _ => .error .truncated

/-- The word of an instruction by R65's patterns. `trap #4` to `trap #7` have none there (C14). -/
def encode : Instr → Option Half
  | .ldW rz rx d => some (0x8#4 ++ (rz ++ (d ++ rx)))
  | .stW rz rx d => some (0x9#4 ++ (rz ++ (d ++ rx)))
  | .ldB rz rx d => some (0xA#4 ++ (rz ++ (d ++ rx)))
  | .stB rz rx d => some (0xB#4 ++ (rz ++ (d ++ rx)))
  | .ldH rz rx d => some (0xC#4 ++ (rz ++ (d ++ rx)))
  | .stH rz rx d => some (0xD#4 ++ (rz ++ (d ++ rx)))
  | .ldm rf => some (0x006#12 ++ rf)
  | .ldq rx => some (0x004#12 ++ rx)
  | .stm rf => some (0x007#12 ++ rf)
  | .stq rx => some (0x005#12 ++ rx)
  | .jmp rx => some (0x00C#12 ++ rx)
  | .jsr rx => some (0x00D#12 ++ rx)
  | .jmpi d => some (0x70#8 ++ d)
  | .jsri d => some (0x7F#8 ++ d)
  | .br d => some (0b11110#5 ++ d)
  | .bt d => some (0b11100#5 ++ d)
  | .bf d => some (0b11101#5 ++ d)
  | .bsr d => some (0b11111#5 ++ d)
  | .loopt ry d => some (0x04#8 ++ (ry ++ d))
  | .divs rx => some (0x321#12 ++ rx)
  | .divu rx => some (0x2C1#12 ++ rx)
  | .mult rx ry => some (0x03#8 ++ (ry ++ rx))
  | .mfcr rx c => some (0b0001000#7 ++ (c ++ rx))
  | .mtcr rx c => some (0b0001100#7 ++ (c ++ rx))
  | .rte => some 0x0002
  | .rfi => some 0x0003
  | .stop => some 0x0004
  | .wait => some 0x0005
  | .doze => some 0x0006
  | .trap n => if n.getLsbD 2 then none else some (0b00000000000010#14 ++ n.extractLsb' 0 2)
  | .bkpt => some 0x0000
  | .hai op => some op

/-- The instruction this decoder reads from a word numbered as spec/opcode_table.json numbers it; every bit above
`nbits` is 0. The word is laid out in memory order (big-endian here; the result is the same in either order). -/
def decodeTableWord (nbits w : Nat) : Option Instr :=
  match decode true (bytesOfHalf true (BitVec.ofNat 16 (w % 2 ^ nbits))) with
  | .ok (.named i, _) => some i
  | .ok (.other, _) | .error _ => none

end Sys2Proof
end

