-- ==== Sys2Proof/Machine/Classes.lean ====
section
/-! DEFINITION. The sets of instructions the exception rules use (R62), each from the source's own list. -/

namespace Sys2Proof.Machine

/-- `LoadStore`: the load and store class (R62, R130). -/
def isLoadStore : Instr → Bool
  | .ldW _ _ _ | .stW _ _ _ | .ldB _ _ _ | .stB _ _ _ | .ldH _ _ _ | .stH _ _ _ | .ldm _ | .ldq _
  | .stm _ | .stq _ => true
  | .jmp _ | .jsr _ | .jmpi _ | .jsri _ | .br _ | .bt _ | .bf _ | .bsr _
  | .loopt _ _ | .divs _ | .divu _ | .mult _ _ | .mfcr _ _ | .mtcr _ _ | .rte | .rfi
  | .stop | .wait | .doze | .trap _ | .bkpt | .hai _ => false

/-- `JumpIndirectMem` (R62, R131). -/
def isJumpIndirectMem : Instr → Bool
  | .jmpi _ | .jsri _ => true
  | .ldW _ _ _ | .stW _ _ _ | .ldB _ _ _ | .stB _ _ _ | .ldH _ _ _ | .stH _ _ _ | .ldm _ | .ldq _
  | .stm _ | .stq _ | .jmp _ | .jsr _ | .br _ | .bt _ | .bf _ | .bsr _
  | .loopt _ _ | .divs _ | .divu _ | .mult _ _ | .mfcr _ _ | .mtcr _ _ | .rte | .rfi
  | .stop | .wait | .doze | .trap _ | .bkpt | .hai _ => false

/-- `Divide` (R62, R135). -/
def isDivide : Instr → Bool
  | .divs _ | .divu _ => true
  | .ldW _ _ _ | .stW _ _ _ | .ldB _ _ _ | .stB _ _ _ | .ldH _ _ _ | .stH _ _ _ | .ldm _ | .ldq _
  | .stm _ | .stq _ | .jmp _ | .jsr _ | .jmpi _ | .jsri _ | .br _ | .bt _
  | .bf _ | .bsr _ | .loopt _ _ | .mult _ _ | .mfcr _ _ | .mtcr _ _ | .rte | .rfi
  | .stop | .wait | .doze | .trap _ | .bkpt | .hai _ => false

/-- `Privileged` (R62, R137). -/
def isPrivileged : Instr → Bool
  | .mfcr _ _ | .mtcr _ _ | .rte | .rfi | .stop | .wait | .doze => true
  | .ldW _ _ _ | .stW _ _ _ | .ldB _ _ _ | .stB _ _ _ | .ldH _ _ _ | .stH _ _ _ | .ldm _ | .ldq _
  | .stm _ | .stq _ | .jmp _ | .jsr _ | .jmpi _ | .jsri _ | .br _ | .bt _
  | .bf _ | .bsr _ | .loopt _ _ | .divs _ | .divu _ | .mult _ _ | .trap _ | .bkpt
  | .hai _ => false

/-- `FlowTrace` (R62, R139). -/
def isFlowTrace : Instr → Bool
  | .jmp _ | .jsr _ | .jmpi _ | .jsri _ | .br _ | .bt _ | .bf _ | .bsr _
  | .loopt _ _ => true
  | .ldW _ _ _ | .stW _ _ _ | .ldB _ _ _ | .stB _ _ _ | .ldH _ _ _ | .stH _ _ _ | .ldm _ | .ldq _
  | .stm _ | .stq _ | .divs _ | .divu _ | .mult _ _ | .mfcr _ _ | .mtcr _ _ | .rte
  | .rfi | .stop | .wait | .doze | .trap _ | .bkpt | .hai _ => false

/-- `NeverTraced` (R62, R142). -/
def isNeverTraced : Instr → Bool
  | .rte | .rfi | .stop | .wait | .doze | .trap _ | .bkpt => true
  | .ldW _ _ _ | .stW _ _ _ | .ldB _ _ _ | .stB _ _ _ | .ldH _ _ _ | .stH _ _ _ | .ldm _ | .ldq _
  | .stm _ | .stq _ | .jmp _ | .jsr _ | .jmpi _ | .jsri _ | .br _ | .bt _
  | .bf _ | .bsr _ | .loopt _ _ | .divs _ | .divu _ | .mult _ _ | .mfcr _ _ | .mtcr _ _
  | .hai _ => false

/-- `Interruptible` (R62, R150). -/
def isInterruptible : Instr → Bool
  | .ldm _ | .ldq _ | .stm _ | .stq _ | .divs _ | .divu _ | .mult _ _ => true
  | .ldW _ _ _ | .stW _ _ _ | .ldB _ _ _ | .stB _ _ _ | .ldH _ _ _ | .stH _ _ _ | .jmp _ | .jsr _
  | .jmpi _ | .jsri _ | .br _ | .bt _ | .bf _ | .bsr _ | .loopt _ _ | .mfcr _ _
  | .mtcr _ _ | .rte | .rfi | .stop | .wait | .doze | .trap _ | .bkpt
  | .hai _ => false

/-- The width in bytes of the instruction's data accesses (R46, R70 to R74, R82, R83; GK, log 12), if it makes any. -/
def accessWidth : Instr → Option Nat
  | .ldW _ _ _ | .stW _ _ _ | .ldm _ | .ldq _ | .stm _ | .stq _ | .jmpi _ | .jsri _ => some 4
  | .ldH _ _ _ | .stH _ _ _ => some 2
  | .ldB _ _ _ | .stB _ _ _ => some 1
  | .jmp _ | .jsr _ | .br _ | .bt _ | .bf _ | .bsr _ | .loopt _ _ | .divs _ | .divu _ | .mult _ _
  | .mfcr _ _ | .mtcr _ _ | .rte | .rfi | .stop | .wait | .doze | .trap _ | .bkpt | .hai _ => none

end Sys2Proof.Machine
end

