-- ==== Sys2Proof/Machine/State.lean ====
section
/-! DEFINITION. The state of the core as plain data: everything spec/10_state.md names, the environment's inputs of
00_scope.md R3 and R5, and the model's own fields (log 3, 4, 27, 32, 33); the reasons a step can stop; the state after
reset (R31). -/

namespace Sys2Proof.Machine

/-- The trace mode TM (R14, D12): three modes of the source and the fourth code of a two-bit field (log 9). -/
inductive Tm where
  | off | instr | flow | reserved
  deriving DecidableEq, Repr

/-- The processor status register as named fields and an opaque remainder (R12 to R22, D1; C and AF: R28, R29, log 6). -/
structure Psr where
  /-- supervisor mode (R13) -/
  s : Bool
  /-- trace mode (R14) -/
  tm : Tm
  /-- trace pending (R15) -/
  tp : Bool
  /-- exception enable (R16) -/
  ee : Bool
  /-- normal-interrupt enable (R17) -/
  ie : Bool
  /-- fast-interrupt enable (R18) -/
  fe : Bool
  /-- interrupt control: multi-cycle instructions may be cut short (R19) -/
  ic : Bool
  /-- misalignment mask (R20) -/
  mm : Bool
  /-- debug mode; no rule reads it (R21, U18) -/
  db : Bool
  /-- hardware accelerator enables, bit i is Ui (R22) -/
  u : BitVec 4
  /-- condition bit (R29, GK) -/
  c : Bool
  /-- alternate register file (R28, GK) -/
  af : Bool
  /-- the fields the source does not name (R12) -/
  rest : BitVec 16
  deriving DecidableEq, Repr

/-- The state `stop`, `wait` or `doze` enters (R104 to R106, D28). -/
inductive LowPower where
  | stop | wait | doze
  deriving DecidableEq, Repr

/-- The interrupt inputs at one recognition point (R150, R151, D26). -/
structure Irq where
  /-- INT# asserted -/
  int : Bool := false
  /-- FINT# asserted -/
  fint : Bool := false
  /-- AVEC# asserted -/
  avec : Bool := false
  /-- the 7-bit vector number on VEC# -/
  vec : BitVec 7 := 0
  deriving DecidableEq, Repr

/-- The environment's inputs during one step (R3 `env.*`, R5, R30, R158). -/
structure Env where
  /-- the reset input (R129) -/
  reset : Bool := false
  /-- SRST (R149) -/
  srst : Bool := false
  /-- the interrupt inputs at the boundary before the instruction (R158 stage 3) -/
  pre : Irq := {}
  /-- the interrupt inputs inside the instruction (R158 stage 7, R150) -/
  mid : Irq := {}
  /-- where inside an interruptible instruction they are recognised: after this many of its data accesses (D20) -/
  midAt : Option Nat := none
  /-- the interrupt inputs at the boundary after the instruction (R158 stage 8) and at a return (R144) -/
  post : Irq := {}
  /-- addresses whose instruction fetch ended with TEA# (R133) -/
  fetchTea : List Word := []
  /-- addresses whose instruction fetch the external memory management unit refused (R134) -/
  fetchMmu : List Word := []
  /-- addresses whose instruction fetch came with BRKRQ# (R146) -/
  fetchBrk : List Word := []
  /-- the data access, counted from 0, that ends with TEA# (R45, R132) -/
  dataTea : Option Nat := none
  /-- the data access, counted from 0, that the external memory management unit refuses (R49, R134) -/
  dataMmu : Option Nat := none
  /-- BRKRQ# asserted with a data access (R147) -/
  dataBrk : Bool := false
  /-- TEA# (or the external MMU, R49) ends the vector fetch (D25) -/
  vecTea : Bool := false
  /-- the accelerator reports an exception during `hai` (R109, R154) -/
  haFault : Bool := false
  deriving DecidableEq, Repr

/-- `decode` and `ILEN` (R2, R60, D3; log 1). -/
inductive Encoding where
  /-- R65's table: `ILEN` = 2 -/
  | table
  /-- another encoding, the parameter `Config.otherDecode`: every instruction is `units + 1` units of 2 bytes (R61) -/
  | other (units : Nat)
  deriving DecidableEq, Repr

/-- `VECTOR_BIT0` (R2, D6; log 24): what bit 0 of a fetched vector word does. -/
inductive VectorBit0 where
  /-- a set bit is refused: the default, and what stands for every behaviour the spec does not describe -/
  | refuse
  /-- the bit goes to PSR.AF and the pc takes the word with the bit clear, as in the ancestor (R128, G9) -/
  | bank
  deriving DecidableEq, Repr

/-- Constants of the platform, the arguments of R2 that change what a step does; no step changes them. -/
structure Platform where
  /-- `BYTE_ORDER` (R48, D4, log 3) -/
  bigEndian : Bool
  /-- whether the user space holds other memory than the supervisor space (R40, log 4) -/
  splitSpaces : Bool
  /-- `decode` and `ILEN` (R60, D3, log 1) -/
  encoding : Encoding
  /-- `WIDTHS` (R46, D29, log 12) -/
  widths : List Nat
  /-- `VBR_ALIGN` (D5, log 23): how many low bits of VBR the hardware forces to zero -/
  vbrAlign : Nat
  /-- `VECTOR_BIT0` (D6, log 24) -/
  vectorBit0 : VectorBit0
  /-- `LowPower(stop)` (D28, log 20): the core idles; else the spec's default, refuse -/
  stopIdles : Bool
  /-- `LowPower(wait)` (D28, log 20) -/
  waitIdles : Bool
  /-- `LowPower(doze)` (D28, log 20) -/
  dozeIdles : Bool
  /-- whether a byte of a write that TEA# ended takes any value (U13) or its old or new one (R45); log 15 -/
  teaWriteAny : Bool
  deriving DecidableEq, Repr

/-- Which address space an access is made in (R40). -/
inductive Mode where
  | user | supervisor
  deriving DecidableEq, Repr

/-- The whole machine: 10_state.md, 00_scope.md R3, and the model's own fields. -/
structure State where
  /-- program counter (R10, R11) -/
  pc : Word
  /-- r0 to r15 (R28, GK) -/
  regs : Vector Word 16
  /-- the alternate bank, in use while PSR.AF = 1 (R28, GK) -/
  altRegs : Vector Word 16
  /-- processor status register (R12) -/
  psr : Psr
  /-- vector base register (R23) -/
  vbr : Word
  /-- exception shadow of the pc (R24); may be odd -/
  epc : Word
  /-- exception shadow of the PSR (R25) -/
  epsr : Psr
  /-- fast-interrupt shadow of the pc (R26) -/
  fpc : Word
  /-- fast-interrupt shadow of the PSR (R26) -/
  fpsr : Psr
  /-- memory: keys strictly rising, no entry equal to what an unlisted key reads as (R40, log 5) -/
  mem : List Host.Cell
  /-- `fetch_err(a)`: prefetched instructions with a bus error (R30, R133) -/
  fetchErr : List Word
  /-- `fetch_brk(a)`: instructions fetched with BRKRQ# (R30, R146) -/
  fetchBrk : List Word
  /-- `data_brk` (R30, R147) -/
  dataBrk : Bool
  /-- `trace_due` (R30, R138) -/
  traceDue : Bool
  /-- `srst_seen` (R30, R149) -/
  srstSeen : Bool
  /-- the low-power state, if the core is in one (R104 to R106, R167, D28) -/
  lowPower : Option LowPower
  /-- memory keys stored to since the last reset (R53, D22) -/
  stored : List Nat
  /-- the MODEL's own: an entry went through vector 8 since the last reset (U3, log 32) -/
  unrecoverable : Bool
  /-- the MODEL's own: how many free values have been taken (log 33) -/
  draws : Nat
  /-- the MODEL's own: the parameters of R2 that are constants of the platform (log 43) -/
  plat : Platform
  /-- the MODEL's own: the environment's inputs during this step (log 27) -/
  env : Env
  /-- the MODEL's own: the inputs of the steps to come; every signal is negated after its end (log 27) -/
  script : List Env
  deriving DecidableEq, Repr

/-- Where the machine stops. -/
inductive Fault where
  /-- Raised by the vector fetch of an exception entry or of a reset whose bus cycle TEA# ends (R128, D25, U11). Safe:
  the spec takes it for a fault state, and no later state is claimed. -/
  | vectorBusError
  deriving DecidableEq, Repr

/-- What the spec declines to give a meaning. -/
inductive Refusal where
  /-- Raised by a refused arm of `exec` for an instruction that has no meaning yet. Safe: no state is claimed. -/
  | notModelled (mnemonic : String)
  /-- Raised by decoding a word outside R65's table of whose instruction the decoder says nothing (R63, U6). Safe: the spec
  refuses the run. -/
  | unlistedWord
  /-- Raised by `jmp` and `jsr` to an odd address (R80, R81, D16, U10). Safe: the spec refuses the run. -/
  | oddTarget
  /-- Raised by `rte` and `rfi` when EPC or FPC is odd (R102, R103, D16, U10). Safe: the spec refuses the run. -/
  | oddReturn
  /-- Raised by a vector fetch, of an entry or a reset, whose word has bit 0 set, on a platform whose `VECTOR_BIT0` is
  the default (R128, D6, U9). Safe: the spec refuses the run. -/
  | oddVector
  /-- Raised by fetching at an odd pc, which no run from a legal state reaches (R11, R44, D16). Safe. -/
  | oddPc
  /-- Raised by fetching an instruction from an address that a store has written since the last reset (R53, D22, U19).
  Safe: the spec refuses the run. -/
  | selfModified
  /-- Raised by `stop`, `wait` and `doze` in supervisor mode on a platform whose `LowPower` is the spec's default, refuse
  (R104 to R106, D28, U14). Safe: the spec refuses the run. -/
  | lowPowerOpen
  deriving DecidableEq, Repr

/-- A PSR with every field 0. -/
def Psr.zero : Psr :=
  { s := false, tm := .off, tp := false, ee := false, ie := false, fe := false, ic := false, mm := false, db := false,
    u := 0, c := false, af := false, rest := 0 }

/-- The PSR after hardware reset: S = 1, TM = off, IE = FE = DB = 0, U = 0000 by R31; the rest by log 7. -/
def Psr.atReset : Psr := { Psr.zero with s := true }

/-- The platform of `State.reset`: R65's table, big-endian, one memory for both spaces, the GK widths, no forced VBR bits,
the default of `VECTOR_BIT0`, the idling low-power states (log 43). -/
def Platform.atReset : Platform :=
  { bigEndian := true, splitSpaces := false, encoding := .table, widths := [1, 2, 4], vbrAlign := 0,
    vectorBit0 := .refuse, stopIdles := true, waitIdles := true, dozeIdles := true, teaWriteAny := true }

/-- The machine right after hardware reset (R31, R129). `pc` is the reset vector, the word at address 0 of the memory
in which nothing is listed (log 5, log 31); every value R31 does not state is log 7's. -/
def State.reset : State :=
  { pc := 0, regs := Vector.replicate 16 0, altRegs := Vector.replicate 16 0, psr := Psr.atReset, vbr := 0,
    epc := 0, epsr := Psr.zero, fpc := 0, fpsr := Psr.zero, mem := [], fetchErr := [], fetchBrk := [],
    dataBrk := false, traceDue := false, srstSeen := false, lowPower := none, stored := [], unrecoverable := false,
    draws := 0, plat := Platform.atReset, env := {}, script := [] }

/-- The outcome of a step or of an instruction. -/
abbrev Result := Host.Outcome State Fault Refusal

end Sys2Proof.Machine
end

