-- ==== Sys2Proof/Machine/Flags.lean ====
section
/-! DEFINITION. The processor status register: its 32-bit view (R100, R101, D1, D12; log 8, log 9), the trace decision
(R138), the masks of the two interrupts (R152, R153) and the condition bit (R85, R86). -/

namespace Sys2Proof.Machine

/-- The two-bit number of a trace mode before `TM_ENCODING` is applied. -/
def Tm.num : Tm → BitVec 2
  | .off => 0
  | .instr => 1
  | .reserved => 2
  | .flow => 3

/-- The trace mode of a two-bit number. -/
def Tm.ofNum (b : BitVec 2) : Tm :=
  if b = 0 then .off else if b = 1 then .instr else if b = 2 then .reserved else .flow

/-- The bits of TM, by `TM_ENCODING` (D12). -/
def Tm.code (t : Tm) : BitVec 2 := Config.tmCode t.num

/-- The trace mode of the bits of TM (D12). -/
def Tm.ofCode (b : BitVec 2) : Tm := Tm.ofNum (Config.tmCode.symm b)

/-- The fields of a PSR one after another; `PSR_LAYOUT` then says where each bit stands (D1). -/
def Psr.canon (p : Psr) : Word :=
  p.rest ++ BitVec.ofBool p.af ++ BitVec.ofBool p.c ++ p.u ++ BitVec.ofBool p.db ++ BitVec.ofBool p.mm ++
    BitVec.ofBool p.ic ++ BitVec.ofBool p.fe ++ BitVec.ofBool p.ie ++ BitVec.ofBool p.ee ++ BitVec.ofBool p.tp ++
    p.tm.code ++ BitVec.ofBool p.s

/-- The PSR whose fields stand one after another in `w`. -/
def Psr.ofCanon (w : Word) : Psr :=
  { s := w.getLsbD 0, tm := Tm.ofCode (w.extractLsb' 1 2), tp := w.getLsbD 3, ee := w.getLsbD 4, ie := w.getLsbD 5,
    fe := w.getLsbD 6, ic := w.getLsbD 7, mm := w.getLsbD 8, db := w.getLsbD 9, u := w.extractLsb' 10 4,
    c := w.getLsbD 14, af := w.getLsbD 15, rest := w.extractLsb' 16 16 }

/-- The word whose bit i is bit `f i` of `w`. -/
def permuteBits (f : Equiv.Perm (Fin 32)) (w : Word) : Word :=
  BitVec.ofFnLE fun i => w.getLsbD (f i).val

/-- The 32-bit view of a PSR (R100), by `PSR_LAYOUT`. -/
def Psr.toWord (p : Psr) : Word := permuteBits Config.psrLayout p.canon

/-- The PSR of a 32-bit view (R101), by `PSR_LAYOUT`. -/
def Psr.ofWord (w : Word) : Psr := Psr.ofCanon (permuteBits Config.psrLayout.symm w)

/-- The trace decision of R138 for an instruction that is or is not in `NeverTraced` and in `FlowTrace`: `tm0` is PSR.TM
when it started (D11). Under the reserved code whether a traceable instruction is traced is open (log 9). -/
def traceRule (never flow : Bool) (tm0 : Tm) : Bool :=
  !never &&
    match tm0 with
    | .off => false
    | .instr => true
    | .flow => flow
    | .reserved => Config.reservedTmTraces flow

/-- `trace_due(I, tm0)` (R138) of an instruction of the table. -/
def isTraceDue (i : Instr) (tm0 : Tm) : Bool := traceRule (isNeverTraced i) (isFlowTrace i) tm0

/-- `trace_due(other, tm0)` (R138): the catch-all is in no set (R62). -/
def isOtherTraceDue (tm0 : Tm) : Bool := traceRule false false tm0

/-- The normal interrupt is requested and not masked (R152). -/
def takesInt (q : Irq) (p : Psr) : Bool := q.int && p.ie && p.ee

/-- The fast interrupt is requested and not masked (R153); EE is not consulted. -/
def takesFint (q : Irq) (p : Psr) : Bool := q.fint && p.fe

/-- The vector number of the normal interrupt (R151). -/
def Irq.intVector (q : Irq) : BitVec 7 := if q.avec then 10 else q.vec

/-- The vector number of the fast interrupt (R151). -/
def Irq.fintVector (q : Irq) : BitVec 7 := if q.avec then 11 else q.vec

/-- The accelerator that a `hai` opcode addresses is enabled (R109, R154, D19). -/
def haiEnabled (p : Psr) (op : Half) : Bool := p.u.getLsbD (Config.haiUnit op).toNat

end Sys2Proof.Machine
end

