-- ==== Sys2Proof/Machine/Ops.lean ====
section
/-! DEFINITION. The named operations over memory and registers, free values, exception entry (R126 to R128), the
interrupts (R150 to R153), the return (R102, R103, R144), and the two resets (R129, R149). -/

namespace Sys2Proof.Machine

/-! ### Memory as data -/

/-- What a key that memory does not list reads as. DESIGN CHOICE, log 5. -/
def unlistedByte : Byte := 0

/-- One more than the largest memory key: two spaces of 2^32 bytes (R40). -/
def keyLimit : Nat := 2 ^ 33

/-- The byte at a key. -/
def Memory.read : List Host.Cell → Nat → Byte
  | [], _ => unlistedByte
  | (a, b) :: m, k => if a = k then b else Memory.read m k

/-- Put a cell in front, unless it holds what an unlisted key reads as. -/
def Memory.cell (k : Nat) (v : Byte) (m : List Host.Cell) : List Host.Cell :=
  if v = unlistedByte then m else (k, v) :: m

/-- Write one byte, keeping the canonical form. -/
def Memory.write : List Host.Cell → Nat → Byte → List Host.Cell
  | [], k, v => Memory.cell k v []
  | (a, b) :: m, k, v =>
    if k < a then Memory.cell k v ((a, b) :: m)
    else if k = a then Memory.cell k v m
    else (a, b) :: Memory.write m k v

/-- The canonical form above a bound: keys rise strictly from `lo`, stay below `keyLimit`, and no entry equals what an
unlisted key reads as. -/
def Memory.wfFrom : Nat → List Host.Cell → Bool
  | _, [] => true
  | lo, (a, b) :: m => decide (lo ≤ a) && decide (a < keyLimit) && decide (b ≠ unlistedByte) && Memory.wfFrom (a + 1) m

/-- The canonical form of memory. -/
def Memory.wf (m : List Host.Cell) : Bool := Memory.wfFrom 0 m

/-- The memory that a list of writes makes of an empty one. -/
def Memory.ofCells (cs : List (Nat × Byte)) : List Host.Cell :=
  cs.foldl (fun m c => Memory.write m (c.1 % keyLimit) c.2) []

/-! ### Bytes and words (R48) -/

/-- The word of some bytes, the first the most significant. -/
def wordOfBytes (bs : List Byte) : Word :=
  bs.foldl (fun acc b => (acc <<< 8) ||| b.setWidth 32) 0

/-- The lowest `n` bytes of a word, the most significant first. -/
def bytesOfWord (v : Word) : Nat → List Byte
  | 0 => []
  | n + 1 => (v >>> (8 * n)).setWidth 8 :: bytesOfWord v n

/-- The value of bytes in address order, in the given byte order. -/
def joinBytes (bigEndian : Bool) (bs : List Byte) : Word :=
  wordOfBytes (if bigEndian then bs else bs.reverse)

/-- The lowest `n` bytes of a value in address order, in the given byte order. -/
def splitWord (bigEndian : Bool) (v : Word) (n : Nat) : List Byte :=
  if bigEndian then bytesOfWord v n else (bytesOfWord v n).reverse

/-! ### Accesses -/

/-- The address space of the current mode (R40). -/
def State.mode (s : State) : Mode := if s.psr.s then .supervisor else .user

/-- Where memory holds the byte at an address of a space (R40). -/
def State.key (s : State) (m : Mode) (a : Word) : Nat :=
  match m with
  | .supervisor => a.toNat
  | .user => if s.plat.splitSpaces then 2 ^ 32 + a.toNat else a.toNat

/-- One byte. -/
def State.readByte (s : State) (m : Mode) (a : Word) : Byte := Memory.read s.mem (s.key m a)

/-- `n` bytes in address order; addresses wrap modulo 2^32 (D2). -/
def State.readBytes (s : State) (m : Mode) (a : Word) : Nat → List Byte
  | 0 => []
  | n + 1 => s.readByte m a :: s.readBytes m (a + 1) n

/-- The value `MemRead(mode, addr, n)` gives when the bus cycle is not ended by TEA# (R3, R45). -/
def State.readN (s : State) (m : Mode) (a : Word) (n : Nat) : Word :=
  joinBytes s.plat.bigEndian (s.readBytes m a n)

/-- Store one byte and remember the key (R53). -/
def State.writeByte (s : State) (m : Mode) (a : Word) (b : Byte) : State :=
  { s with mem := Memory.write s.mem (s.key m a) b, stored := s.stored.insert (s.key m a) }

/-- Store bytes in address order. -/
def State.writeBytes (s : State) (m : Mode) (a : Word) : List Byte → State
  | [] => s
  | b :: bs => (s.writeByte m a b).writeBytes m (a + 1) bs

/-- `MemWrite(mode, addr, n, v)` when the bus cycle is not ended by TEA# (R3, R45). -/
def State.writeN (s : State) (m : Mode) (a : Word) (n : Nat) (v : Word) : State :=
  s.writeBytes m a (splitWord s.plat.bigEndian v n)

/-- The k-th data access of this step is ended by TEA# or refused by the external MMU (R45, R49, R134). -/
def Env.teaAt (e : Env) (k : Nat) : Bool := e.dataTea == some k || e.dataMmu == some k

/-- A data access was made: BRKRQ# asserted with it is remembered (R30, R70, R147). -/
def State.noteBrk (s : State) : State := { s with dataBrk := s.dataBrk || s.env.dataBrk }

/-! ### General registers -/

/-- `x[i]` (R3), in the bank PSR.AF selects (R28, GK). -/
def State.reg (s : State) (r : Reg) : Word :=
  if s.psr.af then s.altRegs[r.toNat] else s.regs[r.toNat]

/-- `x[i] <- v` (R3). -/
def State.setReg (s : State) (r : Reg) (v : Word) : State :=
  { s with
    regs := if s.psr.af then s.regs else s.regs.set r.toNat v
    altRegs := if s.psr.af then s.altRegs.set r.toNat v else s.altRegs }

/-- Load a list of registers. -/
def State.setRegs (s : State) : List (Reg × Word) → State
  | [] => s
  | (r, v) :: rest => (s.setReg r v).setRegs rest

/-! ### Free values -/

/-- The register takes a draw of its old value or the new one (D20, D27). -/
def State.drawReg (s : State) (r : Reg) (v : Word) : State :=
  { s.setReg r (if Config.freeBit s.draws then v else s.reg r) with draws := s.draws + 1 }

/-- Each register of a list takes a draw of its old value or the new one (R71, D20, D27). -/
def State.drawRegs (s : State) : List (Reg × Word) → State
  | [] => s
  | (r, v) :: rest => (s.drawReg r v).drawRegs rest

/-- A byte of a store that TEA# ended is a draw: of any value (D27, U13), or of its old value or the new one (R45), as the
platform has it (log 15). -/
def State.drawByte (s : State) (m : Mode) (a : Word) (b : Byte) : State :=
  { s.writeByte m a
      (if s.plat.teaWriteAny then (Config.freeWord s.draws).setWidth 8
        else if Config.freeBit s.draws then b else s.readByte m a) with
    draws := s.draws + 1 }

/-- The bytes of a store that TEA# ended: each one a draw (R45, D27). -/
def State.drawBytes (s : State) (m : Mode) (a : Word) : List Byte → State
  | [] => s
  | b :: bs => (s.drawByte m a b).drawBytes m (a + 1) bs

/-- Every general register and the condition bit take free values (the action of an accelerator, R109, U15; the results
of an instruction the source does not name, R62, U20). -/
def State.drawCore (s : State) : State :=
  { s with
    regs := Vector.ofFn fun i => Config.freeWord (s.draws + i.val)
    altRegs := Vector.ofFn fun i => Config.freeWord (s.draws + 16 + i.val)
    psr := { s.psr with c := Config.freeBit (s.draws + 32) }
    draws := s.draws + 33 }

/-- All of memory takes free values (D23; the action of an accelerator, U15). -/
def State.drawMem (s : State) : State :=
  { s with mem := Memory.ofCells (Config.freeCells s.draws), draws := s.draws + 1 }

/-! ### The parameters of the platform (R2) -/

/-- `ILEN` in bytes (D3): 2 with R65's table. -/
def Platform.unitBytes (p : Platform) : Nat :=
  match p.encoding with
  | .table => 2
  | .other units => 2 * (units + 1)

/-- `ILEN` (R2, R11): what "the next instruction" adds to the pc. -/
def State.ilen (s : State) : Word := BitVec.ofNat 32 s.plat.unitBytes

/-- The platform has the width of the instruction's data accesses, if it makes any: it is in `WIDTHS` (R46). -/
def Platform.hasWidth (p : Platform) : Option Nat → Bool
  | none => true
  | some n => p.widths.contains n

/-- The platform implements the instruction (R63; log 12); `other` makes no data access (R62, log 44). -/
def Platform.implements (p : Platform) : Decoded → Bool
  | .named i => p.hasWidth (accessWidth i)
  | .other => true

/-- VBR as the hardware keeps it: `VBR_ALIGN` low bits forced to zero (D5). -/
def Platform.forceVbr (p : Platform) (v : Word) : Word := (v >>> p.vbrAlign) <<< p.vbrAlign

/-- `LowPower(k)` (D28): the core idles; else the run is refused. -/
def Platform.idles (p : Platform) : LowPower → Bool
  | .stop => p.stopIdles
  | .wait => p.waitIdles
  | .doze => p.dozeIdles

/-- `VECTOR_BIT0` refuses this vector word (D6). -/
def Platform.refusesVector (p : Platform) (w : Word) : Bool := isOdd w && p.vectorBit0 == .refuse

/-- The pc that a vector word gives: the word, with bit 0 clear where a set bit is admitted (R128, D6). -/
def handlerPc (w : Word) : Word := w &&& 0xFFFFFFFE

/-- The PSR after the vector word `w` is taken: bit 0 selects the register bank where the platform says so (D6, G9). -/
def Psr.takeVector (p : Psr) (b : VectorBit0) (w : Word) : Psr :=
  match b with
  | .refuse => p
  | .bank => { p with af := isOdd w }

/-! ### Exception entry -/

/-- `vecaddr(v)` (R121): a sum, of VBR as `VBR_ALIGN` has left it (D5, log 23). -/
def vecAddr (vbr : Word) (v : BitVec 7) : Word := vbr + 4 * v.setWidth 32

/-- `VectorJump(v)` (R128): the vector word is read in the supervisor space; the prefetched instructions and the
hidden state are dropped; a low-power state ends (D28). -/
def State.vectorJump (s : State) (v : BitVec 7) : Result :=
  if s.env.vecTea then .fault .vectorBusError
  else if s.plat.refusesVector (s.readN .supervisor (vecAddr s.vbr v) 4) then .refused .oddVector
  else .next
    { s with
      pc := handlerPc (s.readN .supervisor (vecAddr s.vbr v) 4)
      psr := s.psr.takeVector s.plat.vectorBit0 (s.readN .supervisor (vecAddr s.vbr v) 4)
      fetchErr := []
      fetchBrk := []
      dataBrk := false
      traceDue := false
      lowPower := none
      unrecoverable := s.unrecoverable || v == 8 }

/-- The PSR that a normal-kind entry leaves (R126, D7). -/
def Psr.enterNormal (p : Psr) : Psr := { p with s := true, tm := .off, tp := false, ee := false, ie := false }

/-- The PSR that a fast-interrupt entry leaves (R127, D8). -/
def Psr.enterFast (p : Psr) : Psr :=
  { p with s := true, tm := .off, tp := false, fe := false, ie := false, ee := p.ee && !Config.fintEntryClearsEE }

/-- `EnterNormal(v, ret, tp)` (R126); with EE = 0 the vector is 8 (R148). -/
def State.enterNormal (s : State) (v : BitVec 7) (ret : Word) (tp : Bool) : Result :=
  { s with epsr := { s.psr with tp := tp }, epc := ret, psr := s.psr.enterNormal }.vectorJump
    (if s.psr.ee then v else 8)

/-- `EnterFast(v, ret, tp)` (R127). -/
def State.enterFast (s : State) (v : BitVec 7) (ret : Word) (tp : Bool) : Result :=
  { s with fpsr := { s.psr with tp := tp }, fpc := ret, psr := s.psr.enterFast }.vectorJump v

/-- The exceptions of the normal kind that the core itself raises (R122, R124). -/
inductive Exc where
  | misaligned | accessError | divideByZero | illegalInstruction | privilegeViolation | trace | breakpoint
  | hardwareAccelerator
  | trap (n : BitVec 3)
  deriving DecidableEq, Repr

/-- The vector numbers (R122; `trap #n`: 16 + n, D17). -/
def Exc.vector : Exc → BitVec 7
  | .misaligned => 1
  | .accessError => 2
  | .divideByZero => 3
  | .illegalInstruction => 4
  | .privilegeViolation => 5
  | .trace => 6
  | .breakpoint => 7
  | .hardwareAccelerator => 12
  | .trap n => 16 + n.setWidth 7

/-- `raise X(ret)` (R3): the entry of an instruction's own exception, with no trace pending (R140). -/
def State.raise (s : State) (x : Exc) (ret : Word) : Result := s.enterNormal x.vector ret false

/-! ### Interrupts -/

/-- The interrupt taken at a recognition point, fast before normal (R152, R153, R157). -/
def State.interrupt (s : State) (q : Irq) (ret : Word) (tp : Bool) : Option Result :=
  if takesFint q s.psr then some (s.enterFast q.fintVector ret tp)
  else if takesInt q s.psr then some (s.enterNormal q.intVector ret tp)
  else none

/-- The number of data accesses after which an interruptible instruction is cut short, if it is (R150, D20): PSR.IC is
set and an unmasked interrupt is there when the environment has it recognised. -/
def State.cutAt (s : State) : Option Nat :=
  if s.psr.ic && (takesFint s.env.mid s.psr || takesInt s.env.mid s.psr) then s.env.midAt else none

/-- The interrupt inside an instruction: the return address is the instruction's own (R150). -/
def State.interruptInside (s : State) : Result :=
  (s.interrupt s.env.mid s.pc false).getD (.next s)

/-! ### Completion and change of flow -/

/-- `I` completes: `pc <- npc`, and a trace is due or not (R138, R158 stage 7). -/
def State.retire (s : State) (i : Instr) (tm0 : Tm) (npc : Word) : State :=
  { s with pc := npc, traceDue := isTraceDue i tm0 }

/-- `I` completes in sequence: `pc <- pc + ILEN`. -/
def State.retireNext (s : State) (i : Instr) (tm0 : Tm) : Result := .next (s.retire i tm0 (s.pc + s.ilen))

/-- `other` completes in sequence (R62): a trace is due as for an instruction in none of the sets. -/
def State.retireOther (s : State) (tm0 : Tm) : State :=
  { s with pc := s.pc + s.ilen, traceDue := isOtherTraceDue tm0 }

/-- The fetch tags that stay: a taken change of flow to `a` drops every prefetched instruction but the one at `a`
(R133, R146, D24). -/
def keptTags (taken : Bool) (a : Word) (tags : List Word) : List Word :=
  if taken then tags.filter (· == a) else tags

/-- `FLOW(taken, target)` (file 41). -/
def State.flow (s : State) (i : Instr) (tm0 : Tm) (taken : Bool) (target : Word) : State :=
  { s with
    pc := if taken then target else s.pc + s.ilen
    fetchErr := keptTags taken target s.fetchErr
    fetchBrk := keptTags taken target s.fetchBrk
    traceDue := isTraceDue i tm0 }

/-- The privilege check (R137): before anything else of the instruction. -/
def State.privileged (s : State) (k : Result) : Result :=
  if s.psr.s then k else s.raise .privilegeViolation s.pc

/-! ### Return -/

/-- `PendingTrace(a)` (R144, D10): the trace deferred behind an interrupt, or deferred again. -/
def State.pendingTrace (s : State) (a : Word) : Result :=
  if a ∈ s.fetchBrk then s.enterNormal Exc.breakpoint.vector a true
  else (s.interrupt s.env.post a true).getD (s.enterNormal Exc.trace.vector a false)

/-- The state in which a return has restored PSR (TP := 0) and pc (R102, D9, D10). -/
def State.restored (s : State) (i : Instr) (p : Psr) (a : Word) : State :=
  { s with psr := { p with tp := false } }.flow i s.psr.tm true a

/-- The return of R102 and R103 from the shadow pair `p`, `a`. -/
def State.returnFrom (s : State) (i : Instr) (p : Psr) (a : Word) : Result :=
  if isOdd a then .refused .oddReturn
  else if p.tp then (s.restored i p a).pendingTrace a
  else .next (s.restored i p a)

/-! ### Control registers (R27, GK numbers: log 10) -/

/-- `CR[N]` of `mfcr` (R100). A register the spec does not name reads as a free value (log 10). -/
def State.readCr (s : State) (c : BitVec 5) : Word :=
  if c = 0 then s.psr.toWord
  else if c = 1 then s.vbr
  else if c = 2 then s.epsr.toWord
  else if c = 3 then s.fpsr.toWord
  else if c = 4 then s.epc
  else if c = 5 then s.fpc
  else Config.freeWord s.draws

/-- `CR[N] <- v` of `mtcr` (R101); the PSR's own TP stays 0 (R15, D10, log 11); VBR keeps the bits `VBR_ALIGN` leaves it
(D5). A register the spec does not name keeps nothing that any rule reads (log 10). -/
def State.writeCr (s : State) (c : BitVec 5) (v : Word) : State :=
  if c = 0 then { s with psr := { Psr.ofWord v with tp := false } }
  else if c = 1 then { s with vbr := s.plat.forceVbr v }
  else if c = 2 then { s with epsr := Psr.ofWord v }
  else if c = 3 then { s with fpsr := Psr.ofWord v }
  else if c = 4 then { s with epc := v }
  else if c = 5 then { s with fpc := v }
  else s

/-! ### The two resets -/

/-- Every piece of state a reset does not set takes a free value (R31, D23, U7), memory too; the hidden state is
cleared (R30, R31). -/
def State.scramble (s : State) : State :=
  { s with
    regs := Vector.ofFn fun i => Config.freeWord (s.draws + i.val)
    altRegs := Vector.ofFn fun i => Config.freeWord (s.draws + 16 + i.val)
    epc := Config.freeWord (s.draws + 32)
    fpc := Config.freeWord (s.draws + 33)
    epsr := Psr.ofWord (Config.freeWord (s.draws + 34))
    fpsr := Psr.ofWord (Config.freeWord (s.draws + 35))
    psr := Psr.ofWord (Config.freeWord (s.draws + 36))
    mem := Memory.ofCells (Config.freeCells (s.draws + 37))
    fetchErr := []
    fetchBrk := []
    dataBrk := false
    traceDue := false
    srstSeen := false
    lowPower := none
    stored := []
    unrecoverable := false
    draws := s.draws + 38 }

/-- The vector fetch of a reset, from an absolute address (R42), and the state it leaves. -/
def State.resetFrom (s : State) (vector : Word) (fix : Psr → Psr) : Result :=
  if s.env.vecTea then .fault .vectorBusError
  else if s.plat.refusesVector (s.readN .supervisor vector 4) then .refused .oddVector
  else .next
    { s.scramble with
      psr := (fix s.scramble.psr).takeVector s.plat.vectorBit0 (s.readN .supervisor vector 4)
      vbr := 0
      pc := handlerPc (s.readN .supervisor vector 4) }

/-- What hardware reset does to the PSR (R129); the other fields stay drawn. TP is held 0 (R15, R31). -/
def Psr.hardReset (p : Psr) : Psr :=
  { p with s := true, tm := .off, tp := false, ie := false, fe := false, db := false, u := 0 }

/-- What software reset does to the PSR (R149); the other fields stay drawn. TP is held 0 (R15, R31). -/
def Psr.softReset (p : Psr) : Psr :=
  { p with s := true, tm := .off, tp := false, ie := false, fe := false, ee := false }

/-- Hardware reset (R129). -/
def State.hardReset (s : State) : Result := s.resetFrom 0 Psr.hardReset

/-- Software reset (R149). -/
def State.softReset (s : State) : Result := s.resetFrom 0x24 Psr.softReset

end Sys2Proof.Machine
end

