-- ==== Sys2Proof/Machine/Operands.lean ====
section
/-! DEFINITION. Operand forms: effective addresses and their alignment (R43, R65, R70), branch targets and literal
addresses (R65, R82, R84), register lists (R71 to R74), and the results of the divides and the multiply (R93 to R95). -/

namespace Sys2Proof.Machine

/-- `ea = x[rx] + disp * n` for access width `n` (R65, R70, GK). -/
def State.dataAddr (s : State) (rx : Reg) (d : BitVec 4) (n : Nat) : Word :=
  s.reg rx + d.setWidth 32 * BitVec.ofNat 32 n

/-- `ea - (ea mod n)`: the natural boundary at or below `ea` (R43). -/
def alignDown (ea : Word) (n : Nat) : Word := ea - ea % BitVec.ofNat 32 n

/-- `ea mod n = 0`: the operand lies on the natural boundary of its width (R43). -/
def isAligned (ea : Word) (n : Nat) : Bool := ea % BitVec.ofNat 32 n == 0

/-- The access is made: it is aligned, or the check is masked by PSR.MM (R43). -/
def State.accessible (s : State) (ea : Word) (n : Nat) : Bool := isAligned ea n || s.psr.mm

/-- `pc + 2 + (sext(d) << 1)`: a branch target (R65, R84, GK). -/
def State.branchTarget (s : State) (d : BitVec 11) : Word := s.pc + 2 + (d.signExtend 32 <<< 1)

/-- `(pc + 2 + (zext(d) << 2)) & 0xFFFFFFFC`: the literal of `jmpi` and `jsri` (R65, R82, GK). -/
def State.literalAddr (s : State) (d : BitVec 8) : Word := (s.pc + 2 + (d.setWidth 32 <<< 2)) &&& 0xFFFFFFFC

/-- The target of `loopt`: a halfword displacement that the spec leaves open (R88, log 17). -/
def State.looptTarget (s : State) (d : BitVec 4) : Word := s.pc + 2 + (Config.looptDisp d <<< 1)

/-- r15, the link register of `jsr`, `jsri` and `bsr` (R28, R81, GK). -/
def linkReg : Reg := 15

/-- `x[15] <- pc + 2` (R81, R83, R87, GK). -/
def State.link (s : State) : State := s.setReg linkReg (s.pc + 2)

/-- The target of `jsr rx` (R81); with rx = r15 it is open whether the link is written before it is read (log 18). -/
def State.jsrTarget (s : State) (rx : Reg) : Word :=
  if rx = linkReg && Config.jsrLinkFirst then s.pc + 2 else s.reg rx

/-- r4 to r7, the quadrant of `ldq` and `stq` (R72, R74, GK). -/
def quadrant : List Reg := [4, 5, 6, 7]

/-- All register numbers in rising order. -/
def allRegs : List Reg := [0, 1, 2, 3, 4, 5, 6, 7, 8, 9, 10, 11, 12, 13, 14, 15]

/-- rf to r15, the list of `ldm` and `stm` (R71, R73, GK). -/
def regsFrom (rf : Reg) : List Reg := allRegs.drop rf.toNat

/-- The base register of `ldm` and `stm` (R71, R73, GK). -/
def multipleBase : Reg := 0

/-- `divu`: floor(x / y), both unsigned (R94, GK). The divisor is not 0. -/
def quotientUnsigned (x y : Word) : Word := BitVec.ofNat 32 (x.toNat / y.toNat)

/-- `divs`: the signed quotient where it is exact and representable; the rounding of an inexact quotient and the
quotient of the most negative number by -1 are configuration functions (R93, log 16). The divisor is not 0. -/
def quotientSigned (x y : Word) : Word :=
  if x.toInt = -2 ^ 31 ∧ y.toInt = -1 then Config.divsOverflow
  else if x.toInt.fdiv y.toInt * y.toInt = x.toInt then BitVec.ofInt 32 (x.toInt.fdiv y.toInt)
  else if Config.divsRoundsUp x y then BitVec.ofInt 32 (x.toInt.fdiv y.toInt + 1)
  else BitVec.ofInt 32 (x.toInt.fdiv y.toInt)

/-- The divisor register of `divs` and `divu`: r1 (R93, R94, GK). -/
def divisorReg : Reg := 1

end Sys2Proof.Machine
end

