-- ==== Sys2Proof/Machine/Boundary.lean ====
section
/-! DEFINITION. What a step does around the instruction (R158): the resets, the boundary before, the low-power state, the
fetch, the boundary after, and the move to the next step's inputs. -/

namespace Sys2Proof.Machine

/-- What stages 1 to 5 of R158 leave: the step is over, or an instruction is to be executed in a state. -/
inductive Front where
  | ended (r : Result)
  | run (d : Decoded) (s : State)

/-- The environment's answers to this step's instruction fetches are tagged by address (R30, R133, R134, R146). -/
def State.latch (s : State) : State :=
  { s with
    fetchErr := (s.env.fetchTea ∪ s.env.fetchMmu) ∪ s.fetchErr
    fetchBrk := s.env.fetchBrk ∪ s.fetchBrk }

/-- Stage 3 of R158: BRKRQ# on the fetch of this instruction (R146), then the interrupts (R152, R153). -/
def State.boundaryBefore (s : State) : Option Result :=
  if s.pc ∈ s.fetchBrk then some (s.raise .breakpoint s.pc)
  else s.interrupt s.env.pre s.pc false

/-- A store has written a byte of the instruction at `pc` since the last reset (R53, D22). -/
def State.modified (s : State) : Bool :=
  (List.range s.plat.unitBytes).any fun k => decide (s.key s.mode (s.pc + BitVec.ofNat 32 k) ∈ s.stored)

/-- `decode` (R60) of the instruction at `pc`, read in the current mode's space. -/
def State.decodeNext (s : State) : Except WordError Decoded :=
  match s.plat.encoding with
  | .table =>
    decodeWord (halfOfBytes s.plat.bigEndian (s.readByte s.mode s.pc) (s.readByte s.mode (s.pc + 1)))
  | .other units =>
    match Config.otherDecode (s.readBytes s.mode s.pc (2 * (units + 1))) with
    | some d => .ok d
    | none => .error .illegal

/-- Stages 4 and 5 of R158: the fetch error (R133), the fetch, and the decode (R136). An instruction whose access width
the platform lacks is an unimplemented one (R63, log 12). Only a word outside R65's table can be refused (U6). -/
def State.fetch (s : State) : Front :=
  if s.pc ∈ s.fetchErr then .ended (s.raise .accessError s.pc)
  else if isOdd s.pc then .ended (.refused .oddPc)
  else if s.modified then .ended (.refused .selfModified)
  else
    match s.decodeNext with
    | .ok d => if s.plat.implements d then .run d s else .ended (s.raise .illegalInstruction s.pc)
    | .error .illegal => .ended (s.raise .illegalInstruction s.pc)
    | .error .unlisted => .ended (.refused .unlistedWord)

/-- Stages 3 to 5 of R158, and the low-power state, in which no instruction executes (D28). -/
def State.attempt (s : State) : Front :=
  match s.boundaryBefore with
  | some r => .ended r
  | none => if s.lowPower.isSome then .ended (.next s) else s.fetch

/-- Stages 1 to 5 of R158. -/
def State.front (s : State) : Front :=
  if s.env.reset then .ended s.hardReset
  else if s.env.srst then .ended (.next { s with srstSeen := true })
  else if s.srstSeen then .ended s.softReset
  else s.latch.attempt

/-- Stage 8 of R158: the boundary after an instruction that completed. A breakpoint defers a due trace (D24), also one
tagged on the fetch of the next instruction (R146, log 29); so do the interrupts (R143); else the trace is taken (R141). -/
def State.boundaryAfter (s : State) : Result :=
  if s.dataBrk || (s.traceDue && decide (s.pc ∈ s.fetchBrk)) then
    s.enterNormal Exc.breakpoint.vector s.pc s.traceDue
  else if s.traceDue then
    (s.interrupt s.env.post s.pc true).getD (s.enterNormal Exc.trace.vector s.pc false)
  else .next s

/-- The inputs of the next step come up; after the end of the script every signal is negated (log 27). Between steps the
environment changes no memory, and every address is plain memory: no ROM, no device (R42 and R50 leave both to the
platform; DESIGN CHOICE, unsafe, log 42). -/
def State.advance (s : State) : State :=
  { s with env := s.script.headD {}, script := s.script.tail }

/-- Go on from a next state. -/
def Result.bind (r : Result) (f : State → Result) : Result :=
  match r with
  | .next s => f s
  | .fault x => .fault x
  | .refused x => .refused x

/-- A step's end: its outcome with the next step's inputs. -/
def Result.close (r : Result) : Result := Result.bind r fun s => .next s.advance

/-- Put the bytes of one instruction where the fetch at `pc` reads them, in the current mode's space. -/
def State.placeHalf (s : State) (w : Half) : State :=
  { s.writeBytes s.mode s.pc (bytesOfHalf s.plat.bigEndian w) with
    stored := s.stored.filter fun k => k != s.key s.mode s.pc && k != s.key s.mode (s.pc + 1) }

/-- Nothing pre-empts the fetch at `pc` in the next step. -/
def State.unobstructed (s : State) : State :=
  { s with
    srstSeen := false
    lowPower := none
    fetchErr := s.fetchErr.filter (· != s.pc)
    fetchBrk := s.fetchBrk.filter (· != s.pc)
    env := { s.env with
      reset := false
      srst := false
      pre := {}
      fetchTea := s.env.fetchTea.filter (· != s.pc)
      fetchMmu := s.env.fetchMmu.filter (· != s.pc)
      fetchBrk := s.env.fetchBrk.filter (· != s.pc) } }

end Sys2Proof.Machine
end

