-- ==== Sys2Proof/Machine/Arith.lean ====
section
/-! DEFINITION. The multi-cycle arithmetic (R93 to R95): interruptible before completion when PSR.IC = 1, and then
nothing is written (R150, D20). They leave the condition bit as it was (PRESUMED, log 41). -/

namespace Sys2Proof.Machine

/-- The shared end of the three: an interrupt inside, or the result and completion. -/
def State.finishArith (s : State) (i : Instr) (rx : Reg) (v : Word) : Result :=
  if s.cutAt.isSome then s.interruptInside
  else (s.setReg rx v).retireNext i s.psr.tm

/-- `divs rx,r1` (R93): a zero divisor raises DivideByZero and nothing is written (R135). -/
def execDivs (rx : Reg) (s : State) : Result :=
  if s.reg divisorReg = 0 then s.raise .divideByZero s.pc
  else s.finishArith (.divs rx) rx (quotientSigned (s.reg rx) (s.reg divisorReg))

/-- `divu rx,r1` (R94): a zero divisor raises DivideByZero and nothing is written (R135). -/
def execDivu (rx : Reg) (s : State) : Result :=
  if s.reg divisorReg = 0 then s.raise .divideByZero s.pc
  else s.finishArith (.divu rx) rx (quotientUnsigned (s.reg rx) (s.reg divisorReg))

/-- `mult rx,ry` (R95): the low 32 bits of the product. -/
def execMult (rx ry : Reg) (s : State) : Result :=
  s.finishArith (.mult rx ry) rx (s.reg rx * s.reg ry)

end Sys2Proof.Machine
end

