-- ==== Sys2Proof/Machine/Control.lean ====
section
/-! DEFINITION. The control transfers (R80 to R88), each over FLOW of file 41. -/

namespace Sys2Proof.Machine

/-- `jmp` (R80): an odd target is refused (D16). -/
def execJmp (rx : Reg) (s : State) : Result :=
  if isOdd (s.reg rx) then .refused .oddTarget
  else .next (s.flow (.jmp rx) s.psr.tm true (s.reg rx))

/-- `jsr` (R81): an odd target is refused (D16). -/
def execJsr (rx : Reg) (s : State) : Result :=
  if isOdd (s.jsrTarget rx) then .refused .oddTarget
  else .next (s.link.flow (.jsr rx) s.psr.tm true (s.jsrTarget rx))

/-- `jmpi` (R82): an odd target raises Misaligned with EPC = the target (R131); MM does not mask it (D15). -/
def execJmpi (d : BitVec 8) (s : State) : Result :=
  if s.env.teaAt 0 then s.raise .accessError s.pc
  else if isOdd (s.readN s.mode (s.literalAddr d) 4) then
    s.raise .misaligned (s.readN s.mode (s.literalAddr d) 4)
  else .next (s.noteBrk.flow (.jmpi d) s.psr.tm true (s.readN s.mode (s.literalAddr d) 4))

/-- `jsri` (R83): as `jmpi`, with the link written before FLOW; when it ends in an exception the link register is old or
new (D27). -/
def execJsri (d : BitVec 8) (s : State) : Result :=
  if s.env.teaAt 0 then (s.drawReg linkReg (s.pc + 2)).raise .accessError s.pc
  else if isOdd (s.readN s.mode (s.literalAddr d) 4) then
    (s.drawReg linkReg (s.pc + 2)).raise .misaligned (s.readN s.mode (s.literalAddr d) 4)
  else .next (s.noteBrk.link.flow (.jsri d) s.psr.tm true (s.readN s.mode (s.literalAddr d) 4))

/-- `br` (R84) -/
def execBr (d : BitVec 11) (s : State) : Result :=
  .next (s.flow (.br d) s.psr.tm true (s.branchTarget d))

/-- `bt` (R85): taken if C = 1. -/
def execBt (d : BitVec 11) (s : State) : Result :=
  .next (s.flow (.bt d) s.psr.tm s.psr.c (s.branchTarget d))

/-- `bf` (R86): taken if C = 0. -/
def execBf (d : BitVec 11) (s : State) : Result :=
  .next (s.flow (.bf d) s.psr.tm (!s.psr.c) (s.branchTarget d))

/-- `bsr` (R87) -/
def execBsr (d : BitVec 11) (s : State) : Result :=
  .next (s.link.flow (.bsr d) s.psr.tm true (s.branchTarget d))

/-- `loopt` (R88): its condition, target and register and flag updates are parameters (log 17). -/
def execLoopt (ry : Reg) (d : BitVec 4) (s : State) : Result :=
  let s1 := s.setReg ry (Config.looptCount s.psr.c (s.reg ry))
  .next ({ s1 with psr := { s1.psr with c := Config.looptC s.psr.c (s.reg ry) } }.flow (.loopt ry d) s.psr.tm
    (Config.looptTaken s.psr.c (s.reg ry)) (s.looptTarget d))

end Sys2Proof.Machine
end

