-- ==== Sys2Proof/Machine/LoadStore.lean ====
section
/-! DEFINITION. The load and store class (R70): one width each, over one shared load and one shared store. -/

namespace Sys2Proof.Machine

/-- The shared load (R70): the alignment check precedes the bus cycle (D18); a narrow value is zero-extended (GK). -/
def State.load (s : State) (i : Instr) (rz : Reg) (ea : Word) (n : Nat) : Result :=
  if !s.accessible ea n then s.raise .misaligned s.pc
  else if s.env.teaAt 0 then s.raise .accessError s.pc
  else (s.noteBrk.setReg rz (s.readN s.mode (alignDown ea n) n)).retireNext i s.psr.tm

/-- The shared store (R70). A store that TEA# ends leaves each of its bytes old or new (R45). -/
def State.store (s : State) (i : Instr) (rz : Reg) (ea : Word) (n : Nat) : Result :=
  if !s.accessible ea n then s.raise .misaligned s.pc
  else if s.env.teaAt 0 then
    (s.drawBytes s.mode (alignDown ea n) (splitWord s.plat.bigEndian (s.reg rz) n)).raise .accessError s.pc
  else (s.noteBrk.writeN s.mode (alignDown ea n) n (s.reg rz)).retireNext i s.psr.tm

/-- `ld.w` (R70) -/
def execLdW (rz rx : Reg) (d : BitVec 4) (s : State) : Result :=
  s.load (.ldW rz rx d) rz (s.dataAddr rx d 4) 4

/-- `st.w` (R70) -/
def execStW (rz rx : Reg) (d : BitVec 4) (s : State) : Result :=
  s.store (.stW rz rx d) rz (s.dataAddr rx d 4) 4

/-- `ld.b` (R70) -/
def execLdB (rz rx : Reg) (d : BitVec 4) (s : State) : Result :=
  s.load (.ldB rz rx d) rz (s.dataAddr rx d 1) 1

/-- `st.b` (R70) -/
def execStB (rz rx : Reg) (d : BitVec 4) (s : State) : Result :=
  s.store (.stB rz rx d) rz (s.dataAddr rx d 1) 1

/-- `ld.h` (R70) -/
def execLdH (rz rx : Reg) (d : BitVec 4) (s : State) : Result :=
  s.load (.ldH rz rx d) rz (s.dataAddr rx d 2) 2

/-- `st.h` (R70) -/
def execStH (rz rx : Reg) (d : BitVec 4) (s : State) : Result :=
  s.store (.stH rz rx d) rz (s.dataAddr rx d 2) 2

end Sys2Proof.Machine
end

