-- ==== Sys2Proof/Machine/Multiple.lean ====
section
/-! DEFINITION. The multi-register loads and stores (R71 to R74): consecutive words in register order, interruptible
when PSR.IC = 1 (R150), with the partial effects of D20 and D27. -/

namespace Sys2Proof.Machine

/-- How a multi-register instruction ends. -/
inductive Ending where
  /-- all transfers are made -/
  | done
  /-- the transfer with this number is ended by TEA# (R132) -/
  | busError (k : Nat)
  /-- an interrupt is taken after this many transfers (R150) -/
  | cut (k : Nat)
  deriving DecidableEq, Repr

/-- The first of `n` data accesses that TEA# ends, if one is. -/
def Env.firstTea (e : Env) (n : Nat) : Option Nat := (List.range n).find? (e.teaAt ·)

/-- How `n` transfers end: by an interrupt if it is recognised before the failing access, else by the failing access,
else completely. -/
def State.ending (s : State) (n : Nat) : Ending :=
  match s.cutAt, s.env.firstTea n with
  | some k, some t => if k ≤ t then .cut k else .busError t
  | some k, none => if k ≤ n then .cut k else .done
  | none, some t => .busError t
  | none, none => .done

/-- Each register with the word its transfer reads: consecutive words from `a` (R71, R72, GK). -/
def State.transfers (s : State) (a : Word) : List Reg → List (Reg × Word)
  | [] => []
  | r :: rs => (r, s.readN s.mode a 4) :: s.transfers (a + 4) rs

/-- Store the registers, as they were in `s0`, to consecutive words from `a` (R73, R74, GK). -/
def State.storeRegs (s : State) (s0 : State) (a : Word) : List Reg → State
  | [] => s
  | r :: rs => (s.writeN s0.mode a 4 (s0.reg r)).storeRegs s0 (a + 4) rs

/-- The shared multi-register load. The base register keeps its value when an interrupt cuts it short (D20). When the
base register of `ldm` is in its own list, it ends with its old value or the loaded one (`openBase`, log 13). -/
def State.loadMultiple (s : State) (i : Instr) (base : Reg) (rs : List Reg) (openBase : Bool) : Result :=
  if !s.accessible (s.reg base) 4 then s.raise .misaligned s.pc
  else
    let ts := s.transfers (alignDown (s.reg base) 4) rs
    match s.ending rs.length with
    | .busError _ => (s.drawRegs ts).raise .accessError s.pc
    | .cut _ => (s.drawRegs (ts.filter (·.1 != base))).interruptInside
    | .done =>
      if openBase then
        ((s.noteBrk.drawRegs (ts.filter (·.1 == base))).setRegs (ts.filter (·.1 != base))).retireNext i s.psr.tm
      else (s.noteBrk.setRegs ts).retireNext i s.psr.tm

/-- The shared multi-register store: the transfers made before an interrupt or a bus error stay made (R73). -/
def State.storeMultiple (s : State) (i : Instr) (base : Reg) (rs : List Reg) : Result :=
  if !s.accessible (s.reg base) 4 then s.raise .misaligned s.pc
  else
    let a := alignDown (s.reg base) 4
    match s.ending rs.length with
    | .busError k =>
      ((s.storeRegs s a (rs.take k)).drawBytes s.mode (a + 4 * BitVec.ofNat 32 k)
        (splitWord s.plat.bigEndian (s.reg (rs.getD k 0)) 4)).raise .accessError s.pc
    | .cut k => (s.storeRegs s a (rs.take k)).interruptInside
    | .done => (s.noteBrk.storeRegs s a rs).retireNext i s.psr.tm

/-- `ldm rf-r15,(r0)` (R71) -/
def execLdm (rf : Reg) (s : State) : Result :=
  s.loadMultiple (.ldm rf) multipleBase (regsFrom rf) true

/-- `ldq r4-r7,(rx)` (R72) -/
def execLdq (rx : Reg) (s : State) : Result :=
  s.loadMultiple (.ldq rx) rx quadrant false

/-- `stm rf-r15,(r0)` (R73) -/
def execStm (rf : Reg) (s : State) : Result :=
  s.storeMultiple (.stm rf) multipleBase (regsFrom rf)

/-- `stq r4-r7,(rx)` (R74) -/
def execStq (rx : Reg) (s : State) : Result :=
  s.storeMultiple (.stq rx) rx quadrant

end Sys2Proof.Machine
end

