-- ==== Sys2Proof/Machine/System.lean ====
section
/-! DEFINITION. The privileged and the trapping instructions (R100 to R109). -/

namespace Sys2Proof.Machine

/-- `mfcr` (R100). A read of a register the spec does not name takes a free value (log 10). -/
def execMfcr (rx : Reg) (c : BitVec 5) (s : State) : Result :=
  s.privileged
    ({ s.setReg rx (s.readCr c) with draws := if c.toNat < 6 then s.draws else s.draws + 1 }.retireNext
      (.mfcr rx c) s.psr.tm)

/-- `mtcr` (R101). The trace decision uses TM as it was before the write (D11). -/
def execMtcr (rx : Reg) (c : BitVec 5) (s : State) : Result :=
  s.privileged ((s.writeCr c (s.reg rx)).retireNext (.mtcr rx c) s.psr.tm)

/-- `rte` (R102) -/
def execRte (s : State) : Result := s.privileged (s.returnFrom .rte s.epsr s.epc)

/-- `rfi` (R103) -/
def execRfi (s : State) : Result := s.privileged (s.returnFrom .rfi s.fpsr s.fpc)

/-- Where `LowPower(k)` is selected the core enters a low-power state, and an interrupt from it saves the address after the
instruction; else the spec's default: refuse (R104, D28, log 20). -/
def State.enterLowPower (s : State) (k : LowPower) (i : Instr) : Result :=
  if s.plat.idles k then { s with lowPower := some k }.retireNext i s.psr.tm
  else .refused .lowPowerOpen

/-- `stop` (R104) -/
def execStop (s : State) : Result := s.privileged (s.enterLowPower .stop .stop)

/-- `wait` (R105) -/
def execWait (s : State) : Result := s.privileged (s.enterLowPower .wait .wait)

/-- `doze` (R106) -/
def execDoze (s : State) : Result := s.privileged (s.enterLowPower .doze .doze)

/-- `trap #n` (R107, R155): always raises, in either mode. -/
def execTrap (n : BitVec 3) (s : State) : Result := s.raise (.trap n) s.pc

/-- `bkpt` (R108, R145): always raises, in either mode. -/
def execBkpt (s : State) : Result := s.raise .breakpoint s.pc

/-- The entry that ends a `hai` whose accelerator reports an exception (R109, R154): what the accelerator had done to
registers and memory is free (log 19). -/
def State.haiReported (s : State) : Result :=
  match s.drawCore.raise .hardwareAccelerator s.pc with
  | .next t => .next t.drawMem
  | .fault r => .fault r
  | .refused r => .refused r

/-- `hai` (R109): a disabled accelerator raises; an enabled one acts on registers, condition bit and memory in a way
the spec leaves open, free values (U15, log 19). -/
def execHai (op : Half) (s : State) : Result :=
  if !haiEnabled s.psr op then s.raise .hardwareAccelerator s.pc
  else if s.env.haFault then s.haiReported
  else s.drawCore.drawMem.retireNext (.hai op) s.psr.tm

end Sys2Proof.Machine
end

