-- ==== Sys2Proof/Machine/Dispatch.lean ====
section
/-! DEFINITION. One arm per instruction: its meaning (R158 stages 6 and 7). -/

namespace Sys2Proof.Machine

def exec (i : Instr) (s : State) : Host.Outcome State Fault Refusal :=
  match i with
  | .ldW rz rx d => Sys2Proof.Machine.execLdW rz rx d s
  | .stW rz rx d => Sys2Proof.Machine.execStW rz rx d s
  | .ldB rz rx d => Sys2Proof.Machine.execLdB rz rx d s
  | .stB rz rx d => Sys2Proof.Machine.execStB rz rx d s
  | .ldH rz rx d => Sys2Proof.Machine.execLdH rz rx d s
  | .stH rz rx d => Sys2Proof.Machine.execStH rz rx d s
  | .ldm rf => Sys2Proof.Machine.execLdm rf s
  | .ldq rx => Sys2Proof.Machine.execLdq rx s
  | .stm rf => Sys2Proof.Machine.execStm rf s
  | .stq rx => Sys2Proof.Machine.execStq rx s
  | .jmp rx => Sys2Proof.Machine.execJmp rx s
  | .jsr rx => Sys2Proof.Machine.execJsr rx s
  | .jmpi d => Sys2Proof.Machine.execJmpi d s
  | .jsri d => Sys2Proof.Machine.execJsri d s
  | .br d => Sys2Proof.Machine.execBr d s
  | .bt d => Sys2Proof.Machine.execBt d s
  | .bf d => Sys2Proof.Machine.execBf d s
  | .bsr d => Sys2Proof.Machine.execBsr d s
  | .loopt ry d => Sys2Proof.Machine.execLoopt ry d s
  | .divs rx => Sys2Proof.Machine.execDivs rx s
  | .divu rx => Sys2Proof.Machine.execDivu rx s
  | .mult rx ry => Sys2Proof.Machine.execMult rx ry s
  | .mfcr rx c => Sys2Proof.Machine.execMfcr rx c s
  | .mtcr rx c => Sys2Proof.Machine.execMtcr rx c s
  | .rte => Sys2Proof.Machine.execRte s
  | .rfi => Sys2Proof.Machine.execRfi s
  | .stop => Sys2Proof.Machine.execStop s
  | .wait => Sys2Proof.Machine.execWait s
  | .doze => Sys2Proof.Machine.execDoze s
  | .trap n => Sys2Proof.Machine.execTrap n s
  | .bkpt => Sys2Proof.Machine.execBkpt s
  | .hai op => Sys2Proof.Machine.execHai op s

end Sys2Proof.Machine
end

