-- ==== Sys2Proof/Machine/Execute.lean ====
section
/-! DEFINITION. What a decoded instruction does: an instruction of the opcode table its meaning, R62's catch-all `other`
the one below. -/

namespace Sys2Proof.Machine

/-- `other`, an instruction the source does not name (R62): it is in none of the sets, so it completes in sequence and is
traced under TM = instr alone (R138, V29, V30). What it computes is open (U20): the general registers and the condition
bit take free values (log 44). -/
def execOther (s : State) : Result :=
  .next (s.drawCore.retireOther s.psr.tm)

/-- Stages 6 and 7 of R158 for what the fetch decoded. -/
def execute (d : Decoded) (s : State) : Result :=
  match d with
  | .named i => exec i s
  | .other => execOther s

end Sys2Proof.Machine
end

