-- ==== Sys2Proof/Machine/Step.lean ====
section
/-! DEFINITION. One step of the core: R158. -/

namespace Sys2Proof.Machine

/-- R158: stages 1 to 5, the instruction, stage 8, and the next step's inputs. -/
def step (s : State) : Host.Outcome State Fault Refusal :=
  match s.front with
  | .ended r => Result.close r
  | .run d t => Result.close (Result.bind (execute d t) State.boundaryAfter)

/-- The state with one instruction placed where `step` fetches its next one, and nothing that pre-empts the fetch: no
reset, no event at the boundary before, no low-power state, no store to those bytes (log 31). The word is one of R65's
table, so that is the encoding of the platform it is placed on. -/
def State.withFetchWord (s : State) (nbits w : Nat) : State :=
  { (s.placeHalf (BitVec.ofNat 16 (w % 2 ^ nbits))).unobstructed with plat := { s.plat with encoding := .table } }

end Sys2Proof.Machine
end

