-- ==== Sys2Proof/Safety.lean ====
section
/-! DEFINITION. What the claims speak of: the invariant of the machine, what counts as a run that ended well (U3), and
the frames: what an instruction leaves unchanged. -/

namespace Sys2Proof.Machine

/-! ### The invariant and safe runs -/

/-- What holds between steps: the pc is even (R11, R44), memory is in its canonical form, PSR.TP is 0 (R15, D10), no data
breakpoint or due trace is left over (R158 stage 8), and VBR has the low bits zero that the hardware forces (D5). -/
structure State.Inv (s : State) : Prop where
  pcEven : isOdd s.pc = false
  memWf : Memory.wf s.mem = true
  tpClear : s.psr.tp = false
  noBrk : s.dataBrk = false
  noTrace : s.traceDue = false
  vbrForced : s.plat.forceVbr s.vbr = s.vbr

/-- `n` steps run, and no state among them has passed through the unrecoverable-error vector (R148, U3). -/
def State.runsWell : Nat → State → Prop
  | 0, s => s.unrecoverable = false
  | n + 1, s => s.unrecoverable = false ∧ ∃ t, step s = .next t ∧ t.runsWell n

/-! ### Values in memory, byte by byte -/

/-- The byte at `a + k`. -/
def State.byteAt (s : State) (m : Mode) (a : Word) (k : Nat) : Byte := s.readByte m (a + BitVec.ofNat 32 k)

/-- The 32-bit value at `a` in the platform's byte order (R48). -/
def State.wordAt (s : State) (m : Mode) (a : Word) : Word :=
  if s.plat.bigEndian then s.byteAt m a 0 ++ s.byteAt m a 1 ++ s.byteAt m a 2 ++ s.byteAt m a 3
  else s.byteAt m a 3 ++ s.byteAt m a 2 ++ s.byteAt m a 1 ++ s.byteAt m a 0

/-- The 16-bit value at `a` in the platform's byte order (R48). -/
def State.halfAt (s : State) (m : Mode) (a : Word) : Half :=
  if s.plat.bigEndian then s.byteAt m a 0 ++ s.byteAt m a 1 else s.byteAt m a 1 ++ s.byteAt m a 0

/-! ### Frames -/

/-- The general registers of the bank that PSR.AF does not select. -/
def State.otherReg (s : State) (r : Reg) : Word :=
  if s.psr.af then s.regs[r.toNat] else s.altRegs[r.toNat]

/-- Every general register but those listed is unchanged, and the whole bank not in use. -/
def SameRegsBut (s t : State) (rs : List Reg) : Prop :=
  (∀ r, r ∉ rs → t.reg r = s.reg r) ∧ ∀ r, t.otherReg r = s.otherReg r

/-- VBR and the two shadow pairs are unchanged. -/
structure SameSpecial (s t : State) : Prop where
  vbr : t.vbr = s.vbr
  epc : t.epc = s.epc
  epsr : t.epsr = s.epsr
  fpc : t.fpc = s.fpc
  fpsr : t.fpsr = s.fpsr

/-- The hidden state that no completing instruction touches, the mark of U3, the platform and the inputs are
unchanged. -/
structure SameHidden (s t : State) : Prop where
  srstSeen : t.srstSeen = s.srstSeen
  unrecoverable : t.unrecoverable = s.unrecoverable
  plat : t.plat = s.plat
  env : t.env = s.env
  script : t.script = s.script

/-- Every byte of memory reads as before, and no store is recorded. -/
def SameMemory (s t : State) : Prop :=
  (∀ m a, t.readByte m a = s.readByte m a) ∧ t.stored = s.stored

/-- Every byte outside the `n` bytes from `a` of space `m` reads as before. -/
def SameMemoryBut (s t : State) (m : Mode) (a : Word) (n : Nat) : Prop :=
  ∀ m' a', (∀ k < n, s.key m' a' ≠ s.key m (a + BitVec.ofNat 32 k)) → t.readByte m' a' = s.readByte m' a'

/-- `i` completed in sequence: the pc is at the next instruction, the fetch tags stay, and a trace is due as TM said
when `i` started (R138, D11). -/
structure InSequence (s t : State) (i : Instr) : Prop where
  pc : t.pc = s.pc + s.ilen
  traceDue : t.traceDue = isTraceDue i s.psr.tm
  fetchErr : t.fetchErr = s.fetchErr
  fetchBrk : t.fetchBrk = s.fetchBrk

/-- `i` changed the flow to `a`: only the fetch tags of `a` stay (R133, R146, D24), and a trace is due as TM said. -/
structure JumpedTo (s t : State) (i : Instr) (a : Word) : Prop where
  pc : t.pc = a
  traceDue : t.traceDue = isTraceDue i s.psr.tm
  fetchErr : ∀ b, b ∈ t.fetchErr ↔ b = a ∧ b ∈ s.fetchErr
  fetchBrk : ∀ b, b ∈ t.fetchBrk ↔ b = a ∧ b ∈ s.fetchBrk

/-- Nothing but general registers in `rs`, the pc, the fetch tags and the two boundary marks has changed: the frame of
an instruction that writes registers only. -/
structure RegsOnly (s t : State) (rs : List Reg) : Prop where
  psr : t.psr = s.psr
  lowPower : t.lowPower = s.lowPower
  regs : SameRegsBut s t rs
  special : SameSpecial s t
  hidden : SameHidden s t
  memory : SameMemory s t

/-- The frame of an instruction that stores `n` bytes from `a` in the current mode's space; the store is remembered
(R53). -/
structure StoresOnly (s t : State) (a : Word) (n : Nat) : Prop where
  psr : t.psr = s.psr
  lowPower : t.lowPower = s.lowPower
  regs : SameRegsBut s t []
  special : SameSpecial s t
  hidden : SameHidden s t
  memory : SameMemoryBut s t s.mode a n
  stored : ∀ j, j ∈ t.stored ↔ j ∈ s.stored ∨ ∃ k < n, j = s.key s.mode (a + BitVec.ofNat 32 k)

/-- Each of the `n` bytes from `a`, in the current mode's space, is as in `s` or is that byte of `v` in the platform's byte
order (R45). -/
def OldOrNew (s t : State) (a : Word) (n : Nat) (v : Word) : Prop :=
  ∀ k < n, t.byteAt s.mode a k = s.byteAt s.mode a k ∨
    t.byteAt s.mode a k = (v >>> (8 * (if s.plat.bigEndian then n - 1 - k else k))).setWidth 8

/-! ### What an exception entry leaves -/

/-- The parts of the state that no exception entry touches: VBR, the general registers, memory, the platform and the
inputs (R126, R127, R193). -/
structure EntryFrame (s t : State) : Prop where
  vbr : t.vbr = s.vbr
  regs : t.regs = s.regs
  altRegs : t.altRegs = s.altRegs
  mem : t.mem = s.mem
  stored : t.stored = s.stored
  srstSeen : t.srstSeen = s.srstSeen
  plat : t.plat = s.plat
  env : t.env = s.env
  script : t.script = s.script

/-- The register bank that a jump through vector `v` leaves: bit 0 of the vector word where `VECTOR_BIT0` says so (D6,
G9), else the bank in use. -/
def State.bankAfter (s : State) (v : BitVec 7) : Bool :=
  if s.plat.vectorBit0 = .bank then isOdd (s.wordAt .supervisor (s.vbr + 4 * v.setWidth 32)) else s.psr.af

/-- `VectorJump(v)` (R128) has been made: the pc holds the vector's word with bit 0 clear, the fetch tags and boundary
marks are dropped, no low-power state is left; vector 8 leaves its mark (U3). -/
structure Vectored (s t : State) (v : BitVec 7) : Prop where
  pc : t.pc = s.wordAt .supervisor (s.vbr + 4 * v.setWidth 32) &&& 0xFFFFFFFE
  fetchErr : t.fetchErr = []
  fetchBrk : t.fetchBrk = []
  dataBrk : t.dataBrk = false
  traceDue : t.traceDue = false
  awake : t.lowPower = none
  unrecoverable : t.unrecoverable = (s.unrecoverable || v == 8)

/-- A normal-kind entry has been made from `s` (R126, R148, D7): the vector is 8 if EE was 0. -/
structure EnteredNormal (s t : State) (v : BitVec 7) (ret : Word) (tp : Bool) : Prop where
  epc : t.epc = ret
  epsr : t.epsr = { s.psr with tp := tp }
  psr : t.psr =
    { s.psr with
      s := true, tm := .off, tp := false, ee := false, ie := false, af := s.bankAfter (if s.psr.ee then v else 8) }
  fpc : t.fpc = s.fpc
  fpsr : t.fpsr = s.fpsr
  vector : Vectored s t (if s.psr.ee then v else 8)
  frame : EntryFrame s t

/-- A fast-interrupt entry has been made from `s` (R127, D8); EE ends clear, or as it was, by FINT_ENTRY_CLEARS_EE. -/
structure EnteredFast (s t : State) (v : BitVec 7) (ret : Word) (tp : Bool) : Prop where
  fpc : t.fpc = ret
  fpsr : t.fpsr = { s.psr with tp := tp }
  psr : ∃ ee, (ee = false ∨ ee = s.psr.ee) ∧
    t.psr = { s.psr with s := true, tm := .off, tp := false, fe := false, ie := false, ee := ee, af := s.bankAfter v }
  epc : t.epc = s.epc
  epsr : t.epsr = s.epsr
  vector : Vectored s t v
  frame : EntryFrame s t

/-- What the two kinds of entry have in common (R126 to R128). -/
structure Entered (s t : State) : Prop where
  supervisor : t.psr.s = true
  untraced : t.psr.tm = .off
  tpClear : t.psr.tp = false
  intMasked : t.psr.ie = false
  pcEven : isOdd t.pc = false
  fetchErr : t.fetchErr = []
  fetchBrk : t.fetchBrk = []
  noBrk : t.dataBrk = false
  noTrace : t.traceDue = false
  awake : t.lowPower = none
  draws : t.draws = s.draws
  frame : EntryFrame s t

/-- How an interrupt sampled as `q` is taken from `u` with return address `ret` (R151 to R153, R157): the fast interrupt
if FE admits it, else the normal one; AVEC selects the autovectors 11 and 10. -/
def InterruptTaken (u : State) (q : Irq) (ret : Word) (tp : Bool) (r : Result) : Prop :=
  (q.fint = true ∧ u.psr.fe = true → r = u.enterFast (if q.avec then 11 else q.vec) ret tp) ∧
    (¬(q.fint = true ∧ u.psr.fe = true) → r = u.enterNormal (if q.avec then 10 else q.vec) ret tp)

/-- An interrupt sampled as `q` is requested and not masked by `p` (R152, R153). -/
def Unmasked (q : Irq) (p : Psr) : Prop :=
  (q.fint = true ∧ p.fe = true) ∨ (q.int = true ∧ p.ie = true ∧ p.ee = true)

/-- An interrupt is recognised inside an interruptible instruction, after `k` of its data accesses (R150, D20). -/
def State.cutBy (s : State) (k : Nat) : Prop :=
  s.psr.ic = true ∧ s.env.midAt = some k ∧ Unmasked s.env.mid s.psr

/-! ### When an instruction is undisturbed -/

/-- None of the first `n` data accesses of this step is ended by TEA# or the external MMU, and no interrupt cuts the
instruction short at or before the last of them (R45, R150). -/
def State.undisturbed (s : State) (n : Nat) : Prop :=
  (∀ k < n, s.env.teaAt k = false) ∧ ∀ k, s.cutBy k → n < k

/-- No interrupt cuts the instruction short (R150). -/
def State.uncut (s : State) : Prop := s.cutAt = none

/-- A vector word can be fetched from `a`, and it is even or `VECTOR_BIT0` admits a set bit 0 (R128, D6, D25). -/
def State.vectorWordOk (s : State) (a : Word) : Prop :=
  s.env.vecTea = false ∧ (isOdd (s.wordAt .supervisor a) = false ∨ s.plat.vectorBit0 = .bank)

/-- The vector word of `v` can be taken. -/
def State.vectorOk (s : State) (v : BitVec 7) : Prop := s.vectorWordOk (vecAddr s.vbr v)

/-- The bytes at the pc, `ILEN` of them, are the instruction `d` (R60): by R65's table, or by the decoder parameter. -/
def State.decodes (s : State) (d : Decoded) : Prop :=
  (s.plat.encoding = .table ∧
    ∃ rest, decode s.plat.bigEndian [s.byteAt s.mode s.pc 0, s.byteAt s.mode s.pc 1] = .ok (d, rest)) ∨
  ∃ units, s.plat.encoding = .other units ∧
    Config.otherDecode ((List.range (2 * (units + 1))).map (s.byteAt s.mode s.pc)) = some d

/-- Stages 1 to 4 of R158 let the instruction at the pc be decoded: no reset, no event at the boundary before, not in a
low-power state, no fetch error, an even pc, no store to the instruction. -/
structure State.fetches (s : State) : Prop where
  reset : s.env.reset = false
  srst : s.env.srst = false
  srstSeen : s.srstSeen = false
  boundary : s.latch.boundaryBefore = none
  awake : s.lowPower = none
  fetchErr : s.pc ∉ s.latch.fetchErr
  even : isOdd s.pc = false
  unmodified : s.modified = false

/-- A state in which stages 1 and 2 of R158 pass. -/
structure State.noReset (s : State) : Prop where
  reset : s.env.reset = false
  srst : s.env.srst = false
  srstSeen : s.srstSeen = false

end Sys2Proof.Machine
end

