-- ==== Sys2Proof/WellFormed.lean ====
section
/-! DEFINITION. Which terms of `Instr` are instructions of the machine. Every register number, displacement and
control-register number of the encodings is admitted by its type (R65), `trap #n` has n in 0 to 7 (D17); what is left to
check is that a `hai` opcode is a word that the table gives to no other instruction and that the decoder parameter
gives to `hai` (R60, R109). -/

namespace Sys2Proof

/-- No row of R65's table claims the word. -/
def outsideTable (w : Half) : Bool := (lookup w).isNone

/-- The check of an instruction's fields. -/
def Instr.wellFormed : Instr → Bool
  | .hai op => outsideTable op && Config.otherWord op == .hai
  | .ldW _ _ _ | .stW _ _ _ | .ldB _ _ _ | .stB _ _ _ | .ldH _ _ _ | .stH _ _ _
  | .ldm _ | .ldq _ | .stm _ | .stq _ | .jmp _ | .jsr _
  | .jmpi _ | .jsri _ | .br _ | .bt _ | .bf _ | .bsr _
  | .loopt _ _ | .divs _ | .divu _ | .mult _ _ | .mfcr _ _ | .mtcr _ _
  | .rte | .rfi | .stop | .wait | .doze | .trap _
  | .bkpt => true

end Sys2Proof
end

