-- ==== Sys2Proof/Certificates/Slice0/Obligations.lean ====
section
/-! DEFINITION. The statements for the provers. Where a statement rests on a decision of 92_eei_decisions.md or on a
general-knowledge line (GK), its docstring says so; free values stand in no conclusion. -/

open Sys2Proof Sys2Proof.Machine

/-! ### Encoding -/

/-- Decoding the two bytes of an encoded well-formed instruction gives it back, in either byte order (R65 is GK). -/
def Obligations.DecodeEncodeAgree : Prop :=
  ∀ (be : Bool) (i : Instr) (w : Half) (rest : List Byte),
    i.wellFormed = true → encode i = some w → decode be (bytesOfHalf be w ++ rest) = .ok (.named i, rest)

/-- Every word the table claims is the encoding of the instruction it reads, and no two rows claim one word (R65 is GK). -/
def Obligations.TableWordsReadBack : Prop :=
  (∀ (w : Half) (i : Instr), lookup w = some i → encode i = some w) ∧
    table.Pairwise fun r r' => ∀ w, ¬(r.hits w = true ∧ r'.hits w = true)

/-- Words of the spec's own programs P1 to P6 and of R84's example decode to the instructions named there. -/
def Obligations.SampleWordsDecode : Prop :=
  decodeWord 0x000A = .ok (.named (.trap 2)) ∧ decodeWord 0x0002 = .ok (.named .rte) ∧
    decodeWord 0x8203 = .ok (.named (.ldW 2 3 0)) ∧ decodeWord 0xF7FF = .ok (.named (.br 0x7FF)) ∧
    decodeWord 0x2C12 = .ok (.named (.divu 2)) ∧ decodeWord 0x1001 = .ok (.named (.mfcr 1 0))

/-! ### The step -/

/-- A step whose fetch is not pre-empted runs the decoded instruction and then stage 8 of R158, which does nothing when no
data breakpoint and no trace is due, whatever is asserted (the decoder is R65's table, GK, or the parameter: log 1). An
instruction whose access width the platform lacks is unimplemented: vector 4, EPC = pc (R63; log 12). -/
def Obligations.StepRunsDecodedInstruction : Prop :=
  (∀ i s, execute (.named i) s = exec i s) ∧ (∀ s, execute .other s = execOther s) ∧
    ∀ (s : State) (d : Decoded), s.fetches → s.decodes d →
      (s.plat.implements d = true →
        step s = Result.close (Result.bind (execute d s.latch) State.boundaryAfter) ∧
        ∀ t, execute d s.latch = .next t → t.dataBrk = false → t.traceDue = false → step s = .next t.advance) ∧
      (s.plat.implements d = false → step s = Result.close (s.latch.enterNormal 4 s.pc false))

/-- A word outside the table goes by the decoder parameter, whatever it is: an illegal one raises IllegalInstruction with
EPC = pc, one that is R62's catch-all `other` runs as that, one of which the decoder knows nothing is refused (R63, R136,
U6; log 2). Under another encoding every instruction goes by that encoding's decoder parameter, whatever it is (R60; log
1), and none is refused. `other` completes in sequence in every state, with nothing but the general registers and the
condition bit open (R62, U20; log 44). -/
def Obligations.StepOnWordsOutsideTable : Prop :=
  (∀ s : State, ∃ t c, execOther s = .next t ∧ t.pc = s.pc + s.ilen ∧ t.traceDue = isOtherTraceDue s.psr.tm ∧
    t.fetchErr = s.fetchErr ∧ t.fetchBrk = s.fetchBrk ∧ t.psr = { s.psr with c := c } ∧ SameMemory s t ∧
    SameSpecial s t ∧ SameHidden s t ∧ t.lowPower = s.lowPower ∧ t.dataBrk = s.dataBrk) ∧
  ∀ (s : State), s.fetches →
    (∀ units, s.plat.encoding = .other units →
      step s = match Config.otherDecode ((List.range (2 * (units + 1))).map (s.byteAt s.mode s.pc)) with
      | some d =>
        if s.plat.implements d then Result.close (Result.bind (execute d s.latch) State.boundaryAfter)
        else Result.close (s.latch.enterNormal 4 s.pc false)
      | none => Result.close (s.latch.enterNormal 4 s.pc false)) ∧
    (s.plat.encoding = .table → lookup (s.halfAt s.mode s.pc) = none →
      step s = match Config.otherWord (s.halfAt s.mode s.pc) with
      | .hai => Result.close (Result.bind (exec (.hai (s.halfAt s.mode s.pc)) s.latch) State.boundaryAfter)
      | .trapHigh k => Result.close (s.latch.enterNormal (20 + k.setWidth 7) s.pc false)
      | .illegal => Result.close (s.latch.enterNormal 4 s.pc false)
      | .other => Result.close (Result.bind (execOther s.latch) State.boundaryAfter)
      | .unlisted => .refused .unlistedWord)

/-- BRKRQ# on the fetch of an instruction: vector 7 before it executes and before any interrupt (R146); it ends a low-power
state too (D28, log 20). A bus error on its fetch: vector 2 when it is reached (R133). EPC = its address in both. -/
def Obligations.FetchTagsRaisedWhenReached : Prop :=
  ∀ (s : State), s.noReset →
    (s.pc ∈ s.env.fetchBrk ∨ s.pc ∈ s.fetchBrk → step s = Result.close (s.latch.enterNormal 7 s.pc false)) ∧
    (s.latch.boundaryBefore = none → s.lowPower = none →
      s.pc ∈ s.env.fetchTea ∨ s.pc ∈ s.env.fetchMmu ∨ s.pc ∈ s.fetchErr →
      step s = Result.close (s.latch.enterNormal 2 s.pc false))

/-- The interrupts at the boundary before an instruction: taken when requested and not masked, fast before normal, by
autovector or the number supplied, and not otherwise (R151 to R153); an unmasked request ends a low-power state too (D28,
log 20). -/
def Obligations.BoundaryInterruptTaken : Prop :=
  ∀ (s : State), s.noReset → s.pc ∉ s.env.fetchBrk → s.pc ∉ s.fetchBrk →
    (Unmasked s.env.pre s.psr →
      ∃ r, InterruptTaken s.latch s.env.pre s.pc false r ∧ step s = Result.close r) ∧
    (¬ Unmasked s.env.pre s.psr → s.latch.boundaryBefore = none)

/-- An instruction whose bytes a store has written since the last reset is refused (R53, D22). -/
def Obligations.ModifiedCodeRefused : Prop :=
  ∀ (s : State), s.noReset → s.latch.boundaryBefore = none → s.lowPower = none → s.pc ∉ s.latch.fetchErr →
    isOdd s.pc = false → (∃ k < s.plat.unitBytes, s.key s.mode (s.pc + BitVec.ofNat 32 k) ∈ s.stored) →
    step s = .refused .selfModified

/-- In a low-power state with no event at the boundary no instruction executes (D28, log 20: the LowPower reading); the step
adds its own fetch tags all the same (log 28) and goes on to the next step's inputs. -/
def Obligations.LowPowerIdles : Prop :=
  ∀ (s : State), s.noReset → s.latch.boundaryBefore = none → s.lowPower.isSome = true →
    step s = .next s.latch.advance

/-- The trace after a traced instruction that completed: vector 6, EPC = the next instruction (R141; D11 for TM). -/
def Obligations.TraceTakenAfterInstruction : Prop :=
  ∀ (s : State) (d : Decoded) (t : State), s.fetches → s.decodes d → s.plat.implements d = true →
    execute d s.latch = .next t → t.traceDue = true → t.dataBrk = false → t.pc ∉ t.fetchBrk →
    ¬ Unmasked t.env.post t.psr → step s = Result.close (t.enterNormal 6 t.pc false)

/-- An interrupt pending when a traced instruction completes is taken first, and TP is set in the shadow PSR it writes
(R143; D13 for which). -/
def Obligations.TraceDeferredBehindInterrupt : Prop :=
  ∀ (s : State) (d : Decoded) (t : State), s.fetches → s.decodes d → s.plat.implements d = true →
    execute d s.latch = .next t → t.traceDue = true → t.dataBrk = false → t.pc ∉ t.fetchBrk →
    Unmasked t.env.post t.psr → ∃ r, InterruptTaken t t.env.post t.pc true r ∧ step s = Result.close r

/-- BRKRQ# with a data access: vector 7 after the instruction, before any interrupt, EPC = the next instruction; a due
trace is deferred with TP (R147; D24). So it is when a trace is due and the next instruction was fetched with BRKRQ#
(log 29). -/
def Obligations.DataBreakpointAfterInstruction : Prop :=
  ∀ (s : State) (d : Decoded) (t : State), s.fetches → s.decodes d → s.plat.implements d = true →
    execute d s.latch = .next t → t.dataBrk = true ∨ (t.traceDue = true ∧ t.pc ∈ t.fetchBrk) →
    step s = Result.close (t.enterNormal 7 t.pc t.traceDue)

/-! ### Resets -/

/-- Hardware reset, whatever else is requested: the values of R31, the pc from address 0 (R129, R42), bit 0 of the word by
`VECTOR_BIT0` (D6, log 24). -/
def Obligations.HardwareResetEffect : Prop :=
  ∀ (s : State), s.env.reset = true → s.vectorWordOk 0 →
    ∃ t, step s = .next t ∧ t.pc = s.wordAt .supervisor 0 &&& 0xFFFFFFFE ∧
      (isOdd (s.wordAt .supervisor 0) = false → t.pc = s.wordAt .supervisor 0) ∧
      (s.plat.vectorBit0 = .bank → t.psr.af = isOdd (s.wordAt .supervisor 0)) ∧
      t.vbr = 0 ∧ t.psr.s = true ∧ t.psr.tm = .off ∧ t.psr.ie = false ∧ t.psr.fe = false ∧ t.psr.db = false ∧
      t.psr.u = 0 ∧ t.fetchErr = [] ∧ t.fetchBrk = [] ∧ t.dataBrk = false ∧ t.traceDue = false ∧ t.srstSeen = false

/-- While SRST is asserted no instruction executes; software reset begins when it is negated: the values of R31, the pc
from absolute address 0x24 (R149, R42; D31). -/
def Obligations.SoftwareResetEffect : Prop :=
  ∀ (s : State), s.env.reset = false →
    (s.env.srst = true →
      ∃ t, step s = .next t ∧ t.srstSeen = true ∧ t.pc = s.pc ∧ t.psr = s.psr ∧ t.regs = s.regs ∧
        t.altRegs = s.altRegs ∧ t.mem = s.mem ∧ SameSpecial s t) ∧
    (s.env.srst = false → s.srstSeen = true → s.vectorWordOk 0x24 →
      ∃ t, step s = .next t ∧ t.pc = s.wordAt .supervisor 0x24 &&& 0xFFFFFFFE ∧
        (isOdd (s.wordAt .supervisor 0x24) = false → t.pc = s.wordAt .supervisor 0x24) ∧
        (s.plat.vectorBit0 = .bank → t.psr.af = isOdd (s.wordAt .supervisor 0x24)) ∧
        t.vbr = 0 ∧ t.psr.s = true ∧ t.psr.tm = .off ∧ t.psr.ie = false ∧ t.psr.fe = false ∧ t.psr.ee = false ∧
        t.fetchErr = [] ∧ t.fetchBrk = [] ∧ t.dataBrk = false ∧ t.traceDue = false ∧ t.srstSeen = false)

/-- The state after reset has the values R31 states, and its pc is the word at address 0. -/
def Obligations.ResetStateValues : Prop :=
  State.reset.pc = State.reset.wordAt .supervisor 0 ∧ State.reset.vbr = 0 ∧ State.reset.psr.s = true ∧
    State.reset.psr.tm = .off ∧ State.reset.psr.ie = false ∧ State.reset.psr.fe = false ∧
    State.reset.psr.db = false ∧ State.reset.psr.u = 0 ∧ State.reset.fetchErr = [] ∧ State.reset.fetchBrk = [] ∧
    State.reset.dataBrk = false ∧ State.reset.traceDue = false ∧ State.reset.srstSeen = false

/-! ### Exception entry -/

/-- The vector offsets of the section headings: 4 times the vector numbers of R122 (trap: D17). -/
def Obligations.VectorOffsetsMatchTable : Prop :=
  (∀ vbr, vecAddr vbr Exc.misaligned.vector = vbr + 0x04 ∧ vecAddr vbr Exc.accessError.vector = vbr + 0x08 ∧
    vecAddr vbr Exc.divideByZero.vector = vbr + 0x0C ∧ vecAddr vbr Exc.illegalInstruction.vector = vbr + 0x10 ∧
    vecAddr vbr Exc.privilegeViolation.vector = vbr + 0x14 ∧ vecAddr vbr Exc.trace.vector = vbr + 0x18 ∧
    vecAddr vbr Exc.breakpoint.vector = vbr + 0x1C ∧ vecAddr vbr Exc.hardwareAccelerator.vector = vbr + 0x30) ∧
    ∀ vbr n, vecAddr vbr (Exc.trap n).vector = vbr + 0x40 + 4 * n.setWidth 32

/-- A normal-kind entry whose vector word can be taken (R126, R128, R148; the PSR changes are D7, bit 0 of the word D6). -/
def Obligations.NormalEntryEffect : Prop :=
  ∀ (s : State) (v : BitVec 7) (ret : Word) (tp : Bool), s.vectorOk (if s.psr.ee then v else 8) →
    ∃ t, s.enterNormal v ret tp = .next t ∧ EnteredNormal s t v ret tp

/-- A fast-interrupt entry whose vector word can be taken, for both values of FINT_ENTRY_CLEARS_EE (R127; D8). -/
def Obligations.FastEntryEffect : Prop :=
  ∀ (s : State) (v : BitVec 7) (ret : Word) (tp : Bool), s.vectorOk v →
    ∃ t, s.enterFast v ret tp = .next t ∧ EnteredFast s t v ret tp

/-- TEA# on the vector fetch stops the machine (D25); where `VECTOR_BIT0` is the default an odd vector word is refused (D6).
For both kinds of entry. -/
def Obligations.EntryStopsWithoutVector : Prop :=
  ∀ (s : State) (v : BitVec 7) (ret : Word) (tp : Bool),
    (s.env.vecTea = true →
      s.enterNormal v ret tp = .fault .vectorBusError ∧ s.enterFast v ret tp = .fault .vectorBusError) ∧
    (s.env.vecTea = false → s.plat.vectorBit0 = .refuse →
      isOdd (s.wordAt .supervisor (vecAddr s.vbr (if s.psr.ee then v else 8))) = true →
      s.enterNormal v ret tp = .refused .oddVector) ∧
    (s.env.vecTea = false → s.plat.vectorBit0 = .refuse → isOdd (s.wordAt .supervisor (vecAddr s.vbr v)) = true →
      s.enterFast v ret tp = .refused .oddVector)

/-- At a recognition point: FINT is taken iff FE = 1, EE not consulted, and comes first; INT is taken iff IE = EE = 1; the
vector number is 11 or 10 with AVEC, else the 7-bit number supplied, none of 0 to 127 excluded. -/
def Obligations.InterruptRecognition : Prop :=
  ∀ (s : State) (q : Irq) (ret : Word) (tp : Bool),
    (q.fint = true ∧ s.psr.fe = true →
      s.interrupt q ret tp = some (s.enterFast (if q.avec then 11 else q.vec) ret tp)) ∧
    (¬(q.fint = true ∧ s.psr.fe = true) → q.int = true ∧ s.psr.ie = true ∧ s.psr.ee = true →
      s.interrupt q ret tp = some (s.enterNormal (if q.avec then 10 else q.vec) ret tp)) ∧
    (¬(q.fint = true ∧ s.psr.fe = true) → ¬(q.int = true ∧ s.psr.ie = true ∧ s.psr.ee = true) →
      s.interrupt q ret tp = none)

/-- With EE = 0 every exception of the core's own goes to vector 8, offset 0x20, and overwrites EPC and EPSR (R148; D14
for what is saved). -/
def Obligations.UnrecoverableErrorReplaces : Prop :=
  ∀ (s : State) (x : Exc) (ret : Word), s.psr.ee = false → s.vectorWordOk (s.vbr + 0x20) →
    ∃ t, s.raise x ret = .next t ∧ t.pc = s.wordAt .supervisor (s.vbr + 0x20) &&& 0xFFFFFFFE ∧ t.epc = ret ∧
      t.epsr = { s.psr with tp := false } ∧ t.fpc = s.fpc ∧ t.fpsr = s.fpsr ∧ t.unrecoverable = true

/-! ### Loads and stores -/

/-- `ld.w`, `ld.h`, `ld.b`: aligned, or masked by MM and then from the next lower boundary (R43); narrow values are
zero-extended (GK). -/
def Obligations.LoadsComplete : Prop :=
  ∀ (s : State) (rz rx : Reg) (d : BitVec 4), s.env.teaAt 0 = false →
    (∀ ea, ea = s.reg rx + d.setWidth 32 * 4 → ea % 4 = 0 ∨ s.psr.mm = true →
      ∃ t, exec (.ldW rz rx d) s = .next t ∧ InSequence s t (.ldW rz rx d) ∧ RegsOnly s t [rz] ∧
        t.reg rz = s.wordAt s.mode (ea - ea % 4) ∧ t.dataBrk = (s.dataBrk || s.env.dataBrk)) ∧
    (∀ ea, ea = s.reg rx + d.setWidth 32 * 2 → ea % 2 = 0 ∨ s.psr.mm = true →
      ∃ t, exec (.ldH rz rx d) s = .next t ∧ InSequence s t (.ldH rz rx d) ∧ RegsOnly s t [rz] ∧
        t.reg rz = (s.halfAt s.mode (ea - ea % 2)).setWidth 32 ∧ t.dataBrk = (s.dataBrk || s.env.dataBrk)) ∧
    (∀ ea, ea = s.reg rx + d.setWidth 32 →
      ∃ t, exec (.ldB rz rx d) s = .next t ∧ InSequence s t (.ldB rz rx d) ∧ RegsOnly s t [rz] ∧
        t.reg rz = (s.byteAt s.mode ea 0).setWidth 32 ∧ t.dataBrk = (s.dataBrk || s.env.dataBrk))

/-- `st.w`, `st.h`, `st.b`: the bytes stored, at the address truncated under MM (R43), and nothing else (GK forms). -/
def Obligations.StoresComplete : Prop :=
  ∀ (s : State) (rz rx : Reg) (d : BitVec 4), Memory.wf s.mem = true → s.env.teaAt 0 = false →
    (∀ ea, ea = s.reg rx + d.setWidth 32 * 4 → ea % 4 = 0 ∨ s.psr.mm = true →
      ∃ t, exec (.stW rz rx d) s = .next t ∧ InSequence s t (.stW rz rx d) ∧ StoresOnly s t (ea - ea % 4) 4 ∧
        t.wordAt s.mode (ea - ea % 4) = s.reg rz ∧ t.dataBrk = (s.dataBrk || s.env.dataBrk)) ∧
    (∀ ea, ea = s.reg rx + d.setWidth 32 * 2 → ea % 2 = 0 ∨ s.psr.mm = true →
      ∃ t, exec (.stH rz rx d) s = .next t ∧ InSequence s t (.stH rz rx d) ∧ StoresOnly s t (ea - ea % 2) 2 ∧
        t.halfAt s.mode (ea - ea % 2) = (s.reg rz).setWidth 16 ∧ t.dataBrk = (s.dataBrk || s.env.dataBrk)) ∧
    (∀ ea, ea = s.reg rx + d.setWidth 32 →
      ∃ t, exec (.stB rz rx d) s = .next t ∧ InSequence s t (.stB rz rx d) ∧ StoresOnly s t ea 1 ∧
        t.byteAt s.mode ea 0 = (s.reg rz).setWidth 8 ∧ t.dataBrk = (s.dataBrk || s.env.dataBrk))

/-- A misaligned operand with MM = 0: vector 1, EPC = this instruction, before any access and whatever the bus would
answer; nothing is written. Every load and store with a width above one byte (the transfers of the multi-register forms
are words, GK). -/
def Obligations.MisalignedOperandRaises : Prop :=
  ∀ (s : State), s.psr.mm = false →
    (∀ rz rx (d : BitVec 4), (s.reg rx + d.setWidth 32 * 4) % 4 ≠ 0 →
      exec (.ldW rz rx d) s = s.enterNormal 1 s.pc false ∧ exec (.stW rz rx d) s = s.enterNormal 1 s.pc false) ∧
    (∀ rz rx (d : BitVec 4), (s.reg rx + d.setWidth 32 * 2) % 2 ≠ 0 →
      exec (.ldH rz rx d) s = s.enterNormal 1 s.pc false ∧ exec (.stH rz rx d) s = s.enterNormal 1 s.pc false) ∧
    (∀ rf, s.reg 0 % 4 ≠ 0 →
      exec (.ldm rf) s = s.enterNormal 1 s.pc false ∧ exec (.stm rf) s = s.enterNormal 1 s.pc false) ∧
    (∀ rx, s.reg rx % 4 ≠ 0 →
      exec (.ldq rx) s = s.enterNormal 1 s.pc false ∧ exec (.stq rx) s = s.enterNormal 1 s.pc false)

/-- A load, or the literal read of `jmpi` or `jsri`, whose bus cycle TEA# (or the external MMU) ends: vector 2, EPC = this
instruction, a load's destination unchanged, `jsri`'s r15 old or new (R132, R82, R83; D27). -/
def Obligations.ReadBusErrorRaises : Prop :=
  ∀ (s : State), s.env.teaAt 0 = true →
    (∀ rz rx (d : BitVec 4), (s.reg rx + d.setWidth 32 * 4) % 4 = 0 ∨ s.psr.mm = true →
      exec (.ldW rz rx d) s = s.enterNormal 2 s.pc false) ∧
    (∀ rz rx (d : BitVec 4), (s.reg rx + d.setWidth 32 * 2) % 2 = 0 ∨ s.psr.mm = true →
      exec (.ldH rz rx d) s = s.enterNormal 2 s.pc false) ∧
    (∀ rz rx d, exec (.ldB rz rx d) s = s.enterNormal 2 s.pc false) ∧
    (∀ d, exec (.jmpi d) s = s.enterNormal 2 s.pc false) ∧
    ∀ d, ∃ u, exec (.jsri d) s = u.enterNormal 2 s.pc false ∧ RegsOnly s u [15] ∧
      (u.reg 15 = s.reg 15 ∨ u.reg 15 = s.pc + 2)

/-- A store whose bus cycle is ended: vector 2, EPC = this instruction; nothing but the bytes of the operand has changed,
each of them a draw: old or new where the platform has R45's draw, any value where it has U13's (R132; D27, log 15). -/
def Obligations.StoreBusErrorRaises : Prop :=
  ∀ (s : State) (rz rx : Reg) (d : BitVec 4), Memory.wf s.mem = true → s.env.teaAt 0 = true →
    (∀ ea, ea = s.reg rx + d.setWidth 32 * 4 → ea % 4 = 0 ∨ s.psr.mm = true →
      ∃ u, exec (.stW rz rx d) s = u.enterNormal 2 s.pc false ∧ StoresOnly s u (ea - ea % 4) 4 ∧
        (s.plat.teaWriteAny = false → OldOrNew s u (ea - ea % 4) 4 (s.reg rz))) ∧
    (∀ ea, ea = s.reg rx + d.setWidth 32 * 2 → ea % 2 = 0 ∨ s.psr.mm = true →
      ∃ u, exec (.stH rz rx d) s = u.enterNormal 2 s.pc false ∧ StoresOnly s u (ea - ea % 2) 2 ∧
        (s.plat.teaWriteAny = false → OldOrNew s u (ea - ea % 2) 2 (s.reg rz))) ∧
    (∀ ea, ea = s.reg rx + d.setWidth 32 →
      ∃ u, exec (.stB rz rx d) s = u.enterNormal 2 s.pc false ∧ StoresOnly s u ea 1 ∧
        (s.plat.teaWriteAny = false → OldOrNew s u ea 1 (s.reg rz)))

/-- `ldm` and `ldq` that nothing disturbs within their transfers: consecutive words into the listed registers (GK lists).
Where `ldm` lists its own base r0, r0 ends with its old value or the loaded word (log 13). -/
def Obligations.LoadMultiplesComplete : Prop :=
  ∀ (s : State) (a : Word),
    (∀ rx, s.undisturbed 4 → a = s.reg rx - s.reg rx % 4 → s.reg rx % 4 = 0 ∨ s.psr.mm = true →
      ∃ t, exec (.ldq rx) s = .next t ∧ InSequence s t (.ldq rx) ∧ RegsOnly s t [4, 5, 6, 7] ∧
        (∀ k : BitVec 4, k < 4 → t.reg (4 + k) = s.wordAt s.mode (a + 4 * k.setWidth 32)) ∧
        t.dataBrk = (s.dataBrk || s.env.dataBrk)) ∧
    (∀ rf : Reg, s.undisturbed (16 - rf.toNat) → a = s.reg 0 - s.reg 0 % 4 → s.reg 0 % 4 = 0 ∨ s.psr.mm = true →
      ∃ t rs, exec (.ldm rf) s = .next t ∧ InSequence s t (.ldm rf) ∧ RegsOnly s t rs ∧ (∀ r, r ∈ rs ↔ rf ≤ r) ∧
        (∀ r, rf ≤ r → r ≠ 0 → t.reg r = s.wordAt s.mode (a + 4 * (r - rf).setWidth 32)) ∧
        (rf = 0 → t.reg 0 = s.reg 0 ∨ t.reg 0 = s.wordAt s.mode a) ∧
        t.dataBrk = (s.dataBrk || s.env.dataBrk))

/-- `stm` and `stq` that nothing disturbs within their transfers: the listed registers to consecutive words, and nothing
else (GK lists). -/
def Obligations.StoreMultiplesComplete : Prop :=
  ∀ (s : State) (a : Word), Memory.wf s.mem = true →
    (∀ rx, s.undisturbed 4 → a = s.reg rx - s.reg rx % 4 → s.reg rx % 4 = 0 ∨ s.psr.mm = true →
      ∃ t, exec (.stq rx) s = .next t ∧ InSequence s t (.stq rx) ∧ StoresOnly s t a 16 ∧
        (∀ k : BitVec 4, k < 4 → t.wordAt s.mode (a + 4 * k.setWidth 32) = s.reg (4 + k)) ∧
        t.dataBrk = (s.dataBrk || s.env.dataBrk)) ∧
    (∀ rf : Reg, s.undisturbed (16 - rf.toNat) → a = s.reg 0 - s.reg 0 % 4 → s.reg 0 % 4 = 0 ∨ s.psr.mm = true →
      ∃ t, exec (.stm rf) s = .next t ∧ InSequence s t (.stm rf) ∧ StoresOnly s t a (4 * (16 - rf.toNat)) ∧
        (∀ r, rf ≤ r → t.wordAt s.mode (a + 4 * (r - rf).setWidth 32) = s.reg r) ∧
        t.dataBrk = (s.dataBrk || s.env.dataBrk))

/-- An interrupt inside a multi-register instruction, after `k` transfers: EPC or FPC = this instruction, no trace; each
listed register old or new with the base kept, or the first `k` words stored and nothing beyond them changed (R150;
D20). -/
def Obligations.MultipleCutShort : Prop :=
  ∀ (s : State) (k : Nat), Memory.wf s.mem = true → s.cutBy k → (∀ j < k, s.env.teaAt j = false) →
    (∀ rx a, k ≤ 4 → a = s.reg rx - s.reg rx % 4 → s.reg rx % 4 = 0 ∨ s.psr.mm = true →
      (∃ u, InterruptTaken u s.env.mid s.pc false (exec (.ldq rx) s) ∧ RegsOnly s u [4, 5, 6, 7] ∧
        u.reg rx = s.reg rx ∧ ∀ j : BitVec 4, j < 4 → u.reg (4 + j) = s.reg (4 + j) ∨
          u.reg (4 + j) = s.wordAt s.mode (a + 4 * j.setWidth 32)) ∧
      ∃ u, InterruptTaken u s.env.mid s.pc false (exec (.stq rx) s) ∧ StoresOnly s u a (4 * k) ∧
        ∀ j : BitVec 4, j < 4 → j.toNat < k → u.wordAt s.mode (a + 4 * j.setWidth 32) = s.reg (4 + j)) ∧
    (∀ (rf : Reg) a, k ≤ 16 - rf.toNat → a = s.reg 0 - s.reg 0 % 4 → s.reg 0 % 4 = 0 ∨ s.psr.mm = true →
      (∃ u rs, InterruptTaken u s.env.mid s.pc false (exec (.ldm rf) s) ∧ RegsOnly s u rs ∧
        u.reg 0 = s.reg 0 ∧ (∀ r, r ∈ rs ↔ rf ≤ r) ∧ ∀ r, rf ≤ r → u.reg r = s.reg r ∨
          u.reg r = s.wordAt s.mode (a + 4 * (r - rf).setWidth 32)) ∧
      ∃ u, InterruptTaken u s.env.mid s.pc false (exec (.stm rf) s) ∧ StoresOnly s u a (4 * k) ∧
        ∀ r, rf ≤ r → (r - rf).toNat < k → u.wordAt s.mode (a + 4 * (r - rf).setWidth 32) = s.reg r)

/-- TEA# on transfer `k` of a multi-register instruction, before any interrupt inside it: vector 2, EPC = this
instruction; each listed register old or new, or the words before `k` stored, the bytes of word `k` a draw (old or new
where the platform has R45's), and nothing beyond it changed (R132, R45, R74; D27, log 15). -/
def Obligations.MultipleBusErrorRaises : Prop :=
  ∀ (s : State) (k : Nat), Memory.wf s.mem = true → s.env.teaAt k = true → (∀ j < k, s.env.teaAt j = false) →
    (∀ c, s.cutAt = some c → k < c) →
    (∀ rx a, k < 4 → a = s.reg rx - s.reg rx % 4 → s.reg rx % 4 = 0 ∨ s.psr.mm = true →
      (∃ u, exec (.ldq rx) s = u.enterNormal 2 s.pc false ∧ RegsOnly s u [4, 5, 6, 7] ∧
        ∀ j : BitVec 4, j < 4 → u.reg (4 + j) = s.reg (4 + j) ∨
          u.reg (4 + j) = s.wordAt s.mode (a + 4 * j.setWidth 32)) ∧
      ∃ u, exec (.stq rx) s = u.enterNormal 2 s.pc false ∧ StoresOnly s u a (4 * (k + 1)) ∧
        (∀ j : BitVec 4, j.toNat < k → u.wordAt s.mode (a + 4 * j.setWidth 32) = s.reg (4 + j)) ∧
        (s.plat.teaWriteAny = false → OldOrNew s u (a + 4 * BitVec.ofNat 32 k) 4 (s.reg (4 + BitVec.ofNat 4 k)))) ∧
    (∀ (rf : Reg) a, k < 16 - rf.toNat → a = s.reg 0 - s.reg 0 % 4 → s.reg 0 % 4 = 0 ∨ s.psr.mm = true →
      (∃ u rs, exec (.ldm rf) s = u.enterNormal 2 s.pc false ∧ RegsOnly s u rs ∧ (∀ r, r ∈ rs ↔ rf ≤ r) ∧
        ∀ r, rf ≤ r → u.reg r = s.reg r ∨ u.reg r = s.wordAt s.mode (a + 4 * (r - rf).setWidth 32)) ∧
      ∃ u, exec (.stm rf) s = u.enterNormal 2 s.pc false ∧ StoresOnly s u a (4 * (k + 1)) ∧
        (∀ r, rf ≤ r → (r - rf).toNat < k → u.wordAt s.mode (a + 4 * (r - rf).setWidth 32) = s.reg r) ∧
        (s.plat.teaWriteAny = false → OldOrNew s u (a + 4 * BitVec.ofNat 32 k) 4 (s.reg (rf + BitVec.ofNat 4 k))))

/-! ### Control transfers -/

/-- `jmp` and `jsr` to an even address: control goes there; `jsr` writes r15 (GK). For `jsr r15` the target is the old
r15 or the new one (log 18). -/
def Obligations.RegisterJumpsComplete : Prop :=
  ∀ (s : State) (rx : Reg), isOdd (s.reg rx) = false →
    (∃ t, exec (.jmp rx) s = .next t ∧ JumpedTo s t (.jmp rx) (s.reg rx) ∧ RegsOnly s t [] ∧
      t.dataBrk = s.dataBrk) ∧
    (rx ≠ 15 → ∃ t, exec (.jsr rx) s = .next t ∧ JumpedTo s t (.jsr rx) (s.reg rx) ∧ RegsOnly s t [15] ∧
      t.reg 15 = s.pc + 2 ∧ t.dataBrk = s.dataBrk) ∧
    (rx = 15 → isOdd s.pc = false → ∃ t a, exec (.jsr rx) s = .next t ∧ (a = s.reg 15 ∨ a = s.pc + 2) ∧
      JumpedTo s t (.jsr rx) a ∧ RegsOnly s t [15] ∧ t.reg 15 = s.pc + 2 ∧ t.dataBrk = s.dataBrk)

/-- `jmp` and `jsr` to an odd address, and `rte` and `rfi` with an odd EPC or FPC, are refused (R80, R81, R102, R103; D16);
`jsr r15` may instead go to the link (log 18). -/
def Obligations.OddAddressesRefused : Prop :=
  ∀ (s : State),
    (∀ rx, isOdd (s.reg rx) = true →
      exec (.jmp rx) s = .refused .oddTarget ∧
      (rx ≠ 15 → exec (.jsr rx) s = .refused .oddTarget) ∧
      (rx = 15 → exec (.jsr rx) s = .refused .oddTarget ∨
        ∃ t, exec (.jsr rx) s = .next t ∧ JumpedTo s t (.jsr rx) (s.pc + 2) ∧ RegsOnly s t [15])) ∧
    (s.psr.s = true → isOdd s.epc = true → exec .rte s = .refused .oddReturn) ∧
    (s.psr.s = true → isOdd s.fpc = true → exec .rfi s = .refused .oddReturn)

/-- `jmpi` and `jsri` with an even literal: control goes to the literal word (GK address of the literal). -/
def Obligations.LiteralJumpsComplete : Prop :=
  ∀ (s : State) (d : BitVec 8) (a : Word), s.env.teaAt 0 = false →
    a = s.wordAt s.mode ((s.pc + 2 + 4 * d.setWidth 32) &&& 0xFFFFFFFC) → isOdd a = false →
    (∃ t, exec (.jmpi d) s = .next t ∧ JumpedTo s t (.jmpi d) a ∧ RegsOnly s t [] ∧
      t.dataBrk = (s.dataBrk || s.env.dataBrk)) ∧
    ∃ t, exec (.jsri d) s = .next t ∧ JumpedTo s t (.jsri d) a ∧ RegsOnly s t [15] ∧ t.reg 15 = s.pc + 2 ∧
      t.dataBrk = (s.dataBrk || s.env.dataBrk)

/-- `jmpi` and `jsri` with an odd literal: vector 1, EPC = the target, whatever MM is (R131; D15); with `jsri` r15 is old
or new (R83; D27). -/
def Obligations.OddLiteralTargetRaises : Prop :=
  ∀ (s : State) (d : BitVec 8) (a : Word), s.env.teaAt 0 = false →
    a = s.wordAt s.mode ((s.pc + 2 + 4 * d.setWidth 32) &&& 0xFFFFFFFC) → isOdd a = true →
    exec (.jmpi d) s = s.enterNormal 1 a false ∧
    ∃ u, exec (.jsri d) s = u.enterNormal 1 a false ∧ RegsOnly s u [15] ∧
      (u.reg 15 = s.reg 15 ∨ u.reg 15 = s.pc + 2)

/-- `br` and `bsr`: pc + 2 + 2d with d signed; `bsr` writes r15 (GK). -/
def Obligations.BranchesComplete : Prop :=
  ∀ (s : State) (d : BitVec 11) (a : Word), a = s.pc + 2 + 2 * d.signExtend 32 →
    (∃ t, exec (.br d) s = .next t ∧ JumpedTo s t (.br d) a ∧ RegsOnly s t [] ∧ t.dataBrk = s.dataBrk) ∧
    ∃ t, exec (.bsr d) s = .next t ∧ JumpedTo s t (.bsr d) a ∧ RegsOnly s t [15] ∧ t.reg 15 = s.pc + 2 ∧
      t.dataBrk = s.dataBrk

/-- `bt` is taken iff C = 1, `bf` iff C = 0 (GK); a trace is due as TM says, taken or not (R139). -/
def Obligations.ConditionalBranchesComplete : Prop :=
  ∀ (s : State) (d : BitVec 11) (a : Word), a = s.pc + 2 + 2 * d.signExtend 32 →
    (∃ t, exec (.bt d) s = .next t ∧ RegsOnly s t [] ∧ t.dataBrk = s.dataBrk ∧
      (s.psr.c = true → JumpedTo s t (.bt d) a) ∧ (s.psr.c = false → InSequence s t (.bt d))) ∧
    ∃ t, exec (.bf d) s = .next t ∧ RegsOnly s t [] ∧ t.dataBrk = s.dataBrk ∧
      (s.psr.c = false → JumpedTo s t (.bf d) a) ∧ (s.psr.c = true → InSequence s t (.bf d))

/-- `loopt` completes for every meaning its parameters may have: it changes at most `ry`, C and the pc, and goes to the
next instruction or a halfword displacement from it (R88; log 17). -/
def Obligations.LooptCompletes : Prop :=
  ∀ (s : State) (ry : Reg) (d : BitVec 4),
    ∃ t c, exec (.loopt ry d) s = .next t ∧
      (InSequence s t (.loopt ry d) ∨ ∃ k, JumpedTo s t (.loopt ry d) (s.pc + 2 + 2 * k)) ∧
      t.psr = { s.psr with c := c } ∧ SameRegsBut s t [ry] ∧ SameSpecial s t ∧ SameHidden s t ∧ SameMemory s t ∧
      t.lowPower = s.lowPower ∧ t.dataBrk = s.dataBrk

/-! ### Arithmetic -/

/-- `divu` by a non-zero r1 that nothing cuts short: the floor of the unsigned quotient (GK). That C is unchanged is the
model's choice (log 41). -/
def Obligations.DivuCompletes : Prop :=
  ∀ (s : State) (rx : Reg), s.reg 1 ≠ 0 → s.uncut →
    ∃ t, exec (.divu rx) s = .next t ∧ InSequence s t (.divu rx) ∧ RegsOnly s t [rx] ∧ t.dataBrk = s.dataBrk ∧
      (t.reg rx).toNat = (s.reg rx).toNat / (s.reg 1).toNat

/-- `divs` by a non-zero r1 that nothing cuts short completes; but for the most negative number by -1, its result is a
quotient within less than one divisor, so an exact quotient is exact, however the hardware rounds (R93, GK; log 16). That
C is unchanged is the model's choice (log 41). -/
def Obligations.DivsCompletes : Prop :=
  ∀ (s : State) (rx : Reg), s.reg 1 ≠ 0 → s.uncut →
    ∃ t, exec (.divs rx) s = .next t ∧ InSequence s t (.divs rx) ∧ RegsOnly s t [rx] ∧ t.dataBrk = s.dataBrk ∧
      (¬((s.reg rx).toInt = -2 ^ 31 ∧ (s.reg 1).toInt = -1) →
        ((t.reg rx).toInt * (s.reg 1).toInt - (s.reg rx).toInt).natAbs < (s.reg 1).toInt.natAbs)

/-- A divide by zero: vector 3, EPC = the divide, no register written, zero dividend or not. -/
def Obligations.DivideByZeroRaises : Prop :=
  ∀ (s : State) (rx : Reg), s.reg 1 = 0 →
    exec (.divs rx) s = s.enterNormal 3 s.pc false ∧ exec (.divu rx) s = s.enterNormal 3 s.pc false

/-- `mult` that nothing cuts short: the low 32 bits of the product (GK). That C is unchanged is the model's choice
(log 41). -/
def Obligations.MultCompletes : Prop :=
  ∀ (s : State) (rx ry : Reg), s.uncut →
    ∃ t, exec (.mult rx ry) s = .next t ∧ InSequence s t (.mult rx ry) ∧ RegsOnly s t [rx] ∧
      t.dataBrk = s.dataBrk ∧ (t.reg rx).toNat = (s.reg rx).toNat * (s.reg ry).toNat % 2 ^ 32

/-- An interrupt inside `divs`, `divu` or `mult`: EPC or FPC = this instruction, no trace, nothing written (R150; D20).
-/
def Obligations.ArithmeticCutShort : Prop :=
  ∀ (s : State) (k : Nat), s.cutBy k →
    (∀ rx ry, InterruptTaken s s.env.mid s.pc false (exec (.mult rx ry) s)) ∧
    (s.reg 1 ≠ 0 → ∀ rx, InterruptTaken s s.env.mid s.pc false (exec (.divs rx) s) ∧
      InterruptTaken s s.env.mid s.pc false (exec (.divu rx) s))

/-! ### Control registers, returns, low power -/

/-- `mfcr` in supervisor mode reads each of the six registers (GK numbers, log 10); a higher number completes too, with a
free value. -/
def Obligations.MfcrReadsControlRegisters : Prop :=
  ∀ (s : State) (rx : Reg) (c : BitVec 5), s.psr.s = true →
    ∃ t, exec (.mfcr rx c) s = .next t ∧ InSequence s t (.mfcr rx c) ∧ RegsOnly s t [rx] ∧ t.dataBrk = s.dataBrk ∧
      (c = 0 → t.reg rx = s.psr.toWord) ∧ (c = 1 → t.reg rx = s.vbr) ∧ (c = 2 → t.reg rx = s.epsr.toWord) ∧
      (c = 3 → t.reg rx = s.fpsr.toWord) ∧ (c = 4 → t.reg rx = s.epc) ∧ (c = 5 → t.reg rx = s.fpc)

/-- `mtcr` in supervisor mode writes the register it names and no other, the PSR with TP kept 0 (GK numbers, log 10,
log 11), VBR with the bits `VBR_ALIGN` leaves it (D5, log 23); the trace decision is by TM before the write (D11). -/
def Obligations.MtcrWritesControlRegisters : Prop :=
  ∀ (s : State) (rx : Reg) (c : BitVec 5), s.psr.s = true →
    ∃ t, exec (.mtcr rx c) s = .next t ∧ InSequence s t (.mtcr rx c) ∧ t.dataBrk = s.dataBrk ∧
      t.regs = s.regs ∧ t.altRegs = s.altRegs ∧ t.mem = s.mem ∧ t.stored = s.stored ∧ t.lowPower = s.lowPower ∧
      SameHidden s t ∧
      t.psr = (if c = 0 then { Psr.ofWord (s.reg rx) with tp := false } else s.psr) ∧
      t.vbr = (if c = 1 then s.reg rx >>> s.plat.vbrAlign <<< s.plat.vbrAlign else s.vbr) ∧
      (c = 1 → s.plat.vbrAlign = 0 → t.vbr = s.reg rx) ∧
      t.epsr = (if c = 2 then Psr.ofWord (s.reg rx) else s.epsr) ∧
      t.fpsr = (if c = 3 then Psr.ofWord (s.reg rx) else s.fpsr) ∧
      t.epc = (if c = 4 then s.reg rx else s.epc) ∧ t.fpc = (if c = 5 then s.reg rx else s.fpc)

/-- The 32-bit view of a PSR loses nothing, under every layout and every encoding of TM (D1, D12; log 8, log 9). -/
def Obligations.PsrViewRoundTrips : Prop :=
  (∀ p : Psr, Psr.ofWord p.toWord = p) ∧ ∀ w : Word, (Psr.ofWord w).toWord = w

/-- A privileged instruction in user mode: vector 5 before it executes, EPC = its address, and the privileged
instructions are exactly the seven. -/
def Obligations.PrivilegeViolationInUserMode : Prop :=
  (∀ i s, s.psr.s = false → isPrivileged i = true → exec i s = s.enterNormal 5 s.pc false) ∧
    ∀ i, isPrivileged i = true ↔ (∃ rx c, i = .mfcr rx c) ∨ (∃ rx c, i = .mtcr rx c) ∨ i = .rfi ∨ i = .rte ∨
      i = .stop ∨ i = .wait ∨ i = .doze

/-- `rte` and `rfi` in supervisor mode, with an even return address and no pending trace: PSR (TP := 0) and pc from the
shadow pair, the other pair and everything else unchanged (R102, R103; D9, D10). -/
def Obligations.ReturnsRestore : Prop :=
  ∀ (s : State), s.psr.s = true →
    (isOdd s.epc = false → s.epsr.tp = false →
      ∃ t, exec .rte s = .next t ∧ JumpedTo s t .rte s.epc ∧ t.psr = s.epsr ∧ SameSpecial s t ∧ SameHidden s t ∧
        t.regs = s.regs ∧ t.altRegs = s.altRegs ∧ SameMemory s t ∧ t.lowPower = s.lowPower ∧
        t.dataBrk = s.dataBrk) ∧
    (isOdd s.fpc = false → s.fpsr.tp = false →
      ∃ t, exec .rfi s = .next t ∧ JumpedTo s t .rfi s.fpc ∧ t.psr = s.fpsr ∧ SameSpecial s t ∧ SameHidden s t ∧
        t.regs = s.regs ∧ t.altRegs = s.altRegs ∧ SameMemory s t ∧ t.lowPower = s.lowPower ∧
        t.dataBrk = s.dataBrk)

/-- A pending trace at a return, whatever TM is: from the restored state, a breakpoint on the fetch of the return address
or an unmasked interrupt first, with the trace deferred again, else the trace, EPC = the return address (R144; D10). -/
def Obligations.ReturnTakesPendingTrace : Prop :=
  ∀ (s : State), s.psr.s = true → ∀ (i : Instr) (p : Psr) (a : Word),
    (i = .rte ∧ p = s.epsr ∧ a = s.epc) ∨ (i = .rfi ∧ p = s.fpsr ∧ a = s.fpc) → isOdd a = false → p.tp = true →
    ∃ u, u.psr = { p with tp := false } ∧ JumpedTo s u i a ∧ SameSpecial s u ∧ SameHidden s u ∧ u.regs = s.regs ∧
      u.altRegs = s.altRegs ∧ u.mem = s.mem ∧ u.stored = s.stored ∧ u.lowPower = s.lowPower ∧ u.dataBrk = s.dataBrk ∧
      (a ∈ s.fetchBrk → exec i s = u.enterNormal 7 a true) ∧
      (a ∉ s.fetchBrk → Unmasked s.env.post p → InterruptTaken u s.env.post a true (exec i s)) ∧
      (a ∉ s.fetchBrk → ¬ Unmasked s.env.post p → exec i s = u.enterNormal 6 a false)

/-- `stop`, `wait`, `doze` in supervisor mode, on a platform that idles in their state, enter it with the pc at the next
instruction, untraced; on one with the spec's default they are refused (R104 to R106; D28, log 20: the LowPower
reading). -/
def Obligations.LowPowerEntered : Prop :=
  ∀ (s : State) (i : Instr) (k : LowPower), s.psr.s = true →
    (i = .stop ∧ k = .stop) ∨ (i = .wait ∧ k = .wait) ∨ (i = .doze ∧ k = .doze) →
    (s.plat.idles k = false → exec i s = .refused .lowPowerOpen) ∧
    (s.plat.idles k = true → ∃ t, exec i s = .next t ∧ t.lowPower = some k ∧ InSequence s t i ∧ t.traceDue = false ∧
      t.psr = s.psr ∧ SameRegsBut s t [] ∧ SameSpecial s t ∧ SameHidden s t ∧ SameMemory s t ∧ t.dataBrk = s.dataBrk)

/-! ### Traps and the accelerator -/

/-- `trap #n`, in either mode, with a vector word that can be taken: vector 16 + n, EPC = the trap (R155; D17, D7). -/
def Obligations.TrapEntersItsVector : Prop :=
  ∀ (s : State) (n : BitVec 3), s.vectorOk (if s.psr.ee then 16 + n.setWidth 7 else 8) →
    ∃ t, exec (.trap n) s = .next t ∧ EnteredNormal s t (16 + n.setWidth 7) s.pc false

/-- `bkpt`, in either mode, with a vector word that can be taken: vector 7, EPC = the `bkpt` (R145; D7). -/
def Obligations.BkptEntersItsVector : Prop :=
  ∀ (s : State), s.vectorOk (if s.psr.ee then 7 else 8) →
    ∃ t, exec .bkpt s = .next t ∧ EnteredNormal s t 7 s.pc false

/-- `hai` with its accelerator disabled, as every one is while U3 to U0 are 0: vector 12, EPC = the `hai`, in either mode
(R109, R154; D19). -/
def Obligations.HaiDisabledRaises : Prop :=
  ∀ (s : State) (op : Half), haiEnabled s.psr op = false ∨ s.psr.u = 0 →
    exec (.hai op) s = s.enterNormal 12 s.pc false

/-- `hai` with its accelerator enabled and no exception reported completes; what the accelerator did to the general
registers, the condition bit and memory is free, and nothing else has changed (R109; log 19). -/
def Obligations.HaiEnabledCompletes : Prop :=
  ∀ (s : State) (op : Half), haiEnabled s.psr op = true → s.env.haFault = false →
    ∃ t c, exec (.hai op) s = .next t ∧ InSequence s t (.hai op) ∧ t.psr = { s.psr with c := c } ∧
      SameSpecial s t ∧ SameHidden s t ∧ t.lowPower = s.lowPower ∧ t.dataBrk = s.dataBrk

/-- `hai` whose accelerator reports an exception: vector 12 (8 with EE = 0), EPC = the `hai` (R109, R154; D19, log 19). -/
def Obligations.HaiReportedEnters : Prop :=
  ∀ (s : State) (op : Half), haiEnabled s.psr op = true → s.env.haFault = true →
    s.vectorOk (if s.psr.ee then 12 else 8) →
    ∃ t, exec (.hai op) s = .next t ∧ t.epc = s.pc ∧
      t.pc = s.wordAt .supervisor (s.vbr + 4 * (if s.psr.ee then 12#7 else 8#7).setWidth 32) &&& 0xFFFFFFFE ∧
      t.psr.s = true ∧ t.psr.ee = false ∧ t.epsr.tp = false ∧ t.vbr = s.vbr ∧ t.fpc = s.fpc ∧ t.fpsr = s.fpsr

/-! ### The whole machine -/

/-- The trace rule: an instruction is traced iff it is not NeverTraced and TM is instr, or TM is flow and it is in FlowTrace,
whatever its outcome; and the two sets are the source's, so that `other`, which is in neither, is traced under TM = instr
alone (R62). -/
def Obligations.TraceSetsMatchSource : Prop :=
  (∀ i, isFlowTrace i = true ↔ (∃ rx, i = .jmp rx) ∨ (∃ rx, i = .jsr rx) ∨ (∃ d, i = .jmpi d) ∨ (∃ d, i = .jsri d) ∨
    (∃ d, i = .br d) ∨ (∃ d, i = .bt d) ∨ (∃ d, i = .bf d) ∨ (∃ d, i = .bsr d) ∨ ∃ ry d, i = .loopt ry d) ∧
  (∀ i, isNeverTraced i = true ↔ i = .rte ∨ i = .rfi ∨ (∃ n, i = .trap n) ∨ i = .stop ∨ i = .wait ∨ i = .doze ∨
    i = .bkpt) ∧
  (∀ i, isFlowTrace i = true → isTraceDue i .flow = true) ∧
  (∀ i tm, isNeverTraced i = true → isTraceDue i tm = false) ∧
  (isOtherTraceDue .off = false ∧ isOtherTraceDue .instr = true ∧ isOtherTraceDue .flow = false) ∧
  ∀ i, isTraceDue i .off = false ∧ (isTraceDue i .instr = true ↔ isNeverTraced i = false) ∧
    (isTraceDue i .flow = true ↔ isNeverTraced i = false ∧ isFlowTrace i = true)

/-- The state after reset meets the invariant. -/
def Obligations.ResetMeetsInvariant : Prop := State.reset.Inv

/-- Every step keeps the invariant, from every state that meets it: the pc even, memory canonical, PSR.TP 0, no
breakpoint or trace left over, VBR with its forced bits zero. -/
def Obligations.StepKeepsInvariant : Prop :=
  ∀ (s t : State), s.Inv → step s = .next t → t.Inv

/-- A step that starts and ends in user mode leaves VBR, the shadow pairs and all of the PSR but the condition bit as
they were: user mode cannot write them (R162; log 19 and log 44 for `hai` and `other`). -/
def Obligations.UserModeKeepsControlState : Prop :=
  ∀ (s t : State), s.psr.s = false → step s = .next t → t.psr.s = false →
    t.psr = { s.psr with c := t.psr.c } ∧ SameSpecial s t

/-- A step from user mode into supervisor mode leaves tracing off and the normal interrupt masked, whatever event it was
(R162; D7, D8). -/
def Obligations.SupervisorEntryIsQuiet : Prop :=
  ∀ (s t : State), s.psr.s = false → step s = .next t → t.psr.s = true →
    t.psr.tm = .off ∧ t.psr.tp = false ∧ t.psr.ie = false

/-- No step changes the platform, and the count of free values taken never goes back (log 3, log 4, log 33). -/
def Obligations.PlatformAndDrawsKept : Prop :=
  ∀ (s t : State), step s = .next t → t.plat = s.plat ∧ s.draws ≤ t.draws
end

