-- ==== Sys2Proof/Laws/Memory.lean ====
section
/-! SUPPORT. Laws of memory as data: what a read after a write gives, and that every write keeps the canonical form. -/

namespace Sys2Proof.Machine

theorem Memory.read_cell (k : Nat) (v : Byte) (m : List Host.Cell) (j : Nat) (h : j ≠ k) :
    Memory.read (Memory.cell k v m) j = Memory.read m j := by
  simp only [Memory.cell]
  split
  · rfl
  · simp [Memory.read, Ne.symm h]

/-- A write leaves every other key alone, canonical form or not. -/
theorem Memory.read_write_other (m : List Host.Cell) (k : Nat) (v : Byte) (j : Nat) (h : j ≠ k) :
    Memory.read (Memory.write m k v) j = Memory.read m j := by
  induction m with
  | nil => simpa [Memory.write] using Memory.read_cell k v [] j h
  | cons c m ih =>
    obtain ⟨a, b⟩ := c
    simp only [Memory.write]
    split
    · exact Memory.read_cell k v _ j h
    · split
      · next heq => rw [Memory.read_cell k v m j h]; simp [Memory.read, ← heq, Ne.symm h]
      · simp [Memory.read, ih]

/-- Below the bound of a canonical memory nothing is listed. -/
theorem Memory.read_below {lo : Nat} {m : List Host.Cell} (h : Memory.wfFrom lo m = true) {k : Nat} (hk : k < lo) :
    Memory.read m k = unlistedByte := by
  induction m generalizing lo with
  | nil => rfl
  | cons c m ih =>
    obtain ⟨a, b⟩ := c
    simp only [Memory.wfFrom, Bool.and_eq_true, decide_eq_true_eq] at h
    have : a ≠ k := by omega
    simp [Memory.read, this, ih h.2 (by omega)]

theorem Memory.read_cell_same {lo k : Nat} {m : List Host.Cell} (h : Memory.wfFrom lo m = true) (hk : k < lo)
    (v : Byte) : Memory.read (Memory.cell k v m) k = v := by
  simp only [Memory.cell]
  split
  · next hv => rw [Memory.read_below h hk, hv]
  · simp [Memory.read]

/-- A read after a write to the same key gives the value written. -/
theorem Memory.read_write_same_from {lo : Nat} {m : List Host.Cell} (h : Memory.wfFrom lo m = true) (k : Nat)
    (v : Byte) : Memory.read (Memory.write m k v) k = v := by
  induction m generalizing lo with
  | nil => exact Memory.read_cell_same (lo := k + 1) rfl (by omega) v
  | cons c m ih =>
    obtain ⟨a, b⟩ := c
    simp only [Memory.wfFrom, Bool.and_eq_true, decide_eq_true_eq] at h
    simp only [Memory.write]
    split
    · next hk =>
      refine Memory.read_cell_same (lo := k + 1) ?_ (by omega) v
      simp only [Memory.wfFrom, Bool.and_eq_true, decide_eq_true_eq]
      exact ⟨⟨⟨by omega, h.1.1.2⟩, h.1.2⟩, h.2⟩
    · split
      · exact Memory.read_cell_same h.2 (by omega) v
      · next hne => simp [Memory.read, Ne.symm hne, ih h.2]

theorem Memory.read_write_same {m : List Host.Cell} (h : Memory.wf m = true) (k : Nat) (v : Byte) :
    Memory.read (Memory.write m k v) k = v :=
  Memory.read_write_same_from h k v

theorem Memory.wfFrom_mono {lo lo' : Nat} (hl : lo' ≤ lo) {m : List Host.Cell} (h : Memory.wfFrom lo m = true) :
    Memory.wfFrom lo' m = true := by
  cases m with
  | nil => rfl
  | cons c m =>
    obtain ⟨a, b⟩ := c
    simp only [Memory.wfFrom, Bool.and_eq_true, decide_eq_true_eq] at *
    exact ⟨⟨⟨by omega, h.1.1.2⟩, h.1.2⟩, h.2⟩

theorem Memory.cell_wfFrom {lo k : Nat} {m : List Host.Cell} (h : Memory.wfFrom (k + 1) m = true) (hlo : lo ≤ k)
    (hk : k < keyLimit) (v : Byte) : Memory.wfFrom lo (Memory.cell k v m) = true := by
  simp only [Memory.cell]
  split
  · exact Memory.wfFrom_mono (by omega) h
  · next hv =>
    simp only [Memory.wfFrom, Bool.and_eq_true, decide_eq_true_eq]
    exact ⟨⟨⟨hlo, hk⟩, hv⟩, h⟩

theorem Memory.write_wfFrom {lo : Nat} {m : List Host.Cell} (h : Memory.wfFrom lo m = true) {k : Nat} (hlo : lo ≤ k)
    (hk : k < keyLimit) (v : Byte) : Memory.wfFrom lo (Memory.write m k v) = true := by
  induction m generalizing lo with
  | nil => exact Memory.cell_wfFrom rfl hlo hk v
  | cons c m ih =>
    obtain ⟨a, b⟩ := c
    simp only [Memory.wfFrom, Bool.and_eq_true, decide_eq_true_eq] at h
    simp only [Memory.write]
    split
    · next hka =>
      refine Memory.cell_wfFrom ?_ hlo hk v
      simp only [Memory.wfFrom, Bool.and_eq_true, decide_eq_true_eq]
      exact ⟨⟨⟨by omega, h.1.1.2⟩, h.1.2⟩, h.2⟩
    · split
      · next heq => subst heq; exact Memory.cell_wfFrom h.2 hlo hk v
      · simp only [Memory.wfFrom, Bool.and_eq_true, decide_eq_true_eq]
        exact ⟨⟨⟨h.1.1.1, h.1.1.2⟩, h.1.2⟩, ih h.2 (by omega)⟩

/-- A write below the key limit keeps the canonical form. -/
theorem Memory.write_wf {m : List Host.Cell} (h : Memory.wf m = true) {k : Nat} (hk : k < keyLimit) (v : Byte) :
    Memory.wf (Memory.write m k v) = true :=
  Memory.write_wfFrom h (Nat.zero_le k) hk v

/-- The memory made of any list of writes is canonical. -/
theorem Memory.ofCells_wf (cs : List (Nat × Byte)) : Memory.wf (Memory.ofCells cs) = true := by
  suffices ∀ m, Memory.wf m = true →
      Memory.wf (cs.foldl (fun m c => Memory.write m (c.1 % keyLimit) c.2) m) = true from this [] rfl
  induction cs with
  | nil => exact fun m h => h
  | cons c cs ih => exact fun m h => ih _ (Memory.write_wf h (Nat.mod_lt _ (by decide)) _)

/-- Every key of an address is below the key limit. -/
theorem State.key_lt (s : State) (m : Mode) (a : Word) : s.key m a < keyLimit := by
  have := a.isLt
  cases m
  · simp only [State.key, keyLimit]
    split <;> omega
  · simp only [State.key, keyLimit]
    omega

/-- Within one space two addresses have the same key only if they are equal. -/
theorem State.key_inj {s : State} {m : Mode} {a b : Word} (h : s.key m a = s.key m b) : a = b := by
  apply BitVec.eq_of_toNat_eq
  cases m
  · simp only [State.key] at h
    split at h <;> omega
  · simpa [State.key] using h

theorem State.readByte_writeByte_same {s : State} (h : Memory.wf s.mem = true) (m : Mode) (a : Word) (b : Byte) :
    (s.writeByte m a b).readByte m a = b :=
  Memory.read_write_same h _ _

theorem State.readByte_writeByte_other (s : State) (m : Mode) (a : Word) (b : Byte) (m' : Mode) (a' : Word)
    (h : s.key m' a' ≠ s.key m a) : (s.writeByte m a b).readByte m' a' = s.readByte m' a' :=
  Memory.read_write_other _ _ _ _ h

theorem State.writeByte_wf {s : State} (h : Memory.wf s.mem = true) (m : Mode) (a : Word) (b : Byte) :
    Memory.wf (s.writeByte m a b).mem = true :=
  Memory.write_wf h (s.key_lt m a) b

end Sys2Proof.Machine
end

