-- ==== Sys2Proof/Laws/State.lean ====
section
/-! SUPPORT. One lemma per field that an update of the state leaves alone, and the value of each field it writes. -/

namespace Sys2Proof.Machine

section Unchanged

variable (s : State)

@[simp] theorem State.noteBrk_pc : s.noteBrk.pc = s.pc := rfl
@[simp] theorem State.noteBrk_regs : s.noteBrk.regs = s.regs := rfl
@[simp] theorem State.noteBrk_altRegs : s.noteBrk.altRegs = s.altRegs := rfl
@[simp] theorem State.noteBrk_psr : s.noteBrk.psr = s.psr := rfl
@[simp] theorem State.noteBrk_vbr : s.noteBrk.vbr = s.vbr := rfl
@[simp] theorem State.noteBrk_epc : s.noteBrk.epc = s.epc := rfl
@[simp] theorem State.noteBrk_epsr : s.noteBrk.epsr = s.epsr := rfl
@[simp] theorem State.noteBrk_fpc : s.noteBrk.fpc = s.fpc := rfl
@[simp] theorem State.noteBrk_fpsr : s.noteBrk.fpsr = s.fpsr := rfl
@[simp] theorem State.noteBrk_mem : s.noteBrk.mem = s.mem := rfl
@[simp] theorem State.noteBrk_fetchErr : s.noteBrk.fetchErr = s.fetchErr := rfl
@[simp] theorem State.noteBrk_fetchBrk : s.noteBrk.fetchBrk = s.fetchBrk := rfl
@[simp] theorem State.noteBrk_traceDue : s.noteBrk.traceDue = s.traceDue := rfl
@[simp] theorem State.noteBrk_srstSeen : s.noteBrk.srstSeen = s.srstSeen := rfl
@[simp] theorem State.noteBrk_lowPower : s.noteBrk.lowPower = s.lowPower := rfl
@[simp] theorem State.noteBrk_stored : s.noteBrk.stored = s.stored := rfl
@[simp] theorem State.noteBrk_unrecoverable : s.noteBrk.unrecoverable = s.unrecoverable := rfl
@[simp] theorem State.noteBrk_draws : s.noteBrk.draws = s.draws := rfl
@[simp] theorem State.noteBrk_plat : s.noteBrk.plat = s.plat := rfl
@[simp] theorem State.noteBrk_env : s.noteBrk.env = s.env := rfl
@[simp] theorem State.noteBrk_script : s.noteBrk.script = s.script := rfl

@[simp] theorem State.setReg_pc (r : Reg) (v : Word) : (s.setReg r v).pc = s.pc := rfl
@[simp] theorem State.setReg_psr (r : Reg) (v : Word) : (s.setReg r v).psr = s.psr := rfl
@[simp] theorem State.setReg_vbr (r : Reg) (v : Word) : (s.setReg r v).vbr = s.vbr := rfl
@[simp] theorem State.setReg_epc (r : Reg) (v : Word) : (s.setReg r v).epc = s.epc := rfl
@[simp] theorem State.setReg_epsr (r : Reg) (v : Word) : (s.setReg r v).epsr = s.epsr := rfl
@[simp] theorem State.setReg_fpc (r : Reg) (v : Word) : (s.setReg r v).fpc = s.fpc := rfl
@[simp] theorem State.setReg_fpsr (r : Reg) (v : Word) : (s.setReg r v).fpsr = s.fpsr := rfl
@[simp] theorem State.setReg_mem (r : Reg) (v : Word) : (s.setReg r v).mem = s.mem := rfl
@[simp] theorem State.setReg_fetchErr (r : Reg) (v : Word) : (s.setReg r v).fetchErr = s.fetchErr := rfl
@[simp] theorem State.setReg_fetchBrk (r : Reg) (v : Word) : (s.setReg r v).fetchBrk = s.fetchBrk := rfl
@[simp] theorem State.setReg_dataBrk (r : Reg) (v : Word) : (s.setReg r v).dataBrk = s.dataBrk := rfl
@[simp] theorem State.setReg_traceDue (r : Reg) (v : Word) : (s.setReg r v).traceDue = s.traceDue := rfl
@[simp] theorem State.setReg_srstSeen (r : Reg) (v : Word) : (s.setReg r v).srstSeen = s.srstSeen := rfl
@[simp] theorem State.setReg_lowPower (r : Reg) (v : Word) : (s.setReg r v).lowPower = s.lowPower := rfl
@[simp] theorem State.setReg_stored (r : Reg) (v : Word) : (s.setReg r v).stored = s.stored := rfl
@[simp] theorem State.setReg_unrecoverable (r : Reg) (v : Word) :
    (s.setReg r v).unrecoverable = s.unrecoverable := rfl
@[simp] theorem State.setReg_draws (r : Reg) (v : Word) : (s.setReg r v).draws = s.draws := rfl
@[simp] theorem State.setReg_plat (r : Reg) (v : Word) : (s.setReg r v).plat = s.plat := rfl
@[simp] theorem State.setReg_env (r : Reg) (v : Word) : (s.setReg r v).env = s.env := rfl
@[simp] theorem State.setReg_script (r : Reg) (v : Word) : (s.setReg r v).script = s.script := rfl

@[simp] theorem State.writeByte_pc (m : Mode) (a : Word) (b : Byte) : (s.writeByte m a b).pc = s.pc := rfl
@[simp] theorem State.writeByte_regs (m : Mode) (a : Word) (b : Byte) : (s.writeByte m a b).regs = s.regs := rfl
@[simp] theorem State.writeByte_altRegs (m : Mode) (a : Word) (b : Byte) :
    (s.writeByte m a b).altRegs = s.altRegs := rfl
@[simp] theorem State.writeByte_psr (m : Mode) (a : Word) (b : Byte) : (s.writeByte m a b).psr = s.psr := rfl
@[simp] theorem State.writeByte_vbr (m : Mode) (a : Word) (b : Byte) : (s.writeByte m a b).vbr = s.vbr := rfl
@[simp] theorem State.writeByte_epc (m : Mode) (a : Word) (b : Byte) : (s.writeByte m a b).epc = s.epc := rfl
@[simp] theorem State.writeByte_epsr (m : Mode) (a : Word) (b : Byte) : (s.writeByte m a b).epsr = s.epsr := rfl
@[simp] theorem State.writeByte_fpc (m : Mode) (a : Word) (b : Byte) : (s.writeByte m a b).fpc = s.fpc := rfl
@[simp] theorem State.writeByte_fpsr (m : Mode) (a : Word) (b : Byte) : (s.writeByte m a b).fpsr = s.fpsr := rfl
@[simp] theorem State.writeByte_fetchErr (m : Mode) (a : Word) (b : Byte) :
    (s.writeByte m a b).fetchErr = s.fetchErr := rfl
@[simp] theorem State.writeByte_fetchBrk (m : Mode) (a : Word) (b : Byte) :
    (s.writeByte m a b).fetchBrk = s.fetchBrk := rfl
@[simp] theorem State.writeByte_dataBrk (m : Mode) (a : Word) (b : Byte) :
    (s.writeByte m a b).dataBrk = s.dataBrk := rfl
@[simp] theorem State.writeByte_traceDue (m : Mode) (a : Word) (b : Byte) :
    (s.writeByte m a b).traceDue = s.traceDue := rfl
@[simp] theorem State.writeByte_srstSeen (m : Mode) (a : Word) (b : Byte) :
    (s.writeByte m a b).srstSeen = s.srstSeen := rfl
@[simp] theorem State.writeByte_lowPower (m : Mode) (a : Word) (b : Byte) :
    (s.writeByte m a b).lowPower = s.lowPower := rfl
@[simp] theorem State.writeByte_unrecoverable (m : Mode) (a : Word) (b : Byte) :
    (s.writeByte m a b).unrecoverable = s.unrecoverable := rfl
@[simp] theorem State.writeByte_draws (m : Mode) (a : Word) (b : Byte) : (s.writeByte m a b).draws = s.draws := rfl
@[simp] theorem State.writeByte_plat (m : Mode) (a : Word) (b : Byte) : (s.writeByte m a b).plat = s.plat := rfl
@[simp] theorem State.writeByte_env (m : Mode) (a : Word) (b : Byte) : (s.writeByte m a b).env = s.env := rfl
@[simp] theorem State.writeByte_script (m : Mode) (a : Word) (b : Byte) : (s.writeByte m a b).script = s.script := rfl

@[simp] theorem State.drawByte_pc (m : Mode) (a : Word) (b : Byte) : (s.drawByte m a b).pc = s.pc := rfl
@[simp] theorem State.drawByte_regs (m : Mode) (a : Word) (b : Byte) : (s.drawByte m a b).regs = s.regs := rfl
@[simp] theorem State.drawByte_altRegs (m : Mode) (a : Word) (b : Byte) :
    (s.drawByte m a b).altRegs = s.altRegs := rfl
@[simp] theorem State.drawByte_psr (m : Mode) (a : Word) (b : Byte) : (s.drawByte m a b).psr = s.psr := rfl
@[simp] theorem State.drawByte_vbr (m : Mode) (a : Word) (b : Byte) : (s.drawByte m a b).vbr = s.vbr := rfl
@[simp] theorem State.drawByte_epc (m : Mode) (a : Word) (b : Byte) : (s.drawByte m a b).epc = s.epc := rfl
@[simp] theorem State.drawByte_epsr (m : Mode) (a : Word) (b : Byte) : (s.drawByte m a b).epsr = s.epsr := rfl
@[simp] theorem State.drawByte_fpc (m : Mode) (a : Word) (b : Byte) : (s.drawByte m a b).fpc = s.fpc := rfl
@[simp] theorem State.drawByte_fpsr (m : Mode) (a : Word) (b : Byte) : (s.drawByte m a b).fpsr = s.fpsr := rfl
@[simp] theorem State.drawByte_fetchErr (m : Mode) (a : Word) (b : Byte) :
    (s.drawByte m a b).fetchErr = s.fetchErr := rfl
@[simp] theorem State.drawByte_fetchBrk (m : Mode) (a : Word) (b : Byte) :
    (s.drawByte m a b).fetchBrk = s.fetchBrk := rfl
@[simp] theorem State.drawByte_dataBrk (m : Mode) (a : Word) (b : Byte) :
    (s.drawByte m a b).dataBrk = s.dataBrk := rfl
@[simp] theorem State.drawByte_traceDue (m : Mode) (a : Word) (b : Byte) :
    (s.drawByte m a b).traceDue = s.traceDue := rfl
@[simp] theorem State.drawByte_srstSeen (m : Mode) (a : Word) (b : Byte) :
    (s.drawByte m a b).srstSeen = s.srstSeen := rfl
@[simp] theorem State.drawByte_lowPower (m : Mode) (a : Word) (b : Byte) :
    (s.drawByte m a b).lowPower = s.lowPower := rfl
@[simp] theorem State.drawByte_unrecoverable (m : Mode) (a : Word) (b : Byte) :
    (s.drawByte m a b).unrecoverable = s.unrecoverable := rfl
@[simp] theorem State.drawByte_plat (m : Mode) (a : Word) (b : Byte) : (s.drawByte m a b).plat = s.plat := rfl
@[simp] theorem State.drawByte_env (m : Mode) (a : Word) (b : Byte) : (s.drawByte m a b).env = s.env := rfl
@[simp] theorem State.drawByte_script (m : Mode) (a : Word) (b : Byte) : (s.drawByte m a b).script = s.script := rfl

@[simp] theorem State.drawReg_pc (r : Reg) (v : Word) : (s.drawReg r v).pc = s.pc := rfl
@[simp] theorem State.drawReg_psr (r : Reg) (v : Word) : (s.drawReg r v).psr = s.psr := rfl
@[simp] theorem State.drawReg_vbr (r : Reg) (v : Word) : (s.drawReg r v).vbr = s.vbr := rfl
@[simp] theorem State.drawReg_epc (r : Reg) (v : Word) : (s.drawReg r v).epc = s.epc := rfl
@[simp] theorem State.drawReg_epsr (r : Reg) (v : Word) : (s.drawReg r v).epsr = s.epsr := rfl
@[simp] theorem State.drawReg_fpc (r : Reg) (v : Word) : (s.drawReg r v).fpc = s.fpc := rfl
@[simp] theorem State.drawReg_fpsr (r : Reg) (v : Word) : (s.drawReg r v).fpsr = s.fpsr := rfl
@[simp] theorem State.drawReg_mem (r : Reg) (v : Word) : (s.drawReg r v).mem = s.mem := rfl
@[simp] theorem State.drawReg_fetchErr (r : Reg) (v : Word) : (s.drawReg r v).fetchErr = s.fetchErr := rfl
@[simp] theorem State.drawReg_fetchBrk (r : Reg) (v : Word) : (s.drawReg r v).fetchBrk = s.fetchBrk := rfl
@[simp] theorem State.drawReg_dataBrk (r : Reg) (v : Word) : (s.drawReg r v).dataBrk = s.dataBrk := rfl
@[simp] theorem State.drawReg_traceDue (r : Reg) (v : Word) : (s.drawReg r v).traceDue = s.traceDue := rfl
@[simp] theorem State.drawReg_srstSeen (r : Reg) (v : Word) : (s.drawReg r v).srstSeen = s.srstSeen := rfl
@[simp] theorem State.drawReg_lowPower (r : Reg) (v : Word) : (s.drawReg r v).lowPower = s.lowPower := rfl
@[simp] theorem State.drawReg_stored (r : Reg) (v : Word) : (s.drawReg r v).stored = s.stored := rfl
@[simp] theorem State.drawReg_unrecoverable (r : Reg) (v : Word) :
    (s.drawReg r v).unrecoverable = s.unrecoverable := rfl
@[simp] theorem State.drawReg_plat (r : Reg) (v : Word) : (s.drawReg r v).plat = s.plat := rfl
@[simp] theorem State.drawReg_env (r : Reg) (v : Word) : (s.drawReg r v).env = s.env := rfl
@[simp] theorem State.drawReg_script (r : Reg) (v : Word) : (s.drawReg r v).script = s.script := rfl

@[simp] theorem State.drawCore_pc : s.drawCore.pc = s.pc := by simp only [State.drawCore]
@[simp] theorem State.drawCore_vbr : s.drawCore.vbr = s.vbr := by simp only [State.drawCore]
@[simp] theorem State.drawCore_epc : s.drawCore.epc = s.epc := by simp only [State.drawCore]
@[simp] theorem State.drawCore_epsr : s.drawCore.epsr = s.epsr := by simp only [State.drawCore]
@[simp] theorem State.drawCore_fpc : s.drawCore.fpc = s.fpc := by simp only [State.drawCore]
@[simp] theorem State.drawCore_fpsr : s.drawCore.fpsr = s.fpsr := by simp only [State.drawCore]
@[simp] theorem State.drawCore_mem : s.drawCore.mem = s.mem := by simp only [State.drawCore]
@[simp] theorem State.drawCore_fetchErr : s.drawCore.fetchErr = s.fetchErr := by simp only [State.drawCore]
@[simp] theorem State.drawCore_fetchBrk : s.drawCore.fetchBrk = s.fetchBrk := by simp only [State.drawCore]
@[simp] theorem State.drawCore_dataBrk : s.drawCore.dataBrk = s.dataBrk := by simp only [State.drawCore]
@[simp] theorem State.drawCore_traceDue : s.drawCore.traceDue = s.traceDue := by simp only [State.drawCore]
@[simp] theorem State.drawCore_srstSeen : s.drawCore.srstSeen = s.srstSeen := by simp only [State.drawCore]
@[simp] theorem State.drawCore_lowPower : s.drawCore.lowPower = s.lowPower := by simp only [State.drawCore]
@[simp] theorem State.drawCore_stored : s.drawCore.stored = s.stored := by simp only [State.drawCore]
@[simp] theorem State.drawCore_unrecoverable :
    s.drawCore.unrecoverable = s.unrecoverable := by simp only [State.drawCore]
@[simp] theorem State.drawCore_plat : s.drawCore.plat = s.plat := by simp only [State.drawCore]
@[simp] theorem State.drawCore_env : s.drawCore.env = s.env := by simp only [State.drawCore]
@[simp] theorem State.drawCore_script : s.drawCore.script = s.script := by simp only [State.drawCore]
@[simp] theorem State.drawCore_draws : s.drawCore.draws = s.draws + 33 := by simp only [State.drawCore]
/-- The condition bit alone of the PSR is drawn. -/
theorem State.drawCore_psr : s.drawCore.psr = { s.psr with c := s.drawCore.psr.c } := by simp only [State.drawCore]

@[simp] theorem State.drawMem_pc : s.drawMem.pc = s.pc := rfl
@[simp] theorem State.drawMem_regs : s.drawMem.regs = s.regs := rfl
@[simp] theorem State.drawMem_altRegs : s.drawMem.altRegs = s.altRegs := rfl
@[simp] theorem State.drawMem_psr : s.drawMem.psr = s.psr := rfl
@[simp] theorem State.drawMem_vbr : s.drawMem.vbr = s.vbr := rfl
@[simp] theorem State.drawMem_epc : s.drawMem.epc = s.epc := rfl
@[simp] theorem State.drawMem_epsr : s.drawMem.epsr = s.epsr := rfl
@[simp] theorem State.drawMem_fpc : s.drawMem.fpc = s.fpc := rfl
@[simp] theorem State.drawMem_fpsr : s.drawMem.fpsr = s.fpsr := rfl
@[simp] theorem State.drawMem_fetchErr : s.drawMem.fetchErr = s.fetchErr := rfl
@[simp] theorem State.drawMem_fetchBrk : s.drawMem.fetchBrk = s.fetchBrk := rfl
@[simp] theorem State.drawMem_dataBrk : s.drawMem.dataBrk = s.dataBrk := rfl
@[simp] theorem State.drawMem_traceDue : s.drawMem.traceDue = s.traceDue := rfl
@[simp] theorem State.drawMem_srstSeen : s.drawMem.srstSeen = s.srstSeen := rfl
@[simp] theorem State.drawMem_lowPower : s.drawMem.lowPower = s.lowPower := rfl
@[simp] theorem State.drawMem_stored : s.drawMem.stored = s.stored := rfl
@[simp] theorem State.drawMem_unrecoverable : s.drawMem.unrecoverable = s.unrecoverable := rfl
@[simp] theorem State.drawMem_plat : s.drawMem.plat = s.plat := rfl
@[simp] theorem State.drawMem_env : s.drawMem.env = s.env := rfl
@[simp] theorem State.drawMem_script : s.drawMem.script = s.script := rfl

@[simp] theorem State.retire_regs (i : Instr) (t : Tm) (a : Word) : (s.retire i t a).regs = s.regs := rfl
@[simp] theorem State.retire_altRegs (i : Instr) (t : Tm) (a : Word) : (s.retire i t a).altRegs = s.altRegs := rfl
@[simp] theorem State.retire_psr (i : Instr) (t : Tm) (a : Word) : (s.retire i t a).psr = s.psr := rfl
@[simp] theorem State.retire_vbr (i : Instr) (t : Tm) (a : Word) : (s.retire i t a).vbr = s.vbr := rfl
@[simp] theorem State.retire_epc (i : Instr) (t : Tm) (a : Word) : (s.retire i t a).epc = s.epc := rfl
@[simp] theorem State.retire_epsr (i : Instr) (t : Tm) (a : Word) : (s.retire i t a).epsr = s.epsr := rfl
@[simp] theorem State.retire_fpc (i : Instr) (t : Tm) (a : Word) : (s.retire i t a).fpc = s.fpc := rfl
@[simp] theorem State.retire_fpsr (i : Instr) (t : Tm) (a : Word) : (s.retire i t a).fpsr = s.fpsr := rfl
@[simp] theorem State.retire_mem (i : Instr) (t : Tm) (a : Word) : (s.retire i t a).mem = s.mem := rfl
@[simp] theorem State.retire_fetchErr (i : Instr) (t : Tm) (a : Word) : (s.retire i t a).fetchErr = s.fetchErr := rfl
@[simp] theorem State.retire_fetchBrk (i : Instr) (t : Tm) (a : Word) : (s.retire i t a).fetchBrk = s.fetchBrk := rfl
@[simp] theorem State.retire_dataBrk (i : Instr) (t : Tm) (a : Word) : (s.retire i t a).dataBrk = s.dataBrk := rfl
@[simp] theorem State.retire_srstSeen (i : Instr) (t : Tm) (a : Word) : (s.retire i t a).srstSeen = s.srstSeen := rfl
@[simp] theorem State.retire_lowPower (i : Instr) (t : Tm) (a : Word) : (s.retire i t a).lowPower = s.lowPower := rfl
@[simp] theorem State.retire_stored (i : Instr) (t : Tm) (a : Word) : (s.retire i t a).stored = s.stored := rfl
@[simp] theorem State.retire_unrecoverable (i : Instr) (t : Tm) (a : Word) :
    (s.retire i t a).unrecoverable = s.unrecoverable := rfl
@[simp] theorem State.retire_draws (i : Instr) (t : Tm) (a : Word) : (s.retire i t a).draws = s.draws := rfl
@[simp] theorem State.retire_plat (i : Instr) (t : Tm) (a : Word) : (s.retire i t a).plat = s.plat := rfl
@[simp] theorem State.retire_env (i : Instr) (t : Tm) (a : Word) : (s.retire i t a).env = s.env := rfl
@[simp] theorem State.retire_script (i : Instr) (t : Tm) (a : Word) : (s.retire i t a).script = s.script := rfl

@[simp] theorem State.retireOther_regs (t : Tm) : (s.retireOther t).regs = s.regs := rfl
@[simp] theorem State.retireOther_altRegs (t : Tm) : (s.retireOther t).altRegs = s.altRegs := rfl
@[simp] theorem State.retireOther_psr (t : Tm) : (s.retireOther t).psr = s.psr := rfl
@[simp] theorem State.retireOther_vbr (t : Tm) : (s.retireOther t).vbr = s.vbr := rfl
@[simp] theorem State.retireOther_epc (t : Tm) : (s.retireOther t).epc = s.epc := rfl
@[simp] theorem State.retireOther_epsr (t : Tm) : (s.retireOther t).epsr = s.epsr := rfl
@[simp] theorem State.retireOther_fpc (t : Tm) : (s.retireOther t).fpc = s.fpc := rfl
@[simp] theorem State.retireOther_fpsr (t : Tm) : (s.retireOther t).fpsr = s.fpsr := rfl
@[simp] theorem State.retireOther_mem (t : Tm) : (s.retireOther t).mem = s.mem := rfl
@[simp] theorem State.retireOther_fetchErr (t : Tm) : (s.retireOther t).fetchErr = s.fetchErr := rfl
@[simp] theorem State.retireOther_fetchBrk (t : Tm) : (s.retireOther t).fetchBrk = s.fetchBrk := rfl
@[simp] theorem State.retireOther_dataBrk (t : Tm) : (s.retireOther t).dataBrk = s.dataBrk := rfl
@[simp] theorem State.retireOther_srstSeen (t : Tm) : (s.retireOther t).srstSeen = s.srstSeen := rfl
@[simp] theorem State.retireOther_lowPower (t : Tm) : (s.retireOther t).lowPower = s.lowPower := rfl
@[simp] theorem State.retireOther_stored (t : Tm) : (s.retireOther t).stored = s.stored := rfl
@[simp] theorem State.retireOther_unrecoverable (t : Tm) : (s.retireOther t).unrecoverable = s.unrecoverable := rfl
@[simp] theorem State.retireOther_draws (t : Tm) : (s.retireOther t).draws = s.draws := rfl
@[simp] theorem State.retireOther_plat (t : Tm) : (s.retireOther t).plat = s.plat := rfl
@[simp] theorem State.retireOther_env (t : Tm) : (s.retireOther t).env = s.env := rfl
@[simp] theorem State.retireOther_script (t : Tm) : (s.retireOther t).script = s.script := rfl
@[simp] theorem State.retireOther_pc (t : Tm) : (s.retireOther t).pc = s.pc + s.ilen := rfl
@[simp] theorem State.retireOther_traceDue (t : Tm) : (s.retireOther t).traceDue = isOtherTraceDue t := rfl

@[simp] theorem State.flow_regs (i : Instr) (t : Tm) (b : Bool) (a : Word) : (s.flow i t b a).regs = s.regs := rfl
@[simp] theorem State.flow_altRegs (i : Instr) (t : Tm) (b : Bool) (a : Word) :
    (s.flow i t b a).altRegs = s.altRegs := rfl
@[simp] theorem State.flow_psr (i : Instr) (t : Tm) (b : Bool) (a : Word) : (s.flow i t b a).psr = s.psr := rfl
@[simp] theorem State.flow_vbr (i : Instr) (t : Tm) (b : Bool) (a : Word) : (s.flow i t b a).vbr = s.vbr := rfl
@[simp] theorem State.flow_epc (i : Instr) (t : Tm) (b : Bool) (a : Word) : (s.flow i t b a).epc = s.epc := rfl
@[simp] theorem State.flow_epsr (i : Instr) (t : Tm) (b : Bool) (a : Word) : (s.flow i t b a).epsr = s.epsr := rfl
@[simp] theorem State.flow_fpc (i : Instr) (t : Tm) (b : Bool) (a : Word) : (s.flow i t b a).fpc = s.fpc := rfl
@[simp] theorem State.flow_fpsr (i : Instr) (t : Tm) (b : Bool) (a : Word) : (s.flow i t b a).fpsr = s.fpsr := rfl
@[simp] theorem State.flow_mem (i : Instr) (t : Tm) (b : Bool) (a : Word) : (s.flow i t b a).mem = s.mem := rfl
@[simp] theorem State.flow_dataBrk (i : Instr) (t : Tm) (b : Bool) (a : Word) :
    (s.flow i t b a).dataBrk = s.dataBrk := rfl
@[simp] theorem State.flow_srstSeen (i : Instr) (t : Tm) (b : Bool) (a : Word) :
    (s.flow i t b a).srstSeen = s.srstSeen := rfl
@[simp] theorem State.flow_lowPower (i : Instr) (t : Tm) (b : Bool) (a : Word) :
    (s.flow i t b a).lowPower = s.lowPower := rfl
@[simp] theorem State.flow_stored (i : Instr) (t : Tm) (b : Bool) (a : Word) :
    (s.flow i t b a).stored = s.stored := rfl
@[simp] theorem State.flow_unrecoverable (i : Instr) (t : Tm) (b : Bool) (a : Word) :
    (s.flow i t b a).unrecoverable = s.unrecoverable := rfl
@[simp] theorem State.flow_draws (i : Instr) (t : Tm) (b : Bool) (a : Word) : (s.flow i t b a).draws = s.draws := rfl
@[simp] theorem State.flow_plat (i : Instr) (t : Tm) (b : Bool) (a : Word) : (s.flow i t b a).plat = s.plat := rfl
@[simp] theorem State.flow_env (i : Instr) (t : Tm) (b : Bool) (a : Word) : (s.flow i t b a).env = s.env := rfl
@[simp] theorem State.flow_script (i : Instr) (t : Tm) (b : Bool) (a : Word) :
    (s.flow i t b a).script = s.script := rfl

@[simp] theorem State.latch_pc : s.latch.pc = s.pc := rfl
@[simp] theorem State.latch_regs : s.latch.regs = s.regs := rfl
@[simp] theorem State.latch_altRegs : s.latch.altRegs = s.altRegs := rfl
@[simp] theorem State.latch_psr : s.latch.psr = s.psr := rfl
@[simp] theorem State.latch_vbr : s.latch.vbr = s.vbr := rfl
@[simp] theorem State.latch_epc : s.latch.epc = s.epc := rfl
@[simp] theorem State.latch_epsr : s.latch.epsr = s.epsr := rfl
@[simp] theorem State.latch_fpc : s.latch.fpc = s.fpc := rfl
@[simp] theorem State.latch_fpsr : s.latch.fpsr = s.fpsr := rfl
@[simp] theorem State.latch_mem : s.latch.mem = s.mem := rfl
@[simp] theorem State.latch_dataBrk : s.latch.dataBrk = s.dataBrk := rfl
@[simp] theorem State.latch_traceDue : s.latch.traceDue = s.traceDue := rfl
@[simp] theorem State.latch_srstSeen : s.latch.srstSeen = s.srstSeen := rfl
@[simp] theorem State.latch_lowPower : s.latch.lowPower = s.lowPower := rfl
@[simp] theorem State.latch_stored : s.latch.stored = s.stored := rfl
@[simp] theorem State.latch_unrecoverable : s.latch.unrecoverable = s.unrecoverable := rfl
@[simp] theorem State.latch_draws : s.latch.draws = s.draws := rfl
@[simp] theorem State.latch_plat : s.latch.plat = s.plat := rfl
@[simp] theorem State.latch_env : s.latch.env = s.env := rfl
@[simp] theorem State.latch_script : s.latch.script = s.script := rfl

@[simp] theorem State.advance_pc : s.advance.pc = s.pc := rfl
@[simp] theorem State.advance_regs : s.advance.regs = s.regs := rfl
@[simp] theorem State.advance_altRegs : s.advance.altRegs = s.altRegs := rfl
@[simp] theorem State.advance_psr : s.advance.psr = s.psr := rfl
@[simp] theorem State.advance_vbr : s.advance.vbr = s.vbr := rfl
@[simp] theorem State.advance_epc : s.advance.epc = s.epc := rfl
@[simp] theorem State.advance_epsr : s.advance.epsr = s.epsr := rfl
@[simp] theorem State.advance_fpc : s.advance.fpc = s.fpc := rfl
@[simp] theorem State.advance_fpsr : s.advance.fpsr = s.fpsr := rfl
@[simp] theorem State.advance_mem : s.advance.mem = s.mem := rfl
@[simp] theorem State.advance_fetchErr : s.advance.fetchErr = s.fetchErr := rfl
@[simp] theorem State.advance_fetchBrk : s.advance.fetchBrk = s.fetchBrk := rfl
@[simp] theorem State.advance_dataBrk : s.advance.dataBrk = s.dataBrk := rfl
@[simp] theorem State.advance_traceDue : s.advance.traceDue = s.traceDue := rfl
@[simp] theorem State.advance_srstSeen : s.advance.srstSeen = s.srstSeen := rfl
@[simp] theorem State.advance_lowPower : s.advance.lowPower = s.lowPower := rfl
@[simp] theorem State.advance_stored : s.advance.stored = s.stored := rfl
@[simp] theorem State.advance_unrecoverable : s.advance.unrecoverable = s.unrecoverable := rfl
@[simp] theorem State.advance_draws : s.advance.draws = s.draws := rfl
@[simp] theorem State.advance_plat : s.advance.plat = s.plat := rfl

@[simp] theorem State.scramble_pc : s.scramble.pc = s.pc := by simp only [State.scramble]
@[simp] theorem State.scramble_vbr : s.scramble.vbr = s.vbr := by simp only [State.scramble]
@[simp] theorem State.scramble_plat : s.scramble.plat = s.plat := by simp only [State.scramble]
@[simp] theorem State.scramble_env : s.scramble.env = s.env := by simp only [State.scramble]
@[simp] theorem State.scramble_script : s.scramble.script = s.script := by simp only [State.scramble]

@[simp] theorem State.setRegs_pc (l : List (Reg × Word)) : (s.setRegs l).pc = s.pc := by
  induction l generalizing s with
  | nil => rfl
  | cons c l ih => exact ih ..

@[simp] theorem State.setRegs_psr (l : List (Reg × Word)) : (s.setRegs l).psr = s.psr := by
  induction l generalizing s with
  | nil => rfl
  | cons c l ih => exact ih ..

@[simp] theorem State.setRegs_vbr (l : List (Reg × Word)) : (s.setRegs l).vbr = s.vbr := by
  induction l generalizing s with
  | nil => rfl
  | cons c l ih => exact ih ..

@[simp] theorem State.setRegs_epc (l : List (Reg × Word)) : (s.setRegs l).epc = s.epc := by
  induction l generalizing s with
  | nil => rfl
  | cons c l ih => exact ih ..

@[simp] theorem State.setRegs_epsr (l : List (Reg × Word)) : (s.setRegs l).epsr = s.epsr := by
  induction l generalizing s with
  | nil => rfl
  | cons c l ih => exact ih ..

@[simp] theorem State.setRegs_fpc (l : List (Reg × Word)) : (s.setRegs l).fpc = s.fpc := by
  induction l generalizing s with
  | nil => rfl
  | cons c l ih => exact ih ..

@[simp] theorem State.setRegs_fpsr (l : List (Reg × Word)) : (s.setRegs l).fpsr = s.fpsr := by
  induction l generalizing s with
  | nil => rfl
  | cons c l ih => exact ih ..

@[simp] theorem State.setRegs_mem (l : List (Reg × Word)) : (s.setRegs l).mem = s.mem := by
  induction l generalizing s with
  | nil => rfl
  | cons c l ih => exact ih ..

@[simp] theorem State.setRegs_fetchErr (l : List (Reg × Word)) : (s.setRegs l).fetchErr = s.fetchErr := by
  induction l generalizing s with
  | nil => rfl
  | cons c l ih => exact ih ..

@[simp] theorem State.setRegs_fetchBrk (l : List (Reg × Word)) : (s.setRegs l).fetchBrk = s.fetchBrk := by
  induction l generalizing s with
  | nil => rfl
  | cons c l ih => exact ih ..

@[simp] theorem State.setRegs_dataBrk (l : List (Reg × Word)) : (s.setRegs l).dataBrk = s.dataBrk := by
  induction l generalizing s with
  | nil => rfl
  | cons c l ih => exact ih ..

@[simp] theorem State.setRegs_traceDue (l : List (Reg × Word)) : (s.setRegs l).traceDue = s.traceDue := by
  induction l generalizing s with
  | nil => rfl
  | cons c l ih => exact ih ..

@[simp] theorem State.setRegs_srstSeen (l : List (Reg × Word)) : (s.setRegs l).srstSeen = s.srstSeen := by
  induction l generalizing s with
  | nil => rfl
  | cons c l ih => exact ih ..

@[simp] theorem State.setRegs_lowPower (l : List (Reg × Word)) : (s.setRegs l).lowPower = s.lowPower := by
  induction l generalizing s with
  | nil => rfl
  | cons c l ih => exact ih ..

@[simp] theorem State.setRegs_stored (l : List (Reg × Word)) : (s.setRegs l).stored = s.stored := by
  induction l generalizing s with
  | nil => rfl
  | cons c l ih => exact ih ..

@[simp] theorem State.setRegs_unrecoverable (l : List (Reg × Word)) :
    (s.setRegs l).unrecoverable = s.unrecoverable := by
  induction l generalizing s with
  | nil => rfl
  | cons c l ih => exact ih ..

@[simp] theorem State.setRegs_draws (l : List (Reg × Word)) : (s.setRegs l).draws = s.draws := by
  induction l generalizing s with
  | nil => rfl
  | cons c l ih => exact ih ..

@[simp] theorem State.setRegs_plat (l : List (Reg × Word)) : (s.setRegs l).plat = s.plat := by
  induction l generalizing s with
  | nil => rfl
  | cons c l ih => exact ih ..

@[simp] theorem State.setRegs_env (l : List (Reg × Word)) : (s.setRegs l).env = s.env := by
  induction l generalizing s with
  | nil => rfl
  | cons c l ih => exact ih ..

@[simp] theorem State.setRegs_script (l : List (Reg × Word)) : (s.setRegs l).script = s.script := by
  induction l generalizing s with
  | nil => rfl
  | cons c l ih => exact ih ..

@[simp] theorem State.drawRegs_pc (l : List (Reg × Word)) : (s.drawRegs l).pc = s.pc := by
  induction l generalizing s with
  | nil => rfl
  | cons c l ih => exact ih ..

@[simp] theorem State.drawRegs_psr (l : List (Reg × Word)) : (s.drawRegs l).psr = s.psr := by
  induction l generalizing s with
  | nil => rfl
  | cons c l ih => exact ih ..

@[simp] theorem State.drawRegs_vbr (l : List (Reg × Word)) : (s.drawRegs l).vbr = s.vbr := by
  induction l generalizing s with
  | nil => rfl
  | cons c l ih => exact ih ..

@[simp] theorem State.drawRegs_epc (l : List (Reg × Word)) : (s.drawRegs l).epc = s.epc := by
  induction l generalizing s with
  | nil => rfl
  | cons c l ih => exact ih ..

@[simp] theorem State.drawRegs_epsr (l : List (Reg × Word)) : (s.drawRegs l).epsr = s.epsr := by
  induction l generalizing s with
  | nil => rfl
  | cons c l ih => exact ih ..

@[simp] theorem State.drawRegs_fpc (l : List (Reg × Word)) : (s.drawRegs l).fpc = s.fpc := by
  induction l generalizing s with
  | nil => rfl
  | cons c l ih => exact ih ..

@[simp] theorem State.drawRegs_fpsr (l : List (Reg × Word)) : (s.drawRegs l).fpsr = s.fpsr := by
  induction l generalizing s with
  | nil => rfl
  | cons c l ih => exact ih ..

@[simp] theorem State.drawRegs_mem (l : List (Reg × Word)) : (s.drawRegs l).mem = s.mem := by
  induction l generalizing s with
  | nil => rfl
  | cons c l ih => exact ih ..

@[simp] theorem State.drawRegs_fetchErr (l : List (Reg × Word)) : (s.drawRegs l).fetchErr = s.fetchErr := by
  induction l generalizing s with
  | nil => rfl
  | cons c l ih => exact ih ..

@[simp] theorem State.drawRegs_fetchBrk (l : List (Reg × Word)) : (s.drawRegs l).fetchBrk = s.fetchBrk := by
  induction l generalizing s with
  | nil => rfl
  | cons c l ih => exact ih ..

@[simp] theorem State.drawRegs_dataBrk (l : List (Reg × Word)) : (s.drawRegs l).dataBrk = s.dataBrk := by
  induction l generalizing s with
  | nil => rfl
  | cons c l ih => exact ih ..

@[simp] theorem State.drawRegs_traceDue (l : List (Reg × Word)) : (s.drawRegs l).traceDue = s.traceDue := by
  induction l generalizing s with
  | nil => rfl
  | cons c l ih => exact ih ..

@[simp] theorem State.drawRegs_srstSeen (l : List (Reg × Word)) : (s.drawRegs l).srstSeen = s.srstSeen := by
  induction l generalizing s with
  | nil => rfl
  | cons c l ih => exact ih ..

@[simp] theorem State.drawRegs_lowPower (l : List (Reg × Word)) : (s.drawRegs l).lowPower = s.lowPower := by
  induction l generalizing s with
  | nil => rfl
  | cons c l ih => exact ih ..

@[simp] theorem State.drawRegs_stored (l : List (Reg × Word)) : (s.drawRegs l).stored = s.stored := by
  induction l generalizing s with
  | nil => rfl
  | cons c l ih => exact ih ..

@[simp] theorem State.drawRegs_unrecoverable (l : List (Reg × Word)) :
    (s.drawRegs l).unrecoverable = s.unrecoverable := by
  induction l generalizing s with
  | nil => rfl
  | cons c l ih => exact ih ..

@[simp] theorem State.drawRegs_plat (l : List (Reg × Word)) : (s.drawRegs l).plat = s.plat := by
  induction l generalizing s with
  | nil => rfl
  | cons c l ih => exact ih ..

@[simp] theorem State.drawRegs_env (l : List (Reg × Word)) : (s.drawRegs l).env = s.env := by
  induction l generalizing s with
  | nil => rfl
  | cons c l ih => exact ih ..

@[simp] theorem State.drawRegs_script (l : List (Reg × Word)) : (s.drawRegs l).script = s.script := by
  induction l generalizing s with
  | nil => rfl
  | cons c l ih => exact ih ..

@[simp] theorem State.writeBytes_pc (m : Mode) (a : Word) (l : List Byte) : (s.writeBytes m a l).pc = s.pc := by
  induction l generalizing s a with
  | nil => rfl
  | cons c l ih => exact ih ..

@[simp] theorem State.writeBytes_regs (m : Mode) (a : Word) (l : List Byte) : (s.writeBytes m a l).regs = s.regs := by
  induction l generalizing s a with
  | nil => rfl
  | cons c l ih => exact ih ..

@[simp] theorem State.writeBytes_altRegs (m : Mode) (a : Word) (l : List Byte) :
    (s.writeBytes m a l).altRegs = s.altRegs := by
  induction l generalizing s a with
  | nil => rfl
  | cons c l ih => exact ih ..

@[simp] theorem State.writeBytes_psr (m : Mode) (a : Word) (l : List Byte) : (s.writeBytes m a l).psr = s.psr := by
  induction l generalizing s a with
  | nil => rfl
  | cons c l ih => exact ih ..

@[simp] theorem State.writeBytes_vbr (m : Mode) (a : Word) (l : List Byte) : (s.writeBytes m a l).vbr = s.vbr := by
  induction l generalizing s a with
  | nil => rfl
  | cons c l ih => exact ih ..

@[simp] theorem State.writeBytes_epc (m : Mode) (a : Word) (l : List Byte) : (s.writeBytes m a l).epc = s.epc := by
  induction l generalizing s a with
  | nil => rfl
  | cons c l ih => exact ih ..

@[simp] theorem State.writeBytes_epsr (m : Mode) (a : Word) (l : List Byte) : (s.writeBytes m a l).epsr = s.epsr := by
  induction l generalizing s a with
  | nil => rfl
  | cons c l ih => exact ih ..

@[simp] theorem State.writeBytes_fpc (m : Mode) (a : Word) (l : List Byte) : (s.writeBytes m a l).fpc = s.fpc := by
  induction l generalizing s a with
  | nil => rfl
  | cons c l ih => exact ih ..

@[simp] theorem State.writeBytes_fpsr (m : Mode) (a : Word) (l : List Byte) : (s.writeBytes m a l).fpsr = s.fpsr := by
  induction l generalizing s a with
  | nil => rfl
  | cons c l ih => exact ih ..

@[simp] theorem State.writeBytes_fetchErr (m : Mode) (a : Word) (l : List Byte) :
    (s.writeBytes m a l).fetchErr = s.fetchErr := by
  induction l generalizing s a with
  | nil => rfl
  | cons c l ih => exact ih ..

@[simp] theorem State.writeBytes_fetchBrk (m : Mode) (a : Word) (l : List Byte) :
    (s.writeBytes m a l).fetchBrk = s.fetchBrk := by
  induction l generalizing s a with
  | nil => rfl
  | cons c l ih => exact ih ..

@[simp] theorem State.writeBytes_dataBrk (m : Mode) (a : Word) (l : List Byte) :
    (s.writeBytes m a l).dataBrk = s.dataBrk := by
  induction l generalizing s a with
  | nil => rfl
  | cons c l ih => exact ih ..

@[simp] theorem State.writeBytes_traceDue (m : Mode) (a : Word) (l : List Byte) :
    (s.writeBytes m a l).traceDue = s.traceDue := by
  induction l generalizing s a with
  | nil => rfl
  | cons c l ih => exact ih ..

@[simp] theorem State.writeBytes_srstSeen (m : Mode) (a : Word) (l : List Byte) :
    (s.writeBytes m a l).srstSeen = s.srstSeen := by
  induction l generalizing s a with
  | nil => rfl
  | cons c l ih => exact ih ..

@[simp] theorem State.writeBytes_lowPower (m : Mode) (a : Word) (l : List Byte) :
    (s.writeBytes m a l).lowPower = s.lowPower := by
  induction l generalizing s a with
  | nil => rfl
  | cons c l ih => exact ih ..

@[simp] theorem State.writeBytes_unrecoverable (m : Mode) (a : Word) (l : List Byte) :
    (s.writeBytes m a l).unrecoverable = s.unrecoverable := by
  induction l generalizing s a with
  | nil => rfl
  | cons c l ih => exact ih ..

@[simp] theorem State.writeBytes_draws (m : Mode) (a : Word) (l : List Byte) :
    (s.writeBytes m a l).draws = s.draws := by
  induction l generalizing s a with
  | nil => rfl
  | cons c l ih => exact ih ..

@[simp] theorem State.writeBytes_plat (m : Mode) (a : Word) (l : List Byte) : (s.writeBytes m a l).plat = s.plat := by
  induction l generalizing s a with
  | nil => rfl
  | cons c l ih => exact ih ..

@[simp] theorem State.writeBytes_env (m : Mode) (a : Word) (l : List Byte) : (s.writeBytes m a l).env = s.env := by
  induction l generalizing s a with
  | nil => rfl
  | cons c l ih => exact ih ..

@[simp] theorem State.writeBytes_script (m : Mode) (a : Word) (l : List Byte) :
    (s.writeBytes m a l).script = s.script := by
  induction l generalizing s a with
  | nil => rfl
  | cons c l ih => exact ih ..

@[simp] theorem State.drawBytes_pc (m : Mode) (a : Word) (l : List Byte) : (s.drawBytes m a l).pc = s.pc := by
  induction l generalizing s a with
  | nil => rfl
  | cons c l ih => exact ih ..

@[simp] theorem State.drawBytes_regs (m : Mode) (a : Word) (l : List Byte) : (s.drawBytes m a l).regs = s.regs := by
  induction l generalizing s a with
  | nil => rfl
  | cons c l ih => exact ih ..

@[simp] theorem State.drawBytes_altRegs (m : Mode) (a : Word) (l : List Byte) :
    (s.drawBytes m a l).altRegs = s.altRegs := by
  induction l generalizing s a with
  | nil => rfl
  | cons c l ih => exact ih ..

@[simp] theorem State.drawBytes_psr (m : Mode) (a : Word) (l : List Byte) : (s.drawBytes m a l).psr = s.psr := by
  induction l generalizing s a with
  | nil => rfl
  | cons c l ih => exact ih ..

@[simp] theorem State.drawBytes_vbr (m : Mode) (a : Word) (l : List Byte) : (s.drawBytes m a l).vbr = s.vbr := by
  induction l generalizing s a with
  | nil => rfl
  | cons c l ih => exact ih ..

@[simp] theorem State.drawBytes_epc (m : Mode) (a : Word) (l : List Byte) : (s.drawBytes m a l).epc = s.epc := by
  induction l generalizing s a with
  | nil => rfl
  | cons c l ih => exact ih ..

@[simp] theorem State.drawBytes_epsr (m : Mode) (a : Word) (l : List Byte) : (s.drawBytes m a l).epsr = s.epsr := by
  induction l generalizing s a with
  | nil => rfl
  | cons c l ih => exact ih ..

@[simp] theorem State.drawBytes_fpc (m : Mode) (a : Word) (l : List Byte) : (s.drawBytes m a l).fpc = s.fpc := by
  induction l generalizing s a with
  | nil => rfl
  | cons c l ih => exact ih ..

@[simp] theorem State.drawBytes_fpsr (m : Mode) (a : Word) (l : List Byte) : (s.drawBytes m a l).fpsr = s.fpsr := by
  induction l generalizing s a with
  | nil => rfl
  | cons c l ih => exact ih ..

@[simp] theorem State.drawBytes_fetchErr (m : Mode) (a : Word) (l : List Byte) :
    (s.drawBytes m a l).fetchErr = s.fetchErr := by
  induction l generalizing s a with
  | nil => rfl
  | cons c l ih => exact ih ..

@[simp] theorem State.drawBytes_fetchBrk (m : Mode) (a : Word) (l : List Byte) :
    (s.drawBytes m a l).fetchBrk = s.fetchBrk := by
  induction l generalizing s a with
  | nil => rfl
  | cons c l ih => exact ih ..

@[simp] theorem State.drawBytes_dataBrk (m : Mode) (a : Word) (l : List Byte) :
    (s.drawBytes m a l).dataBrk = s.dataBrk := by
  induction l generalizing s a with
  | nil => rfl
  | cons c l ih => exact ih ..

@[simp] theorem State.drawBytes_traceDue (m : Mode) (a : Word) (l : List Byte) :
    (s.drawBytes m a l).traceDue = s.traceDue := by
  induction l generalizing s a with
  | nil => rfl
  | cons c l ih => exact ih ..

@[simp] theorem State.drawBytes_srstSeen (m : Mode) (a : Word) (l : List Byte) :
    (s.drawBytes m a l).srstSeen = s.srstSeen := by
  induction l generalizing s a with
  | nil => rfl
  | cons c l ih => exact ih ..

@[simp] theorem State.drawBytes_lowPower (m : Mode) (a : Word) (l : List Byte) :
    (s.drawBytes m a l).lowPower = s.lowPower := by
  induction l generalizing s a with
  | nil => rfl
  | cons c l ih => exact ih ..

@[simp] theorem State.drawBytes_unrecoverable (m : Mode) (a : Word) (l : List Byte) :
    (s.drawBytes m a l).unrecoverable = s.unrecoverable := by
  induction l generalizing s a with
  | nil => rfl
  | cons c l ih => exact ih ..

@[simp] theorem State.drawBytes_plat (m : Mode) (a : Word) (l : List Byte) : (s.drawBytes m a l).plat = s.plat := by
  induction l generalizing s a with
  | nil => rfl
  | cons c l ih => exact ih ..

@[simp] theorem State.drawBytes_env (m : Mode) (a : Word) (l : List Byte) : (s.drawBytes m a l).env = s.env := by
  induction l generalizing s a with
  | nil => rfl
  | cons c l ih => exact ih ..

@[simp] theorem State.drawBytes_script (m : Mode) (a : Word) (l : List Byte) :
    (s.drawBytes m a l).script = s.script := by
  induction l generalizing s a with
  | nil => rfl
  | cons c l ih => exact ih ..

@[simp] theorem State.writeN_pc (m : Mode) (a : Word) (n : Nat) (v : Word) :
    (s.writeN m a n v).pc = s.pc := State.writeBytes_pc ..
@[simp] theorem State.writeN_regs (m : Mode) (a : Word) (n : Nat) (v : Word) :
    (s.writeN m a n v).regs = s.regs := State.writeBytes_regs ..
@[simp] theorem State.writeN_altRegs (m : Mode) (a : Word) (n : Nat) (v : Word) :
    (s.writeN m a n v).altRegs = s.altRegs := State.writeBytes_altRegs ..
@[simp] theorem State.writeN_psr (m : Mode) (a : Word) (n : Nat) (v : Word) :
    (s.writeN m a n v).psr = s.psr := State.writeBytes_psr ..
@[simp] theorem State.writeN_vbr (m : Mode) (a : Word) (n : Nat) (v : Word) :
    (s.writeN m a n v).vbr = s.vbr := State.writeBytes_vbr ..
@[simp] theorem State.writeN_epc (m : Mode) (a : Word) (n : Nat) (v : Word) :
    (s.writeN m a n v).epc = s.epc := State.writeBytes_epc ..
@[simp] theorem State.writeN_epsr (m : Mode) (a : Word) (n : Nat) (v : Word) :
    (s.writeN m a n v).epsr = s.epsr := State.writeBytes_epsr ..
@[simp] theorem State.writeN_fpc (m : Mode) (a : Word) (n : Nat) (v : Word) :
    (s.writeN m a n v).fpc = s.fpc := State.writeBytes_fpc ..
@[simp] theorem State.writeN_fpsr (m : Mode) (a : Word) (n : Nat) (v : Word) :
    (s.writeN m a n v).fpsr = s.fpsr := State.writeBytes_fpsr ..
@[simp] theorem State.writeN_fetchErr (m : Mode) (a : Word) (n : Nat) (v : Word) :
    (s.writeN m a n v).fetchErr = s.fetchErr := State.writeBytes_fetchErr ..
@[simp] theorem State.writeN_fetchBrk (m : Mode) (a : Word) (n : Nat) (v : Word) :
    (s.writeN m a n v).fetchBrk = s.fetchBrk := State.writeBytes_fetchBrk ..
@[simp] theorem State.writeN_dataBrk (m : Mode) (a : Word) (n : Nat) (v : Word) :
    (s.writeN m a n v).dataBrk = s.dataBrk := State.writeBytes_dataBrk ..
@[simp] theorem State.writeN_traceDue (m : Mode) (a : Word) (n : Nat) (v : Word) :
    (s.writeN m a n v).traceDue = s.traceDue := State.writeBytes_traceDue ..
@[simp] theorem State.writeN_srstSeen (m : Mode) (a : Word) (n : Nat) (v : Word) :
    (s.writeN m a n v).srstSeen = s.srstSeen := State.writeBytes_srstSeen ..
@[simp] theorem State.writeN_lowPower (m : Mode) (a : Word) (n : Nat) (v : Word) :
    (s.writeN m a n v).lowPower = s.lowPower := State.writeBytes_lowPower ..
@[simp] theorem State.writeN_unrecoverable (m : Mode) (a : Word) (n : Nat) (v : Word) :
    (s.writeN m a n v).unrecoverable = s.unrecoverable := State.writeBytes_unrecoverable ..
@[simp] theorem State.writeN_draws (m : Mode) (a : Word) (n : Nat) (v : Word) :
    (s.writeN m a n v).draws = s.draws := State.writeBytes_draws ..
@[simp] theorem State.writeN_plat (m : Mode) (a : Word) (n : Nat) (v : Word) :
    (s.writeN m a n v).plat = s.plat := State.writeBytes_plat ..
@[simp] theorem State.writeN_env (m : Mode) (a : Word) (n : Nat) (v : Word) :
    (s.writeN m a n v).env = s.env := State.writeBytes_env ..
@[simp] theorem State.writeN_script (m : Mode) (a : Word) (n : Nat) (v : Word) :
    (s.writeN m a n v).script = s.script := State.writeBytes_script ..

@[simp] theorem State.storeRegs_pc (s0 : State) (a : Word) (l : List Reg) :
    (s.storeRegs s0 a l).pc = s.pc := by
  induction l generalizing s a with
  | nil => rfl
  | cons c l ih => exact (ih ..).trans (State.writeN_pc ..)

@[simp] theorem State.storeRegs_regs (s0 : State) (a : Word) (l : List Reg) :
    (s.storeRegs s0 a l).regs = s.regs := by
  induction l generalizing s a with
  | nil => rfl
  | cons c l ih => exact (ih ..).trans (State.writeN_regs ..)

@[simp] theorem State.storeRegs_altRegs (s0 : State) (a : Word) (l : List Reg) :
    (s.storeRegs s0 a l).altRegs = s.altRegs := by
  induction l generalizing s a with
  | nil => rfl
  | cons c l ih => exact (ih ..).trans (State.writeN_altRegs ..)

@[simp] theorem State.storeRegs_psr (s0 : State) (a : Word) (l : List Reg) :
    (s.storeRegs s0 a l).psr = s.psr := by
  induction l generalizing s a with
  | nil => rfl
  | cons c l ih => exact (ih ..).trans (State.writeN_psr ..)

@[simp] theorem State.storeRegs_vbr (s0 : State) (a : Word) (l : List Reg) :
    (s.storeRegs s0 a l).vbr = s.vbr := by
  induction l generalizing s a with
  | nil => rfl
  | cons c l ih => exact (ih ..).trans (State.writeN_vbr ..)

@[simp] theorem State.storeRegs_epc (s0 : State) (a : Word) (l : List Reg) :
    (s.storeRegs s0 a l).epc = s.epc := by
  induction l generalizing s a with
  | nil => rfl
  | cons c l ih => exact (ih ..).trans (State.writeN_epc ..)

@[simp] theorem State.storeRegs_epsr (s0 : State) (a : Word) (l : List Reg) :
    (s.storeRegs s0 a l).epsr = s.epsr := by
  induction l generalizing s a with
  | nil => rfl
  | cons c l ih => exact (ih ..).trans (State.writeN_epsr ..)

@[simp] theorem State.storeRegs_fpc (s0 : State) (a : Word) (l : List Reg) :
    (s.storeRegs s0 a l).fpc = s.fpc := by
  induction l generalizing s a with
  | nil => rfl
  | cons c l ih => exact (ih ..).trans (State.writeN_fpc ..)

@[simp] theorem State.storeRegs_fpsr (s0 : State) (a : Word) (l : List Reg) :
    (s.storeRegs s0 a l).fpsr = s.fpsr := by
  induction l generalizing s a with
  | nil => rfl
  | cons c l ih => exact (ih ..).trans (State.writeN_fpsr ..)

@[simp] theorem State.storeRegs_fetchErr (s0 : State) (a : Word) (l : List Reg) :
    (s.storeRegs s0 a l).fetchErr = s.fetchErr := by
  induction l generalizing s a with
  | nil => rfl
  | cons c l ih => exact (ih ..).trans (State.writeN_fetchErr ..)

@[simp] theorem State.storeRegs_fetchBrk (s0 : State) (a : Word) (l : List Reg) :
    (s.storeRegs s0 a l).fetchBrk = s.fetchBrk := by
  induction l generalizing s a with
  | nil => rfl
  | cons c l ih => exact (ih ..).trans (State.writeN_fetchBrk ..)

@[simp] theorem State.storeRegs_dataBrk (s0 : State) (a : Word) (l : List Reg) :
    (s.storeRegs s0 a l).dataBrk = s.dataBrk := by
  induction l generalizing s a with
  | nil => rfl
  | cons c l ih => exact (ih ..).trans (State.writeN_dataBrk ..)

@[simp] theorem State.storeRegs_traceDue (s0 : State) (a : Word) (l : List Reg) :
    (s.storeRegs s0 a l).traceDue = s.traceDue := by
  induction l generalizing s a with
  | nil => rfl
  | cons c l ih => exact (ih ..).trans (State.writeN_traceDue ..)

@[simp] theorem State.storeRegs_srstSeen (s0 : State) (a : Word) (l : List Reg) :
    (s.storeRegs s0 a l).srstSeen = s.srstSeen := by
  induction l generalizing s a with
  | nil => rfl
  | cons c l ih => exact (ih ..).trans (State.writeN_srstSeen ..)

@[simp] theorem State.storeRegs_lowPower (s0 : State) (a : Word) (l : List Reg) :
    (s.storeRegs s0 a l).lowPower = s.lowPower := by
  induction l generalizing s a with
  | nil => rfl
  | cons c l ih => exact (ih ..).trans (State.writeN_lowPower ..)

@[simp] theorem State.storeRegs_unrecoverable (s0 : State) (a : Word) (l : List Reg) :
    (s.storeRegs s0 a l).unrecoverable = s.unrecoverable := by
  induction l generalizing s a with
  | nil => rfl
  | cons c l ih => exact (ih ..).trans (State.writeN_unrecoverable ..)

@[simp] theorem State.storeRegs_draws (s0 : State) (a : Word) (l : List Reg) :
    (s.storeRegs s0 a l).draws = s.draws := by
  induction l generalizing s a with
  | nil => rfl
  | cons c l ih => exact (ih ..).trans (State.writeN_draws ..)

@[simp] theorem State.storeRegs_plat (s0 : State) (a : Word) (l : List Reg) :
    (s.storeRegs s0 a l).plat = s.plat := by
  induction l generalizing s a with
  | nil => rfl
  | cons c l ih => exact (ih ..).trans (State.writeN_plat ..)

@[simp] theorem State.storeRegs_env (s0 : State) (a : Word) (l : List Reg) :
    (s.storeRegs s0 a l).env = s.env := by
  induction l generalizing s a with
  | nil => rfl
  | cons c l ih => exact (ih ..).trans (State.writeN_env ..)

@[simp] theorem State.storeRegs_script (s0 : State) (a : Word) (l : List Reg) :
    (s.storeRegs s0 a l).script = s.script := by
  induction l generalizing s a with
  | nil => rfl
  | cons c l ih => exact (ih ..).trans (State.writeN_script ..)

/-! `ILEN` (R2) is the platform's, so no update changes it. -/

theorem State.ilen_congr {s t : State} (h : t.plat = s.plat) : t.ilen = s.ilen := by rw [State.ilen, State.ilen, h]

@[simp] theorem State.noteBrk_ilen : s.noteBrk.ilen = s.ilen :=
  State.ilen_congr (State.noteBrk_plat ..)
@[simp] theorem State.setReg_ilen (r : Reg) (v : Word) : (s.setReg r v).ilen = s.ilen :=
  State.ilen_congr (State.setReg_plat ..)
@[simp] theorem State.writeByte_ilen (m : Mode) (a : Word) (b : Byte) : (s.writeByte m a b).ilen = s.ilen :=
  State.ilen_congr (State.writeByte_plat ..)
@[simp] theorem State.drawByte_ilen (m : Mode) (a : Word) (b : Byte) : (s.drawByte m a b).ilen = s.ilen :=
  State.ilen_congr (State.drawByte_plat ..)
@[simp] theorem State.drawReg_ilen (r : Reg) (v : Word) : (s.drawReg r v).ilen = s.ilen :=
  State.ilen_congr (State.drawReg_plat ..)
@[simp] theorem State.drawCore_ilen : s.drawCore.ilen = s.ilen :=
  State.ilen_congr (State.drawCore_plat ..)
@[simp] theorem State.drawMem_ilen : s.drawMem.ilen = s.ilen :=
  State.ilen_congr (State.drawMem_plat ..)
@[simp] theorem State.retireOther_ilen (t : Tm) : (s.retireOther t).ilen = s.ilen :=
  State.ilen_congr (State.retireOther_plat ..)
@[simp] theorem State.retire_ilen (i : Instr) (t : Tm) (a : Word) : (s.retire i t a).ilen = s.ilen :=
  State.ilen_congr (State.retire_plat ..)
@[simp] theorem State.flow_ilen (i : Instr) (t : Tm) (b : Bool) (a : Word) : (s.flow i t b a).ilen = s.ilen :=
  State.ilen_congr (State.flow_plat ..)
@[simp] theorem State.latch_ilen : s.latch.ilen = s.ilen :=
  State.ilen_congr (State.latch_plat ..)
@[simp] theorem State.advance_ilen : s.advance.ilen = s.ilen :=
  State.ilen_congr (State.advance_plat ..)
@[simp] theorem State.scramble_ilen : s.scramble.ilen = s.ilen :=
  State.ilen_congr (State.scramble_plat ..)
@[simp] theorem State.setRegs_ilen (l : List (Reg × Word)) : (s.setRegs l).ilen = s.ilen :=
  State.ilen_congr (State.setRegs_plat ..)
@[simp] theorem State.drawRegs_ilen (l : List (Reg × Word)) : (s.drawRegs l).ilen = s.ilen :=
  State.ilen_congr (State.drawRegs_plat ..)
@[simp] theorem State.writeBytes_ilen (m : Mode) (a : Word) (l : List Byte) : (s.writeBytes m a l).ilen = s.ilen :=
  State.ilen_congr (State.writeBytes_plat ..)
@[simp] theorem State.drawBytes_ilen (m : Mode) (a : Word) (l : List Byte) : (s.drawBytes m a l).ilen = s.ilen :=
  State.ilen_congr (State.drawBytes_plat ..)
@[simp] theorem State.writeN_ilen (m : Mode) (a : Word) (n : Nat) (v : Word) :
    (s.writeN m a n v).ilen = s.ilen :=
  State.ilen_congr (State.writeN_plat ..)
@[simp] theorem State.storeRegs_ilen (s0 : State) (a : Word) (l : List Reg) :
    (s.storeRegs s0 a l).ilen = s.ilen :=
  State.ilen_congr (State.storeRegs_plat ..)

end Unchanged

section Written

variable (s : State)

@[simp] theorem State.noteBrk_dataBrk : s.noteBrk.dataBrk = (s.dataBrk || s.env.dataBrk) := rfl
@[simp] theorem State.retire_pc (i : Instr) (t : Tm) (a : Word) : (s.retire i t a).pc = a := rfl
@[simp] theorem State.retire_traceDue (i : Instr) (t : Tm) (a : Word) :
    (s.retire i t a).traceDue = isTraceDue i t := rfl
@[simp] theorem State.flow_pc (i : Instr) (t : Tm) (b : Bool) (a : Word) :
    (s.flow i t b a).pc = if b then a else s.pc + s.ilen := rfl
@[simp] theorem State.flow_traceDue (i : Instr) (t : Tm) (b : Bool) (a : Word) :
    (s.flow i t b a).traceDue = isTraceDue i t := rfl
@[simp] theorem State.flow_fetchErr (i : Instr) (t : Tm) (b : Bool) (a : Word) :
    (s.flow i t b a).fetchErr = keptTags b a s.fetchErr := rfl
@[simp] theorem State.flow_fetchBrk (i : Instr) (t : Tm) (b : Bool) (a : Word) :
    (s.flow i t b a).fetchBrk = keptTags b a s.fetchBrk := rfl
@[simp] theorem State.advance_env : s.advance.env = s.script.headD {} := rfl
@[simp] theorem State.advance_script : s.advance.script = s.script.tail := rfl

end Written

/-- Forcing the low bits of VBR twice is forcing them once. -/
@[simp] theorem Platform.forceVbr_forceVbr (p : Platform) (v : Word) : p.forceVbr (p.forceVbr v) = p.forceVbr v := by
  refine BitVec.eq_of_getLsbD_eq fun i hi => ?_
  simp only [Platform.forceVbr, BitVec.getLsbD_shiftLeft, BitVec.getLsbD_ushiftRight]
  by_cases h : i < p.vbrAlign
  · simp [h]
  · have : p.vbrAlign + (i - p.vbrAlign) = i := by omega
    simp [h, this, hi]

@[simp] theorem Platform.forceVbr_zero (p : Platform) : p.forceVbr 0 = 0 := by simp [Platform.forceVbr]

/-- A platform that forces no bit of VBR keeps it as written. -/
theorem Platform.forceVbr_of_none {p : Platform} (h : p.vbrAlign = 0) (v : Word) : p.forceVbr v = v := by
  simp [Platform.forceVbr, h]

/-- The fetch tags that a taken change of flow keeps. -/
theorem mem_keptTags_taken (a b : Word) (l : List Word) : b ∈ keptTags true a l ↔ b = a ∧ b ∈ l := by
  simp [keptTags, and_comm]

end Sys2Proof.Machine
end

