-- ==== Sys2Proof/Laws/Bytes.lean ====
section
/-! SUPPORT. Laws of the multi-byte accesses: a read as the bytes it joins, what a store leaves alone, what reading back a
store gives, and that every store keeps the canonical form. -/

namespace Sys2Proof.Machine

/-! ### Joining and splitting -/

theorem wordOfBytes_four (a b c d : Byte) : wordOfBytes [a, b, c, d] = a ++ b ++ c ++ d := by
  apply BitVec.eq_of_getLsbD_eq
  intro i hi
  have e : (a ++ b ++ c ++ d).getLsbD i = BitVec.getLsbD (w := 32) (a ++ b ++ c ++ d) i := rfl
  rw [← e]
  simp only [BitVec.getLsbD_append, wordOfBytes, List.foldl]
  interval_cases i <;> simp

theorem wordOfBytes_two (a b : Byte) : wordOfBytes [a, b] = (a ++ b).setWidth 32 := by
  apply BitVec.eq_of_getLsbD_eq
  intro i hi
  simp only [BitVec.getLsbD_append, BitVec.getLsbD_setWidth, wordOfBytes, List.foldl]
  interval_cases i <;> simp

theorem wordOfBytes_one (a : Byte) : wordOfBytes [a] = a.setWidth 32 := by
  simp [wordOfBytes]

/-- The four bytes of a word make it again. -/
theorem bytes_append_four (v : Word) :
    (v >>> 24).setWidth 8 ++ (v >>> 16).setWidth 8 ++ (v >>> 8).setWidth 8 ++ v.setWidth 8 = v := by
  apply BitVec.eq_of_getLsbD_eq
  intro i hi
  simp only [BitVec.getLsbD_append, BitVec.getLsbD_setWidth]
  interval_cases i <;> simp

/-- The two low bytes of a word make its low half. -/
theorem bytes_append_two (v : Word) : (v >>> 8).setWidth 8 ++ v.setWidth 8 = v.setWidth 16 := by
  apply BitVec.eq_of_getLsbD_eq
  intro i hi
  simp only [BitVec.getLsbD_append, BitVec.getLsbD_setWidth]
  interval_cases i <;> simp

@[simp] theorem bytesOfWord_length (v : Word) (n : Nat) : (bytesOfWord v n).length = n := by
  induction n with
  | zero => rfl
  | succ n ih => simp [bytesOfWord, ih]

@[simp] theorem splitWord_length (be : Bool) (v : Word) (n : Nat) : (splitWord be v n).length = n := by
  cases be <;> simp [splitWord]

theorem bytesOfWord_getElem (v : Word) (n k : Nat) (h : k < n) :
    (bytesOfWord v n)[k]'(by simpa) = (v >>> (8 * (n - 1 - k))).setWidth 8 := by
  induction n generalizing k with
  | zero => omega
  | succ n ih =>
    cases k with
    | zero => simp [bytesOfWord]
    | succ k => simp only [bytesOfWord, List.getElem_cons_succ]; rw [ih k (by omega)]; congr 3; omega

/-- Byte `k`, in address order, of the `n` bytes of a value (R48). -/
theorem splitWord_getElem (be : Bool) (v : Word) (n k : Nat) (h : k < n) :
    (splitWord be v n)[k]'(by simpa) = (v >>> (8 * (if be then n - 1 - k else k))).setWidth 8 := by
  cases be
  · simp only [splitWord, Bool.false_eq_true, if_false, List.getElem_reverse]
    rw [bytesOfWord_getElem _ _ _ (by simp; omega)]
    simp only [bytesOfWord_length]
    congr 3; omega
  · simp only [splitWord, if_true]
    exact bytesOfWord_getElem v n k h

/-! ### Reads -/

theorem add_ofNat_zero (a : Word) : a + BitVec.ofNat 32 0 = a := by simp

theorem add_one_ofNat (a : Word) (k : Nat) : a + 1 + BitVec.ofNat 32 k = a + BitVec.ofNat 32 (k + 1) := by
  rw [BitVec.add_assoc]; congr 1; rw [Nat.add_comm k 1, BitVec.ofNat_add]; rfl

/-- A four-byte read gives the word at the address. -/
theorem State.readN_four (s : State) (m : Mode) (a : Word) : s.readN m a 4 = s.wordAt m a := by
  have h1 : a + 1 + 1 = a + BitVec.ofNat 32 2 := add_one_ofNat a 1
  have h2 : a + BitVec.ofNat 32 2 + 1 = a + BitVec.ofNat 32 3 := by rw [BitVec.add_assoc]; rfl
  simp only [State.readN, State.readBytes, joinBytes, State.wordAt, State.byteAt, h1, h2, add_ofNat_zero]
  cases s.plat.bigEndian <;> simp [wordOfBytes_four]

/-- A two-byte read gives the zero-extended half at the address. -/
theorem State.readN_two (s : State) (m : Mode) (a : Word) : s.readN m a 2 = (s.halfAt m a).setWidth 32 := by
  simp only [State.readN, State.readBytes, joinBytes, State.halfAt, State.byteAt, add_ofNat_zero]
  cases s.plat.bigEndian <;> simp [wordOfBytes_two]

/-- A one-byte read gives the zero-extended byte at the address. -/
theorem State.readN_one (s : State) (m : Mode) (a : Word) : s.readN m a 1 = (s.byteAt m a 0).setWidth 32 := by
  simp only [State.readN, State.readBytes, joinBytes, State.byteAt, add_ofNat_zero]
  cases s.plat.bigEndian <;> simp [wordOfBytes_one]

/-- Two states whose bytes agree from `a` on have the same word there. -/
theorem State.wordAt_congr {s t : State} (m : Mode) (a : Word) (hp : t.plat = s.plat)
    (h : ∀ k < 4, t.byteAt m a k = s.byteAt m a k) : t.wordAt m a = s.wordAt m a := by
  simp only [State.wordAt, hp, h 0 (by omega), h 1 (by omega), h 2 (by omega), h 3 (by omega)]

/-! ### Stores -/

theorem State.key_congr {s t : State} (hp : t.plat = s.plat) (m : Mode) (a : Word) : t.key m a = s.key m a := by
  cases m <;> simp [State.key, hp]

@[simp] theorem State.writeByte_key (s : State) (m : Mode) (a : Word) (b : Byte) (m' : Mode) (a' : Word) :
    (s.writeByte m a b).key m' a' = s.key m' a' := State.key_congr rfl m' a'

/-- Addresses less than 2^32 apart have different keys. -/
theorem State.key_ne {s : State} (m : Mode) (a : Word) {j k : Nat} (hj : j < 2 ^ 32) (hk : k < 2 ^ 32) (h : j ≠ k) :
    s.key m (a + BitVec.ofNat 32 j) ≠ s.key m (a + BitVec.ofNat 32 k) := by
  intro he
  have := congrArg BitVec.toNat (BitVec.add_right_inj a |>.mp (State.key_inj he))
  simp only [BitVec.toNat_ofNat] at this
  omega

/-- A store leaves every byte outside it alone. -/
theorem State.writeBytes_other (s : State) (m : Mode) (a : Word) (l : List Byte) (m' : Mode) (a' : Word)
    (h : ∀ k < l.length, s.key m' a' ≠ s.key m (a + BitVec.ofNat 32 k)) :
    (s.writeBytes m a l).readByte m' a' = s.readByte m' a' := by
  induction l generalizing s a with
  | nil => rfl
  | cons b l ih =>
    rw [State.writeBytes, ih]
    · exact State.readByte_writeByte_other _ _ _ _ _ _ (by simpa using h 0 (by simp))
    · intro k hk
      simpa only [State.writeByte_key, add_one_ofNat] using h (k + 1) (by simpa using hk)

theorem State.writeBytes_wf {s : State} (h : Memory.wf s.mem = true) (m : Mode) (a : Word) (l : List Byte) :
    Memory.wf (s.writeBytes m a l).mem = true := by
  induction l generalizing s a with
  | nil => exact h
  | cons b l ih => exact ih (State.writeByte_wf h m a b) _

/-- Reading back a byte of a store gives it. -/
theorem State.writeBytes_same {s : State} (hw : Memory.wf s.mem = true) (m : Mode) (a : Word) (l : List Byte)
    (hl : l.length ≤ 2 ^ 32) (k : Nat) (hk : k < l.length) : (s.writeBytes m a l).byteAt m a k = l[k] := by
  induction l generalizing s a k with
  | nil => simp at hk
  | cons b l ih =>
    simp only [List.length_cons] at hl hk
    cases k with
    | zero =>
      rw [State.writeBytes, State.byteAt, add_ofNat_zero, State.writeBytes_other]
      · exact State.readByte_writeByte_same hw m a b
      · intro k hk
        rw [add_one_ofNat, ← add_ofNat_zero a, State.writeByte_key, State.writeByte_key]
        simpa using State.key_ne (s := s) m a (j := 0) (k := k + 1) (by omega) (by omega) (by omega)
    | succ k =>
      have := ih (State.writeByte_wf hw m a b) (a + 1) (by omega) k (by omega)
      rwa [State.byteAt, add_one_ofNat] at this

theorem State.writeN_wf {s : State} (h : Memory.wf s.mem = true) (m : Mode) (a : Word) (n : Nat) (v : Word) :
    Memory.wf (s.writeN m a n v).mem = true := State.writeBytes_wf h m a _

theorem State.writeN_other (s : State) (m : Mode) (a : Word) (n : Nat) (v : Word) (m' : Mode) (a' : Word)
    (h : ∀ k < n, s.key m' a' ≠ s.key m (a + BitVec.ofNat 32 k)) :
    (s.writeN m a n v).readByte m' a' = s.readByte m' a' :=
  State.writeBytes_other s m a _ m' a' (by simpa using h)

/-- Reading back byte `k` of an `n`-byte store gives that byte of the value, in the platform's byte order (R48). -/
theorem State.writeN_byteAt {s : State} (hw : Memory.wf s.mem = true) (m : Mode) (a : Word) (n : Nat) (v : Word)
    (hn : n ≤ 2 ^ 32) (k : Nat) (hk : k < n) :
    (s.writeN m a n v).byteAt m a k = (v >>> (8 * (if s.plat.bigEndian then n - 1 - k else k))).setWidth 8 := by
  rw [State.writeN, State.writeBytes_same hw m a _ (by simpa) k (by simpa), splitWord_getElem _ _ _ _ hk]

/-- Reading back a stored word gives it. -/
theorem State.writeN_wordAt {s : State} (hw : Memory.wf s.mem = true) (m : Mode) (a : Word) (v : Word) :
    (s.writeN m a 4 v).wordAt m a = v := by
  simp only [State.wordAt, State.writeN_plat, State.writeN_byteAt hw m a 4 v (by omega) 0 (by omega),
    State.writeN_byteAt hw m a 4 v (by omega) 1 (by omega), State.writeN_byteAt hw m a 4 v (by omega) 2 (by omega),
    State.writeN_byteAt hw m a 4 v (by omega) 3 (by omega)]
  cases s.plat.bigEndian <;> simpa using bytes_append_four v

/-- Reading back a stored half gives it. -/
theorem State.writeN_halfAt {s : State} (hw : Memory.wf s.mem = true) (m : Mode) (a : Word) (v : Word) :
    (s.writeN m a 2 v).halfAt m a = v.setWidth 16 := by
  simp only [State.halfAt, State.writeN_plat, State.writeN_byteAt hw m a 2 v (by omega) 0 (by omega),
    State.writeN_byteAt hw m a 2 v (by omega) 1 (by omega)]
  cases s.plat.bigEndian <;> simpa using bytes_append_two v

/-- The keys a store adds to those stored to (R53). -/
theorem State.mem_writeBytes_stored (s : State) (m : Mode) (a : Word) (l : List Byte) (j : Nat) :
    j ∈ (s.writeBytes m a l).stored ↔ j ∈ s.stored ∨ ∃ k < l.length, j = s.key m (a + BitVec.ofNat 32 k) := by
  induction l generalizing s a with
  | nil => simp [State.writeBytes]
  | cons b l ih =>
    simp only [State.writeBytes, ih, add_one_ofNat, State.writeByte, List.mem_insert_iff,
      List.length_cons, Nat.exists_lt_succ_left, add_ofNat_zero]
    tauto

theorem State.mem_writeN_stored (s : State) (m : Mode) (a : Word) (n : Nat) (v : Word) (j : Nat) :
    j ∈ (s.writeN m a n v).stored ↔ j ∈ s.stored ∨ ∃ k < n, j = s.key m (a + BitVec.ofNat 32 k) := by
  simpa [State.writeN] using State.mem_writeBytes_stored s m a (splitWord s.plat.bigEndian v n) j

/-! ### Stores that TEA# ended -/

@[simp] theorem State.drawByte_key (s : State) (m : Mode) (a : Word) (b : Byte) (m' : Mode) (a' : Word) :
    (s.drawByte m a b).key m' a' = s.key m' a' := State.key_congr rfl m' a'

theorem State.drawByte_other (s : State) (m : Mode) (a : Word) (b : Byte) (m' : Mode) (a' : Word)
    (h : s.key m' a' ≠ s.key m a) : (s.drawByte m a b).readByte m' a' = s.readByte m' a' :=
  State.readByte_writeByte_other s m a _ m' a' h

/-- Where the platform has it so, a byte of a store that TEA# ended is old or new (R45). -/
theorem State.drawByte_same {s : State} (hw : Memory.wf s.mem = true) (hp : s.plat.teaWriteAny = false) (m : Mode)
    (a : Word) (b : Byte) :
    (s.drawByte m a b).readByte m a = s.readByte m a ∨ (s.drawByte m a b).readByte m a = b := by
  have h : (s.drawByte m a b).readByte m a = if Config.freeBit s.draws then b else s.readByte m a :=
    (State.readByte_writeByte_same hw m a _).trans (by rw [hp, if_neg Bool.false_ne_true])
  rw [h]
  split
  · exact .inr rfl
  · exact .inl rfl

theorem State.drawByte_wf {s : State} (hw : Memory.wf s.mem = true) (m : Mode) (a : Word) (b : Byte) :
    Memory.wf (s.drawByte m a b).mem = true := State.writeByte_wf hw m a _

theorem State.drawBytes_wf {s : State} (hw : Memory.wf s.mem = true) (m : Mode) (a : Word) (l : List Byte) :
    Memory.wf (s.drawBytes m a l).mem = true := by
  induction l generalizing s a with
  | nil => exact hw
  | cons b l ih => exact ih (State.drawByte_wf hw m a b) _

/-- A store that TEA# ended is remembered as a store (R53). -/
theorem State.mem_drawBytes_stored (s : State) (m : Mode) (a : Word) (l : List Byte) (j : Nat) :
    j ∈ (s.drawBytes m a l).stored ↔ j ∈ s.stored ∨ ∃ k < l.length, j = s.key m (a + BitVec.ofNat 32 k) := by
  induction l generalizing s a with
  | nil => simp [State.drawBytes]
  | cons b l ih =>
    simp only [State.drawBytes, ih, add_one_ofNat, State.drawByte, State.writeByte,
      List.mem_insert_iff, List.length_cons, Nat.exists_lt_succ_left, add_ofNat_zero]
    tauto

/-- A store that TEA# ended leaves every byte outside it alone. -/
theorem State.drawBytes_other (s : State) (m : Mode) (a : Word) (l : List Byte) (m' : Mode) (a' : Word)
    (h : ∀ k < l.length, s.key m' a' ≠ s.key m (a + BitVec.ofNat 32 k)) :
    (s.drawBytes m a l).readByte m' a' = s.readByte m' a' := by
  induction l generalizing s a with
  | nil => rfl
  | cons b l ih =>
    rw [State.drawBytes, ih]
    · exact State.drawByte_other _ _ _ _ _ _ (by simpa using h 0 (by simp))
    · intro k hk
      simpa only [State.drawByte_key, add_one_ofNat] using h (k + 1) (by simpa using hk)

/-- Where the platform has it so, each byte of a store that TEA# ended is old or new. -/
theorem State.drawBytes_same {s : State} (hw : Memory.wf s.mem = true) (hp : s.plat.teaWriteAny = false) (m : Mode)
    (a : Word) (l : List Byte) (hl : l.length ≤ 2 ^ 32) (k : Nat) (hk : k < l.length) :
    (s.drawBytes m a l).byteAt m a k = s.byteAt m a k ∨ (s.drawBytes m a l).byteAt m a k = l[k] := by
  induction l generalizing s a k with
  | nil => simp at hk
  | cons b l ih =>
    simp only [List.length_cons] at hl hk
    cases k with
    | zero =>
      rw [State.drawBytes, State.byteAt, State.byteAt, add_ofNat_zero, State.drawBytes_other]
      · exact State.drawByte_same hw hp m a b
      · intro k hk
        rw [add_one_ofNat, ← add_ofNat_zero a, State.drawByte_key, State.drawByte_key]
        simpa using State.key_ne (s := s) m a (j := 0) (k := k + 1) (by omega) (by omega) (by omega)
    | succ k =>
      have := ih (State.drawByte_wf hw m a b) hp (a + 1) (by omega) k (by omega)
      rw [State.byteAt, State.byteAt, add_one_ofNat] at this
      rw [State.byteAt, State.byteAt, State.drawBytes, List.getElem_cons_succ]
      rcases this with h | h
      · refine .inl (h.trans (State.drawByte_other _ _ _ _ _ _ ?_))
        nth_rw 2 [← add_ofNat_zero a]
        exact State.key_ne m a (by omega) (by omega) (by omega)
      · exact .inr h

end Sys2Proof.Machine
end

