-- ==== Sys2Proof/Laws/Regs.lean ====
section
/-! SUPPORT. Laws of the general registers: what a read gives after a write, a list of writes, and a list of draws of old or
new values (R3, R28, D20, D27). -/

namespace Sys2Proof.Machine

/-! ### Reads -/

/-- A register read depends on the two banks and PSR.AF only. -/
theorem State.reg_congr {s t : State} (h1 : t.regs = s.regs) (h2 : t.altRegs = s.altRegs)
    (h3 : t.psr.af = s.psr.af) (r : Reg) : t.reg r = s.reg r := by
  simp only [State.reg, h1, h2, h3]

theorem State.otherReg_congr {s t : State} (h1 : t.regs = s.regs) (h2 : t.altRegs = s.altRegs)
    (h3 : t.psr.af = s.psr.af) (r : Reg) : t.otherReg r = s.otherReg r := by
  simp only [State.otherReg, h1, h2, h3]

/-- The frame of an update that touches no general register and keeps PSR.AF. -/
theorem SameRegsBut.of_eq {s t : State} (h1 : t.regs = s.regs) (h2 : t.altRegs = s.altRegs)
    (h3 : t.psr.af = s.psr.af) (rs : List Reg) : SameRegsBut s t rs :=
  ⟨fun r _ => State.reg_congr h1 h2 h3 r, fun r => State.otherReg_congr h1 h2 h3 r⟩

theorem SameRegsBut.refl (s : State) (rs : List Reg) : SameRegsBut s s rs := ⟨fun _ _ => rfl, fun _ => rfl⟩

theorem SameRegsBut.trans {s t u : State} {rs : List Reg} (h : SameRegsBut s t rs) (h' : SameRegsBut t u rs) :
    SameRegsBut s u rs :=
  ⟨fun r hr => (h'.1 r hr).trans (h.1 r hr), fun r => (h'.2 r).trans (h.2 r)⟩

theorem SameRegsBut.mono {s t : State} {rs rs' : List Reg} (h : SameRegsBut s t rs) (hs : ∀ r ∈ rs, r ∈ rs') :
    SameRegsBut s t rs' :=
  ⟨fun r hr => h.1 r fun hr' => hr (hs r hr'), h.2⟩

section Reads

variable (s : State) (r : Reg)

@[simp] theorem State.reg_noteBrk : s.noteBrk.reg r = s.reg r := rfl
@[simp] theorem State.reg_latch : s.latch.reg r = s.reg r := rfl
@[simp] theorem State.reg_retire (i : Instr) (t : Tm) (a : Word) : (s.retire i t a).reg r = s.reg r := rfl
@[simp] theorem State.reg_flow (i : Instr) (t : Tm) (b : Bool) (a : Word) : (s.flow i t b a).reg r = s.reg r := rfl
@[simp] theorem State.reg_writeByte (m : Mode) (a : Word) (b : Byte) : (s.writeByte m a b).reg r = s.reg r := rfl
@[simp] theorem State.reg_writeBytes (m : Mode) (a : Word) (l : List Byte) : (s.writeBytes m a l).reg r = s.reg r :=
  State.reg_congr (by simp) (by simp) (by simp) r
@[simp] theorem State.reg_writeN (m : Mode) (a : Word) (n : Nat) (v : Word) : (s.writeN m a n v).reg r = s.reg r :=
  State.reg_writeBytes ..

end Reads

/-! ### One write -/

theorem State.reg_setReg_same (s : State) (r : Reg) (v : Word) : (s.setReg r v).reg r = v := by
  simp only [State.reg, State.setReg]
  split <;> simp [*]

theorem State.reg_setReg_other (s : State) {r r' : Reg} (v : Word) (h : r' ≠ r) :
    (s.setReg r v).reg r' = s.reg r' := by
  have h' : r.toNat ≠ r'.toNat := fun e => h (BitVec.eq_of_toNat_eq e.symm)
  simp only [State.reg, State.setReg]
  split <;> simp [*, Vector.getElem_set_ne]

theorem State.reg_setReg (s : State) (r r' : Reg) (v : Word) :
    (s.setReg r v).reg r' = if r' = r then v else s.reg r' := by
  split
  · next h => rw [h, State.reg_setReg_same]
  · next h => exact State.reg_setReg_other s v h

theorem State.otherReg_setReg (s : State) (r r' : Reg) (v : Word) : (s.setReg r v).otherReg r' = s.otherReg r' := by
  simp only [State.otherReg, State.setReg]
  split <;> simp [*]

/-- The frame of a register write. -/
theorem SameRegsBut.setReg (s : State) (r : Reg) (v : Word) : SameRegsBut s (s.setReg r v) [r] :=
  ⟨fun r' h => State.reg_setReg_other s v (by simpa using h), fun r' => State.otherReg_setReg s r r' v⟩

/-! ### Lists of writes -/

theorem State.reg_setRegs_other (s : State) (l : List (Reg × Word)) (r : Reg) (h : r ∉ l.map (·.1)) :
    (s.setRegs l).reg r = s.reg r := by
  induction l generalizing s with
  | nil => rfl
  | cons c l ih =>
    simp only [List.map_cons, List.mem_cons, not_or] at h
    rw [State.setRegs, ih _ h.2, State.reg_setReg_other _ _ h.1]

/-- A register written once in a list of writes holds its value. -/
theorem State.reg_setRegs_mem (s : State) (l : List (Reg × Word)) (hd : (l.map (·.1)).Nodup) (r : Reg) (v : Word)
    (h : (r, v) ∈ l) : (s.setRegs l).reg r = v := by
  induction l generalizing s with
  | nil => simp at h
  | cons c l ih =>
    simp only [List.map_cons, List.nodup_cons] at hd
    rcases List.mem_cons.mp h with rfl | h
    · rw [State.setRegs, State.reg_setRegs_other _ _ _ hd.1, State.reg_setReg_same]
    · exact ih _ hd.2 h

theorem SameRegsBut.setRegs (s : State) (l : List (Reg × Word)) : SameRegsBut s (s.setRegs l) (l.map (·.1)) := by
  induction l generalizing s with
  | nil => exact SameRegsBut.refl s _
  | cons c l ih =>
    exact ((SameRegsBut.setReg s c.1 c.2).mono (by simp)).trans ((ih _).mono (by simp +contextual))

/-! ### Draws of old or new -/

theorem State.reg_drawReg_other (s : State) {r r' : Reg} (v : Word) (h : r' ≠ r) :
    (s.drawReg r v).reg r' = s.reg r' := State.reg_setReg_other s _ h

theorem State.reg_drawReg_same (s : State) (r : Reg) (v : Word) :
    (s.drawReg r v).reg r = s.reg r ∨ (s.drawReg r v).reg r = v := by
  have h : (s.drawReg r v).reg r = if Config.freeBit s.draws then v else s.reg r :=
    State.reg_setReg_same s r _
  rw [h]; split
  · exact .inr rfl
  · exact .inl rfl

theorem SameRegsBut.drawReg (s : State) (r : Reg) (v : Word) : SameRegsBut s (s.drawReg r v) [r] :=
  SameRegsBut.setReg s r _

theorem State.reg_drawRegs_other (s : State) (l : List (Reg × Word)) (r : Reg) (h : r ∉ l.map (·.1)) :
    (s.drawRegs l).reg r = s.reg r := by
  induction l generalizing s with
  | nil => rfl
  | cons c l ih =>
    simp only [List.map_cons, List.mem_cons, not_or] at h
    rw [State.drawRegs, ih _ h.2, State.reg_drawReg_other _ _ h.1]

/-- A register named once in a list of draws ends with its old value or the new one. -/
theorem State.reg_drawRegs_mem (s : State) (l : List (Reg × Word)) (hd : (l.map (·.1)).Nodup) (r : Reg) (v : Word)
    (h : (r, v) ∈ l) : (s.drawRegs l).reg r = s.reg r ∨ (s.drawRegs l).reg r = v := by
  induction l generalizing s with
  | nil => simp at h
  | cons c l ih =>
    simp only [List.map_cons, List.nodup_cons] at hd
    rcases List.mem_cons.mp h with rfl | h
    · rw [State.drawRegs, State.reg_drawRegs_other _ _ _ hd.1]
      exact State.reg_drawReg_same s r v
    · have hne : r ≠ c.1 := fun e => hd.1 (e ▸ List.mem_map_of_mem (f := (·.1)) h)
      have := ih (s.drawReg c.1 c.2) hd.2 h
      rwa [State.reg_drawReg_other _ _ hne] at this

theorem SameRegsBut.drawRegs (s : State) (l : List (Reg × Word)) : SameRegsBut s (s.drawRegs l) (l.map (·.1)) := by
  induction l generalizing s with
  | nil => exact SameRegsBut.refl s _
  | cons c l ih =>
    exact ((SameRegsBut.drawReg s c.1 c.2).mono (by simp)).trans ((ih _).mono (by simp +contextual))

end Sys2Proof.Machine
end

