-- ==== Sys2Proof/Laws/Control.lean ====
section
/-! SUPPORT. Laws of the control transfers: even addresses, the targets in the form the rules write them, and what FLOW
leaves (R65, R80 to R88, R133). -/

namespace Sys2Proof.Machine

/-! ### Even addresses -/

theorem isOdd_iff (v : Word) : isOdd v = true ↔ v.toNat % 2 = 1 := by
  simp [isOdd, BitVec.getLsbD, Nat.testBit_zero]

/-- An even offset does not change whether an address is odd. -/
theorem isOdd_add_double (v k : Word) : isOdd (v + 2 * k) = isOdd v := by
  rw [Bool.eq_iff_iff, isOdd_iff, isOdd_iff, BitVec.toNat_add, BitVec.toNat_mul, show (2 : Word).toNat = 2 from rfl]
  omega

theorem isOdd_add_two (v : Word) : isOdd (v + 2) = isOdd v := isOdd_add_double v 1

/-- An instruction is a whole number of 2-byte units (R61). -/
theorem isOdd_add_ilen (s : State) (v : Word) : isOdd (v + s.ilen) = isOdd v := by
  have h : ∃ n, s.plat.unitBytes = 2 * n := by
    rw [Platform.unitBytes]; split
    · exact ⟨1, rfl⟩
    · exact ⟨_, rfl⟩
  obtain ⟨n, h⟩ := h
  rw [State.ilen, h, BitVec.ofNat_mul]
  exact isOdd_add_double v _

/-! ### Targets -/

theorem shiftLeft_one_eq (v : Word) : v <<< 1 = 2 * v := by
  rw [BitVec.shiftLeft_eq_mul_twoPow, BitVec.mul_comm]; rfl

theorem shiftLeft_two_eq (v : Word) : v <<< 2 = 4 * v := by
  rw [BitVec.shiftLeft_eq_mul_twoPow, BitVec.mul_comm]; rfl

theorem State.branchTarget_eq (s : State) (d : BitVec 11) : s.branchTarget d = s.pc + 2 + 2 * d.signExtend 32 := by
  rw [State.branchTarget, shiftLeft_one_eq]; rfl

theorem State.looptTarget_eq (s : State) (d : BitVec 4) : s.looptTarget d = s.pc + 2 + 2 * Config.looptDisp d := by
  rw [State.looptTarget, shiftLeft_one_eq]; rfl

theorem State.literalAddr_eq (s : State) (d : BitVec 8) :
    s.literalAddr d = (s.pc + 2 + 4 * d.setWidth 32) &&& 0xFFFFFFFC := by
  rw [State.literalAddr, shiftLeft_two_eq]; rfl

/-- `jsr` through any register but the link register goes where the register points. -/
theorem State.jsrTarget_of_ne (s : State) {rx : Reg} (h : rx ≠ linkReg) : s.jsrTarget rx = s.reg rx := by
  simp [State.jsrTarget, h]

/-- `jsr r15` goes to the new link or to the old r15 (log 18). -/
theorem State.jsrTarget_link (s : State) :
    s.jsrTarget linkReg = s.pc + 2 ∨ s.jsrTarget linkReg = s.reg linkReg := by
  simp only [State.jsrTarget]
  split
  · exact .inl rfl
  · exact .inr rfl

/-! ### FLOW and the link -/

/-- A taken FLOW from a state with the same fetch tags. -/
theorem State.flow_taken (s u : State) (i : Instr) (a : Word) (h1 : u.fetchErr = s.fetchErr)
    (h2 : u.fetchBrk = s.fetchBrk) : JumpedTo s (u.flow i s.psr.tm true a) i a :=
  ⟨rfl, rfl, fun b => by simp [mem_keptTags_taken, h1], fun b => by simp [mem_keptTags_taken, h2]⟩

/-- A FLOW that is not taken goes to the next instruction. -/
theorem State.flow_not_taken (s : State) (i : Instr) (a : Word) : InSequence s (s.flow i s.psr.tm false a) i :=
  ⟨rfl, rfl, rfl, rfl⟩

theorem State.flow_regsOnly (s : State) (i : Instr) (tm : Tm) (b : Bool) (a : Word) :
    RegsOnly s (s.flow i tm b a) [] :=
  ⟨rfl, rfl, SameRegsBut.of_eq rfl rfl rfl _, ⟨rfl, rfl, rfl, rfl, rfl⟩, ⟨rfl, rfl, rfl, rfl, rfl⟩, ⟨fun _ _ => rfl, rfl⟩⟩

theorem State.link_regsOnly (s : State) : RegsOnly s s.link [15] :=
  ⟨rfl, rfl, SameRegsBut.setReg s _ _, ⟨rfl, rfl, rfl, rfl, rfl⟩, ⟨rfl, rfl, rfl, rfl, rfl⟩, ⟨fun _ _ => rfl, rfl⟩⟩

theorem State.drawReg_regsOnly (s : State) (r : Reg) (v : Word) : RegsOnly s (s.drawReg r v) [r] :=
  ⟨rfl, rfl, SameRegsBut.drawReg s _ _, ⟨rfl, rfl, rfl, rfl, rfl⟩, ⟨rfl, rfl, rfl, rfl, rfl⟩, ⟨fun _ _ => rfl, rfl⟩⟩

theorem State.noteBrk_regsOnly (s : State) : RegsOnly s s.noteBrk [] :=
  ⟨rfl, rfl, SameRegsBut.of_eq rfl rfl rfl _, ⟨rfl, rfl, rfl, rfl, rfl⟩, ⟨rfl, rfl, rfl, rfl, rfl⟩, ⟨fun _ _ => rfl, rfl⟩⟩

theorem State.retire_regsOnly (s : State) (i : Instr) (tm : Tm) (a : Word) : RegsOnly s (s.retire i tm a) [] :=
  ⟨rfl, rfl, SameRegsBut.of_eq rfl rfl rfl _, ⟨rfl, rfl, rfl, rfl, rfl⟩, ⟨rfl, rfl, rfl, rfl, rfl⟩, ⟨fun _ _ => rfl, rfl⟩⟩

theorem State.setReg_regsOnly (s : State) (r : Reg) (v : Word) : RegsOnly s (s.setReg r v) [r] :=
  ⟨rfl, rfl, SameRegsBut.setReg s _ _, ⟨rfl, rfl, rfl, rfl, rfl⟩, ⟨rfl, rfl, rfl, rfl, rfl⟩, ⟨fun _ _ => rfl, rfl⟩⟩

/-- Frames of register writes compose. -/
theorem RegsOnly.trans {s t u : State} {rs : List Reg} (h : RegsOnly s t rs) (h' : RegsOnly t u rs) :
    RegsOnly s u rs where
  psr := h'.psr.trans h.psr
  lowPower := h'.lowPower.trans h.lowPower
  regs := h.regs.trans h'.regs
  special := ⟨h'.special.vbr.trans h.special.vbr, h'.special.epc.trans h.special.epc,
    h'.special.epsr.trans h.special.epsr, h'.special.fpc.trans h.special.fpc, h'.special.fpsr.trans h.special.fpsr⟩
  hidden := ⟨h'.hidden.srstSeen.trans h.hidden.srstSeen, h'.hidden.unrecoverable.trans h.hidden.unrecoverable,
    h'.hidden.plat.trans h.hidden.plat, h'.hidden.env.trans h.hidden.env, h'.hidden.script.trans h.hidden.script⟩
  memory := ⟨fun m a => (h'.memory.1 m a).trans (h.memory.1 m a), h'.memory.2.trans h.memory.2⟩

theorem RegsOnly.mono {s t : State} {rs rs' : List Reg} (h : RegsOnly s t rs) (hs : ∀ r ∈ rs, r ∈ rs') :
    RegsOnly s t rs' := { h with regs := h.regs.mono hs }

end Sys2Proof.Machine
end

