-- ==== Sys2Proof/Laws/Decode.lean ====
section
/-! SUPPORT. Laws of the table and the decoder: no word matches two rows, so a word that matches a row is looked up
there; two bytes put together and taken apart; what a decode of two bytes is. -/

namespace Sys2Proof

/-- Two rows differ on a bit that both masks look at. -/
def Row.apart (r q : Row) : Bool := (r.bits ^^^ q.bits) &&& r.mask &&& q.mask != 0

/-- No word matches two rows of R65's table. -/
theorem table_pairwise_apart : table.Pairwise (fun r q => Row.apart r q = true) := by decide

/-- Rows that are apart have no word in common. -/
theorem not_hits_of_apart {r q : Row} {w : Half} (h : Row.apart r q = true) (hr : r.hits w = true) :
    q.hits w = false := by
  simp only [Row.apart, Row.hits, bne_iff_ne, beq_iff_eq, ne_eq, beq_eq_false_iff_ne] at *
  intro hq
  apply h
  rw [← hr, ← hq]
  ext i hi
  simp only [BitVec.getElem_and, BitVec.getElem_xor]
  cases w[i] <;> cases r.mask[i] <;> cases q.mask[i] <;> simp

theorem apart_symm {r q : Row} (h : Row.apart r q = true) : Row.apart q r = true := by
  simp only [Row.apart, bne_iff_ne, ne_eq] at *
  intro hq
  apply h
  rw [← hq]
  ext i hi
  simp only [BitVec.getElem_and, BitVec.getElem_xor]
  cases r.bits[i] <;> cases q.bits[i] <;> cases r.mask[i] <;> cases q.mask[i] <;> rfl

/-- In a list of rows that are pairwise apart, the row that a word matches is the one found. -/
theorem find_of_hits {l : List Row} {r : Row} {w : Half} (hl : l.Pairwise (fun r q => Row.apart r q = true))
    (hr : r ∈ l) (hw : r.hits w = true) : l.find? (·.hits w) = some r := by
  induction l with
  | nil => simp at hr
  | cons q l ih =>
    rw [List.pairwise_cons] at hl
    rcases List.mem_cons.mp hr with rfl | hr
    · simp [hw]
    · have := not_hits_of_apart (apart_symm (hl.1 r hr)) hw
      simp [this, ih hl.2 hr]

/-- A word that matches a row of the table is the instruction the row builds. -/
theorem lookup_of_hits {r : Row} {w : Half} (hr : r ∈ table) (hw : r.hits w = true) :
    lookup w = some (r.build w) := by
  simp [lookup, find_of_hits table_pairwise_apart hr hw]

/-- A word the table reads was matched by one of its rows. -/
theorem hits_of_lookup {w : Half} {i : Instr} (h : lookup w = some i) :
    ∃ r ∈ table, r.hits w = true ∧ r.build w = i := by
  simp only [lookup, Option.map_eq_some_iff] at h
  obtain ⟨r, hf, hb⟩ := h
  exact ⟨r, List.mem_of_find?_eq_some hf, by simpa using List.find?_some hf, hb⟩

theorem decodeWord_of_lookup {w : Half} {i : Instr} (h : lookup w = some i) : decodeWord w = .ok (.named i) := by
  simp [decodeWord, h]

/-- The bytes of a word, read back in the order they were laid out. -/
theorem halfOfBytes_high_low (w : Half) :
    halfOfBytes true (w.extractLsb' 8 8) (w.extractLsb' 0 8) = w := by
  simp only [halfOfBytes, if_true]
  ext i hi
  simp only [BitVec.getElem_append, BitVec.getElem_extractLsb']
  split
  · simp [BitVec.getLsbD_eq_getElem hi]
  · rw [show 8 + (i - 8) = i by omega, BitVec.getLsbD_eq_getElem]

/-- Decoding the two bytes of a word is decoding the word, in either byte order. -/
theorem decode_bytesOfHalf (be : Bool) (w : Half) (rest : List Byte) :
    decode be (bytesOfHalf be w ++ rest) = match decodeWord w with
      | .ok d => .ok (d, rest)
      | .error e => .error (.word e) := by
  have h := halfOfBytes_high_low w
  cases be
  · have h' : halfOfBytes false (w.extractLsb' 0 8) (w.extractLsb' 8 8) = w := by
      simpa [halfOfBytes] using h
    cases hw : decodeWord w <;> simp [bytesOfHalf, decode, h', hw]
  · cases hw : decodeWord w <;> simp [bytesOfHalf, decode, h, hw]

end Sys2Proof
end

