-- ==== Sys2Proof/Laws/Entry.lean ====
section
/-! SUPPORT. Laws of exception entry: what the vector fetch, the two entries, the interrupts and the resets can answer, and
what holds of the state when they answer a next one (R126 to R129, R149, R151 to R153). -/

namespace Sys2Proof.Machine

/-! ### The vector word -/

/-- `VECTOR_BIT0` refuses a word exactly when bit 0 is set and the platform has the default (D6). -/
theorem Platform.refusesVector_false (p : Platform) (w : Word) :
    p.refusesVector w = false ↔ isOdd w = false ∨ p.vectorBit0 = .bank := by
  cases h : p.vectorBit0 <;> simp [Platform.refusesVector, h]

/-- A handler starts at an even address. -/
@[simp] theorem isOdd_handlerPc (w : Word) : isOdd (handlerPc w) = false := by
  simp [isOdd, handlerPc]

/-- An even vector word is the handler's address. -/
theorem handlerPc_of_even {w : Word} (h : isOdd w = false) : handlerPc w = w := by
  have hm : ∀ j : Fin 32, j.val ≠ 0 → (0xFFFFFFFE : Word)[j.val] = true := by decide
  ext i hi
  rw [handlerPc, BitVec.getElem_and]
  by_cases h0 : i = 0
  · subst h0
    rw [isOdd, BitVec.getLsbD_eq_getElem (by omega)] at h
    rw [h, Bool.false_and]
  · rw [hm ⟨i, hi⟩ h0, Bool.and_true]

section TakeVector

variable (p : Psr) (b : VectorBit0) (w : Word)

/-- The vector word changes at most the register bank. -/
theorem Psr.takeVector_eq : p.takeVector b w = { p with af := if b = .bank then isOdd w else p.af } := by
  cases b <;> simp [Psr.takeVector]

@[simp] theorem Psr.takeVector_s : (p.takeVector b w).s = p.s := by cases b <;> rfl
@[simp] theorem Psr.takeVector_tm : (p.takeVector b w).tm = p.tm := by cases b <;> rfl
@[simp] theorem Psr.takeVector_tp : (p.takeVector b w).tp = p.tp := by cases b <;> rfl
@[simp] theorem Psr.takeVector_ee : (p.takeVector b w).ee = p.ee := by cases b <;> rfl
@[simp] theorem Psr.takeVector_ie : (p.takeVector b w).ie = p.ie := by cases b <;> rfl
@[simp] theorem Psr.takeVector_fe : (p.takeVector b w).fe = p.fe := by cases b <;> rfl
@[simp] theorem Psr.takeVector_db : (p.takeVector b w).db = p.db := by cases b <;> rfl
@[simp] theorem Psr.takeVector_u : (p.takeVector b w).u = p.u := by cases b <;> rfl

end TakeVector

/-! ### The vector fetch -/

/-- `VectorJump(v)` where the vector word can be taken (R128). -/
def State.jumped (s : State) (v : BitVec 7) : State :=
  { s with
    pc := handlerPc (s.wordAt .supervisor (vecAddr s.vbr v))
    psr := s.psr.takeVector s.plat.vectorBit0 (s.wordAt .supervisor (vecAddr s.vbr v))
    fetchErr := [], fetchBrk := [], dataBrk := false, traceDue := false, lowPower := none
    unrecoverable := s.unrecoverable || v == 8 }

/-- The state a vector fetch leaves, when it leaves one. -/
theorem State.vectorJump_next {s t : State} {v : BitVec 7} (h : s.vectorJump v = .next t) :
    s.vectorOk v ∧ t = s.jumped v := by
  simp only [State.vectorJump, State.readN_four] at h
  split at h
  · cases h
  · next hv =>
    split at h
    · cases h
    · next ho =>
      injection h with h
      exact ⟨⟨by simpa using hv, (Platform.refusesVector_false _ _).mp (by simpa using ho)⟩, h.symm⟩

/-- With a vector word that can be taken the fetch answers a next state. -/
theorem State.vectorJump_of_ok {s : State} {v : BitVec 7} (h : s.vectorOk v) : s.vectorJump v = .next (s.jumped v) := by
  simp [State.vectorJump, State.jumped, State.readN_four, h.1, (Platform.refusesVector_false _ _).mpr h.2]

/-- A bus error on the vector fetch stops the machine (D25). -/
theorem State.vectorJump_tea {s : State} (v : BitVec 7) (h : s.env.vecTea = true) :
    s.vectorJump v = .fault .vectorBusError := by
  simp [State.vectorJump, h]

/-- An odd vector word is refused where `VECTOR_BIT0` is the default (D6). -/
theorem State.vectorJump_odd {s : State} {v : BitVec 7} (h : s.env.vecTea = false) (hb : s.plat.vectorBit0 = .refuse)
    (ho : isOdd (s.wordAt .supervisor (vecAddr s.vbr v)) = true) : s.vectorJump v = .refused .oddVector := by
  simp [State.vectorJump, State.readN_four, Platform.refusesVector, h, ho, hb]

/-! ### The two kinds of entry -/

/-- When a normal-kind entry answers a next state, it is the state R126 gives. -/
theorem State.enterNormal_next {s t : State} {v : BitVec 7} {ret : Word} {tp : Bool}
    (h : s.enterNormal v ret tp = .next t) : EnteredNormal s t v ret tp := by
  obtain ⟨-, rfl⟩ := State.vectorJump_next h
  exact ⟨rfl, rfl, Psr.takeVector_eq .., rfl, rfl, ⟨rfl, rfl, rfl, rfl, rfl, rfl, rfl⟩,
    ⟨rfl, rfl, rfl, rfl, rfl, rfl, rfl, rfl, rfl⟩⟩

/-- When a fast-interrupt entry answers a next state, it is the state R127 gives. -/
theorem State.enterFast_next {s t : State} {v : BitVec 7} {ret : Word} {tp : Bool}
    (h : s.enterFast v ret tp = .next t) : EnteredFast s t v ret tp := by
  obtain ⟨-, rfl⟩ := State.vectorJump_next h
  refine ⟨rfl, rfl, ⟨_, ?_, Psr.takeVector_eq ..⟩, rfl, rfl, ⟨rfl, rfl, rfl, rfl, rfl, rfl, rfl⟩,
    ⟨rfl, rfl, rfl, rfl, rfl, rfl, rfl, rfl, rfl⟩⟩
  show (s.psr.ee && !Config.fintEntryClearsEE) = false ∨ (s.psr.ee && !Config.fintEntryClearsEE) = s.psr.ee
  cases Config.fintEntryClearsEE <;> simp

theorem State.enterNormal_entered {s t : State} {v : BitVec 7} {ret : Word} {tp : Bool}
    (h : s.enterNormal v ret tp = .next t) : Entered s t := by
  obtain ⟨-, rfl⟩ := State.vectorJump_next h
  exact ⟨Psr.takeVector_s .., Psr.takeVector_tm .., Psr.takeVector_tp .., Psr.takeVector_ie .., isOdd_handlerPc _, rfl, rfl,
    rfl, rfl, rfl, rfl, ⟨rfl, rfl, rfl, rfl, rfl, rfl, rfl, rfl, rfl⟩⟩

theorem State.enterFast_entered {s t : State} {v : BitVec 7} {ret : Word} {tp : Bool}
    (h : s.enterFast v ret tp = .next t) : Entered s t := by
  obtain ⟨-, rfl⟩ := State.vectorJump_next h
  exact ⟨Psr.takeVector_s .., Psr.takeVector_tm .., Psr.takeVector_tp .., Psr.takeVector_ie .., isOdd_handlerPc _, rfl, rfl,
    rfl, rfl, rfl, rfl, ⟨rfl, rfl, rfl, rfl, rfl, rfl, rfl, rfl, rfl⟩⟩

theorem State.raise_entered {s t : State} {x : Exc} {ret : Word} (h : s.raise x ret = .next t) : Entered s t :=
  State.enterNormal_entered h

/-! ### Interrupts -/

theorem takesFint_iff (q : Irq) (p : Psr) : takesFint q p = true ↔ q.fint = true ∧ p.fe = true := by
  simp [takesFint]

theorem takesInt_iff (q : Irq) (p : Psr) :
    takesInt q p = true ↔ q.int = true ∧ p.ie = true ∧ p.ee = true := by
  simp [takesInt, and_assoc]

/-- No interrupt is taken exactly when none is requested and unmasked. -/
theorem State.interrupt_none {s : State} {q : Irq} {ret : Word} {tp : Bool} :
    s.interrupt q ret tp = none ↔ ¬ Unmasked q s.psr := by
  simp only [State.interrupt, Unmasked, ← takesFint_iff, ← takesInt_iff]
  split
  · simp [*]
  · split <;> simp [*]

/-- An interrupt that is taken is the one R151 to R153 name. -/
theorem State.interrupt_taken {s : State} {q : Irq} {ret : Word} {tp : Bool} (h : Unmasked q s.psr) :
    ∃ r, s.interrupt q ret tp = some r ∧ InterruptTaken s q ret tp r := by
  simp only [Unmasked, ← takesFint_iff, ← takesInt_iff] at h
  simp only [InterruptTaken, ← takesFint_iff, State.interrupt, Irq.fintVector, Irq.intVector]
  by_cases hf : takesFint q s.psr = true
  · simp [hf]
  · simp [hf, h.resolve_left hf]

theorem InterruptTaken.entered {s t : State} {q : Irq} {ret : Word} {tp : Bool} {r : Result}
    (h : InterruptTaken s q ret tp r) (hr : r = .next t) : Entered s t := by
  by_cases hf : q.fint = true ∧ s.psr.fe = true
  · rw [h.1 hf] at hr; exact State.enterFast_entered hr
  · rw [h.2 hf] at hr; exact State.enterNormal_entered hr

theorem State.interrupt_entered {s t : State} {q : Irq} {ret : Word} {tp : Bool}
    (h : s.interrupt q ret tp = some (.next t)) : Entered s t := by
  by_cases hu : Unmasked q s.psr
  · obtain ⟨r, hr, ht⟩ := State.interrupt_taken (ret := ret) (tp := tp) hu
    rw [hr] at h
    exact ht.entered (Option.some.inj h)
  · rw [State.interrupt_none.mpr hu] at h; cases h

/-- What `cutAt` says, in the words of R150. -/
theorem State.cutAt_some {s : State} {k : Nat} : s.cutAt = some k ↔ s.cutBy k := by
  simp only [State.cutAt, State.cutBy, Unmasked, ← takesFint_iff, ← takesInt_iff]
  split <;> simp_all

/-- Where `cutAt` says so, the interrupt inside an instruction is taken with the instruction's own address. -/
theorem State.interruptInside_taken {s : State} (h : Unmasked s.env.mid s.psr) :
    InterruptTaken s s.env.mid s.pc false s.interruptInside := by
  obtain ⟨r, hr, ht⟩ := State.interrupt_taken (ret := s.pc) (tp := false) h
  rw [State.interruptInside, hr]
  exact ht

/-! ### The resets -/

/-- The state a reset leaves, when it leaves one. -/
theorem State.resetFrom_next {s t : State} {a : Word} {fix : Psr → Psr} (h : s.resetFrom a fix = .next t) :
    s.vectorWordOk a ∧
      t = { s.scramble with
        psr := (fix s.scramble.psr).takeVector s.plat.vectorBit0 (s.wordAt .supervisor a)
        vbr := 0, pc := handlerPc (s.wordAt .supervisor a) } := by
  simp only [State.resetFrom, State.readN_four] at h
  split at h
  · cases h
  · next hv =>
    split at h
    · cases h
    · next ho =>
      injection h with h
      exact ⟨⟨by simpa using hv, (Platform.refusesVector_false _ _).mp (by simpa using ho)⟩, h.symm⟩

/-- With a vector word that can be taken a reset answers a next state. -/
theorem State.resetFrom_of_ok {s : State} {a : Word} (fix : Psr → Psr) (h : s.vectorWordOk a) :
    s.resetFrom a fix = .next { s.scramble with
      psr := (fix s.scramble.psr).takeVector s.plat.vectorBit0 (s.wordAt .supervisor a)
      vbr := 0, pc := handlerPc (s.wordAt .supervisor a) } := by
  simp [State.resetFrom, State.readN_four, h.1, (Platform.refusesVector_false _ _).mpr h.2]

theorem State.scramble_wf (s : State) : Memory.wf s.scramble.mem = true := Memory.ofCells_wf _

end Sys2Proof.Machine
end

