-- ==== Sys2Proof/Laws/Exec.lean ====
section
/-! SUPPORT. Laws of the operations that the meanings share: what each answers when nothing is in its way, and everything it
can have done when it answers a next state. -/

namespace Sys2Proof.Machine

/-! ### Alignment (R43) -/

theorem isAligned_iff (ea : Word) (n : Nat) : isAligned ea n = true ↔ ea % BitVec.ofNat 32 n = 0 := by
  simp [isAligned]

theorem State.accessible_iff (s : State) (ea : Word) (n : Nat) :
    s.accessible ea n = true ↔ ea % BitVec.ofNat 32 n = 0 ∨ s.psr.mm = true := by
  simp [State.accessible, isAligned_iff]

theorem isAligned_one (ea : Word) : isAligned ea 1 = true := by
  simp [isAligned]

theorem alignDown_one (ea : Word) : alignDown ea 1 = ea := by
  simp [alignDown]

/-! ### Loads and stores -/

/-- An accessible load whose bus cycle is not ended reads the value from the boundary and completes (R70). -/
theorem State.load_of_ok {s : State} (i : Instr) (rz : Reg) {ea : Word} {n : Nat} (ha : s.accessible ea n = true)
    (hb : s.env.teaAt 0 = false) :
    s.load i rz ea n =
      .next ((s.noteBrk.setReg rz (s.readN s.mode (alignDown ea n) n)).retire i s.psr.tm (s.pc + s.ilen)) := by
  simp [State.load, ha, hb, State.retireNext]

/-- An accessible store whose bus cycle is not ended writes its bytes at the boundary and completes (R70). -/
theorem State.store_of_ok {s : State} (i : Instr) (rz : Reg) {ea : Word} {n : Nat} (ha : s.accessible ea n = true)
    (hb : s.env.teaAt 0 = false) :
    s.store i rz ea n =
      .next ((s.noteBrk.writeN s.mode (alignDown ea n) n (s.reg rz)).retire i s.psr.tm (s.pc + s.ilen)) := by
  simp [State.store, ha, hb, State.retireNext, State.writeN]

/-- A load that answers a next state entered an exception, or wrote its register and completed. -/
theorem State.load_next {s t : State} {i : Instr} {rz : Reg} {ea : Word} {n : Nat} (h : s.load i rz ea n = .next t) :
    Entered s t ∨ ∃ v, t = (s.noteBrk.setReg rz v).retire i s.psr.tm (s.pc + s.ilen) := by
  simp only [State.load, State.retireNext] at h
  split at h
  · exact .inl (State.raise_entered h)
  · split at h
    · exact .inl (State.raise_entered h)
    · exact .inr ⟨_, (Host.Outcome.next.inj h).symm⟩

/-- A store that answers a next state entered an exception, with or without bytes drawn, or stored and completed. -/
theorem State.store_next {s t : State} {i : Instr} {rz : Reg} {ea : Word} {n : Nat} (h : s.store i rz ea n = .next t) :
    (∃ l, Entered (s.drawBytes s.mode (alignDown ea n) l) t) ∨
      ∃ v, t = (s.noteBrk.writeN s.mode (alignDown ea n) n v).retire i s.psr.tm (s.pc + s.ilen) := by
  simp only [State.store, State.retireNext] at h
  split at h
  · exact .inl ⟨[], State.raise_entered h⟩
  · split at h
    · exact .inl ⟨_, State.raise_entered h⟩
    · exact .inr ⟨s.reg rz, by simpa using (Host.Outcome.next.inj h).symm⟩

/-! ### The multi-register instructions -/

/-- The first failing access of a number of them. -/
theorem Env.firstTea_some {e : Env} {n k : Nat} (hk : k < n) (ht : e.teaAt k = true) (hf : ∀ j < k, e.teaAt j = false) :
    e.firstTea n = some k := by
  simp only [Env.firstTea, List.find?_range_eq_some]
  exact ⟨ht, by simpa using hk, fun j hj => by simp [hf j hj]⟩

theorem Env.firstTea_none {e : Env} {n : Nat} (h : ∀ k < n, e.teaAt k = false) : e.firstTea n = none := by
  simp only [Env.firstTea, List.find?_range_eq_none]
  exact fun k hk => by simp [h k hk]

/-- A multi-register instruction is cut short only where `cutAt` says so. -/
theorem State.ending_cut {s : State} {n k : Nat} (h : s.ending n = .cut k) : s.cutBy k := by
  rw [← State.cutAt_some]
  simp only [State.ending] at h
  split at h
  · split at h
    · cases h; assumption
    · cases h
  · split at h
    · cases h; assumption
    · cases h
  · cases h
  · cases h

/-- Undisturbed, all transfers are made. -/
theorem State.ending_done {s : State} {n : Nat} (h : s.undisturbed n) : s.ending n = .done := by
  rw [State.ending, Env.firstTea_none h.1]
  cases hc : s.cutAt with
  | none => rfl
  | some k => simp [Nat.not_le.mpr (h.2 k (State.cutAt_some.mp hc))]

/-- The first failing access before any interrupt ends the instruction. -/
theorem State.ending_busError {s : State} {n k : Nat} (hk : k < n) (ht : s.env.teaAt k = true)
    (hf : ∀ j < k, s.env.teaAt j = false) (hc : ∀ c, s.cutAt = some c → k < c) : s.ending n = .busError k := by
  rw [State.ending, Env.firstTea_some hk ht hf]
  cases h : s.cutAt with
  | none => rfl
  | some c => simp [Nat.not_le.mpr (hc c h)]

/-- An interrupt recognised before any failing access cuts the instruction short. -/
theorem State.ending_of_cutBy {s : State} {n k : Nat} (hk : k ≤ n) (hc : s.cutBy k)
    (hf : ∀ j < k, s.env.teaAt j = false) : s.ending n = .cut k := by
  rw [State.ending, State.cutAt_some.mpr hc]
  cases h : s.env.firstTea n with
  | none => simp [hk]
  | some t =>
    have ht : s.env.teaAt t = true := by
      simp only [Env.firstTea, List.find?_range_eq_some] at h
      exact h.1
    have : k ≤ t := by
      by_contra hlt
      simp [hf t (by omega)] at ht
    simp [this]

/-- The interrupt inside an instruction after partial effects that keep the PSR and the inputs. -/
theorem State.interruptInside_entered {s u t : State} (he : u.env = s.env) (hp : u.psr = s.psr) {k : Nat}
    (hc : s.cutBy k) (h : u.interruptInside = .next t) : Entered u t := by
  have hu : Unmasked u.env.mid u.psr := by rw [he, hp]; exact hc.2.2
  exact (State.interruptInside_taken hu).entered h

theorem State.transfers_map (s : State) (a : Word) (rs : List Reg) : (s.transfers a rs).map (·.1) = rs := by
  induction rs generalizing a with
  | nil => rfl
  | cons r rs ih => simp [State.transfers, ih]

/-- The transfer of the k-th listed register reads the k-th word. -/
theorem State.transfers_mem (s : State) (a : Word) (rs : List Reg) (k : Nat) (hk : k < rs.length) :
    (rs[k], s.wordAt s.mode (a + 4 * BitVec.ofNat 32 k)) ∈ s.transfers a rs := by
  induction rs generalizing a k with
  | nil => simp at hk
  | cons r rs ih =>
    cases k with
    | zero => simp [State.transfers, State.readN_four]
    | succ k =>
      have := ih (a + 4) k (by simpa using hk)
      have he : a + 4 + 4 * BitVec.ofNat 32 k = a + 4 * BitVec.ofNat 32 (k + 1) := by
        rw [BitVec.ofNat_add, BitVec.mul_add, BitVec.add_assoc, BitVec.add_comm (4 * _)]; rfl
      rw [he] at this
      exact List.mem_cons_of_mem _ this

/-- A multi-register load that answers a next state entered an exception or an interrupt, with some registers drawn, or
loaded its registers and completed. -/
theorem State.loadMultiple_next {s t : State} {i : Instr} {base : Reg} {rs : List Reg} {ob : Bool}
    (h : s.loadMultiple i base rs ob = .next t) :
    (∃ l, Entered (s.drawRegs l) t) ∨
      ∃ l l', t = ((s.noteBrk.drawRegs l).setRegs l').retire i s.psr.tm (s.pc + s.ilen) := by
  simp only [State.loadMultiple, State.retireNext] at h
  split at h
  · exact .inl ⟨[], State.raise_entered h⟩
  · split at h
    · exact .inl ⟨_, State.raise_entered h⟩
    · next hc => exact .inl ⟨_, State.interruptInside_entered (by simp) (by simp) (State.ending_cut hc) h⟩
    · split at h
      · exact .inr ⟨(s.transfers (alignDown (s.reg base) 4) rs).filter (·.1 == base),
          (s.transfers (alignDown (s.reg base) 4) rs).filter (·.1 != base),
          by simpa using (Host.Outcome.next.inj h).symm⟩
      · exact .inr ⟨[], s.transfers (alignDown (s.reg base) 4) rs,
          by simpa [State.drawRegs] using (Host.Outcome.next.inj h).symm⟩

/-! ### Stores of several registers -/

theorem State.storeRegs_wf {s : State} (h : Memory.wf s.mem = true) (s0 : State) (a : Word) (rs : List Reg) :
    Memory.wf (s.storeRegs s0 a rs).mem = true := by
  induction rs generalizing s a with
  | nil => exact h
  | cons r rs ih => exact ih (State.writeN_wf h _ _ _ _) _

/-- Storing a list of registers leaves every byte outside their words alone. -/
theorem State.storeRegs_other (s s0 : State) (a : Word) (rs : List Reg) (m' : Mode) (a' : Word)
    (h : ∀ k < 4 * rs.length, s.key m' a' ≠ s.key s0.mode (a + BitVec.ofNat 32 k)) :
    (s.storeRegs s0 a rs).readByte m' a' = s.readByte m' a' := by
  induction rs generalizing s a with
  | nil => rfl
  | cons r rs ih =>
    simp only [List.length_cons] at h
    rw [State.storeRegs, ih]
    · exact State.writeN_other _ _ _ _ _ _ _ fun k hk => h k (by omega)
    · intro k hk
      have he : a + 4 + BitVec.ofNat 32 k = a + BitVec.ofNat 32 (k + 4) := by
        rw [BitVec.add_assoc, Nat.add_comm k 4, BitVec.ofNat_add]; rfl
      rw [he, State.key_congr (State.writeN_plat ..), State.key_congr (State.writeN_plat ..)]
      exact h (k + 4) (by omega)

/-- The keys that storing a list of registers adds to those stored to. -/
theorem State.mem_storeRegs_stored (s s0 : State) (a : Word) (rs : List Reg) (j : Nat) :
    j ∈ (s.storeRegs s0 a rs).stored ↔
      j ∈ s.stored ∨ ∃ k < 4 * rs.length, j = s.key s0.mode (a + BitVec.ofNat 32 k) := by
  induction rs generalizing s a with
  | nil => simp [State.storeRegs]
  | cons r rs ih =>
    have hk : ∀ m a', (s.writeN s0.mode a 4 (s0.reg r)).key m a' = s.key m a' :=
      fun m a' => State.key_congr (by simp) m a'
    have he : ∀ k, a + 4 + BitVec.ofNat 32 k = a + BitVec.ofNat 32 (k + 4) := fun k => by
      rw [BitVec.add_assoc, Nat.add_comm k 4, BitVec.ofNat_add]; rfl
    simp only [State.storeRegs, ih, hk, he, State.mem_writeN_stored, List.length_cons]
    constructor
    · rintro ((h | ⟨k, hk, rfl⟩) | ⟨k, hk, rfl⟩)
      · exact .inl h
      · exact .inr ⟨k, by omega, rfl⟩
      · exact .inr ⟨k + 4, by omega, rfl⟩
    · rintro (h | ⟨k, hk, rfl⟩)
      · exact .inl (.inl h)
      · by_cases h4 : k < 4
        · exact .inl (.inr ⟨k, h4, rfl⟩)
        · exact .inr ⟨k - 4, by omega, by rw [Nat.sub_add_cancel (by omega)]⟩

/-- The word of the k-th listed register, read back. -/
theorem State.storeRegs_wordAt {s : State} (hw : Memory.wf s.mem = true) (s0 : State) (a : Word) (rs : List Reg)
    (hl : 4 * rs.length ≤ 2 ^ 32) (k : Nat) (hk : k < rs.length) :
    (s.storeRegs s0 a rs).wordAt s0.mode (a + 4 * BitVec.ofNat 32 k) = s0.reg rs[k] := by
  induction rs generalizing s a k with
  | nil => simp at hk
  | cons r rs ih =>
    simp only [List.length_cons] at hl hk
    cases k with
    | zero =>
      have h0 : a + 4 * BitVec.ofNat 32 0 = a := by simp
      rw [h0, State.storeRegs, List.getElem_cons_zero]
      refine (State.wordAt_congr _ _ (by simp) fun k hk => ?_).trans (State.writeN_wordAt hw _ _ _)
      refine State.storeRegs_other _ _ _ _ _ _ fun j hj => ?_
      have he : a + 4 + BitVec.ofNat 32 j = a + BitVec.ofNat 32 (j + 4) := by
        rw [BitVec.add_assoc, Nat.add_comm j 4, BitVec.ofNat_add]; rfl
      rw [he]
      exact State.key_ne _ _ (by omega) (by omega) (by omega)
    | succ k =>
      have := ih (State.writeN_wf hw s0.mode a 4 (s0.reg r)) (a + 4) (by omega) k (by omega)
      have he : a + 4 + 4 * BitVec.ofNat 32 k = a + 4 * BitVec.ofNat 32 (k + 1) := by
        rw [BitVec.ofNat_add, BitVec.mul_add, BitVec.add_assoc, BitVec.add_comm (4 * _)]; rfl
      rw [he] at this
      exact this

/-! ### The register lists -/

theorem regsFrom_length (rf : Reg) : (regsFrom rf).length = 16 - rf.toNat := by
  simp [regsFrom, allRegs]

theorem mem_regsFrom (rf r : Reg) : r ∈ regsFrom rf ↔ rf ≤ r := by
  revert rf r; decide

theorem regsFrom_nodup (rf : Reg) : (regsFrom rf).Nodup := by
  revert rf; decide

/-- Register r is the one at place r - rf of the list from rf. -/
theorem regsFrom_getElem? (rf r : Reg) (h : rf ≤ r) : (regsFrom rf)[(r - rf).toNat]? = some r := by
  revert rf r; decide

theorem quadrant_getElem? (k : BitVec 4) (h : k < 4) : quadrant[k.toNat]? = some (4 + k) := by
  revert k; decide

/-! ### Arithmetic, the privilege check, returns -/

/-- Uncut, the result is written and the instruction completes. -/
theorem State.finishArith_of_uncut {s : State} (hc : s.uncut) (i : Instr) (rx : Reg) (v : Word) :
    s.finishArith i rx v = .next ((s.setReg rx v).retire i s.psr.tm (s.pc + s.ilen)) := by
  simp [State.finishArith, show s.cutAt = none from hc, State.retireNext]

theorem State.finishArith_next {s t : State} {i : Instr} {rx : Reg} {v : Word} (h : s.finishArith i rx v = .next t) :
    Entered s t ∨ t = (s.setReg rx v).retire i s.psr.tm (s.pc + s.ilen) := by
  simp only [State.finishArith, State.retireNext] at h
  split at h
  · next hc =>
    obtain ⟨k, hk⟩ := Option.isSome_iff_exists.mp hc
    exact .inl (State.interruptInside_entered rfl rfl (State.cutAt_some.mp hk) h)
  · exact .inr (by simpa using (Host.Outcome.next.inj h).symm)

theorem State.privileged_next {s t : State} {k : Result} (h : s.privileged k = .next t) :
    (s.psr.s = true ∧ k = .next t) ∨ (s.psr.s = false ∧ Entered s t) := by
  simp only [State.privileged] at h
  split at h
  · next hs => exact .inl ⟨hs, h⟩
  · next hs => exact .inr ⟨by simpa using hs, State.raise_entered h⟩

/-- Everything a write of a control register can change, field by field (R101, D5, D10). -/
theorem State.writeCr_eq (s : State) (c : BitVec 5) (v : Word) :
    s.writeCr c v =
      { s with
        psr := if c = 0 then { Psr.ofWord v with tp := false } else s.psr
        vbr := if c = 1 then s.plat.forceVbr v else s.vbr
        epsr := if c = 2 then Psr.ofWord v else s.epsr
        fpsr := if c = 3 then Psr.ofWord v else s.fpsr
        epc := if c = 4 then v else s.epc
        fpc := if c = 5 then v else s.fpc } := by
  simp only [State.writeCr]
  split_ifs <;> first | rfl | (subst_vars; contradiction)

/-- A return that answers a next state goes to an even address, and is over, or has gone on into an entry (R144). -/
theorem State.returnFrom_next {s t : State} {i : Instr} {p : Psr} {a : Word} (h : s.returnFrom i p a = .next t) :
    isOdd a = false ∧ (Entered (s.restored i p a) t ∨ t = s.restored i p a) := by
  simp only [State.returnFrom] at h
  split at h
  · cases h
  · next ho =>
    refine ⟨by simpa using ho, ?_⟩
    split at h
    · refine .inl ?_
      simp only [State.pendingTrace] at h
      split at h
      · exact State.enterNormal_entered h
      · cases hi : (s.restored i p a).interrupt (s.restored i p a).env.post a true with
        | none => rw [hi] at h; exact State.enterNormal_entered h
        | some r => rw [hi] at h; exact State.interrupt_entered (hi.trans (congrArg some h))
    · exact .inr (Host.Outcome.next.inj h).symm

end Sys2Proof.Machine
end

