-- ==== Sys2Proof/Laws/Frames.lean ====
section
/-! SUPPORT. Frames of the shared operations: what each store and each list of register writes leaves unchanged, and what
completion in sequence leaves (Safety's RegsOnly, StoresOnly, InSequence, OldOrNew). -/

namespace Sys2Proof.Machine

/-! ### Completion in sequence -/

/-- Completing in sequence a state with the pc and the fetch tags of the one the instruction started in. -/
theorem State.retire_inSequence {s u : State} (i : Instr) (h1 : u.fetchErr = s.fetchErr) (h2 : u.fetchBrk = s.fetchBrk) :
    InSequence s (u.retire i s.psr.tm (s.pc + s.ilen)) i := ⟨rfl, rfl, h1, h2⟩

/-! ### Lists of register writes -/

theorem State.setRegs_regsOnly (s : State) (l : List (Reg × Word)) : RegsOnly s (s.setRegs l) (l.map (·.1)) :=
  ⟨by simp, by simp, SameRegsBut.setRegs s l, ⟨by simp, by simp, by simp, by simp, by simp⟩,
    ⟨by simp, by simp, by simp, by simp, by simp⟩, ⟨fun m a => by simp [State.readByte, State.key], by simp⟩⟩

theorem State.drawRegs_regsOnly (s : State) (l : List (Reg × Word)) : RegsOnly s (s.drawRegs l) (l.map (·.1)) :=
  ⟨by simp, by simp, SameRegsBut.drawRegs s l, ⟨by simp, by simp, by simp, by simp, by simp⟩,
    ⟨by simp, by simp, by simp, by simp, by simp⟩, ⟨fun m a => by simp [State.readByte, State.key], by simp⟩⟩

/-! ### Stores -/

theorem State.writeN_storesOnly (s : State) (a : Word) (n : Nat) (v : Word) :
    StoresOnly s (s.writeN s.mode a n v) a n where
  psr := by simp
  lowPower := by simp
  regs := SameRegsBut.of_eq (by simp) (by simp) (by simp) []
  special := ⟨by simp, by simp, by simp, by simp, by simp⟩
  hidden := ⟨by simp, by simp, by simp, by simp, by simp⟩
  memory := fun m' a' h => State.writeN_other s s.mode a n v m' a' h
  stored := State.mem_writeN_stored s s.mode a n v

theorem State.drawBytes_storesOnly (s : State) (a : Word) (l : List Byte) :
    StoresOnly s (s.drawBytes s.mode a l) a l.length where
  psr := by simp
  lowPower := by simp
  regs := SameRegsBut.of_eq (by simp) (by simp) (by simp) []
  special := ⟨by simp, by simp, by simp, by simp, by simp⟩
  hidden := ⟨by simp, by simp, by simp, by simp, by simp⟩
  memory := fun m' a' h => State.drawBytes_other s s.mode a l m' a' h
  stored := State.mem_drawBytes_stored s s.mode a l

theorem State.storeRegs_storesOnly (s : State) (a : Word) (rs : List Reg) :
    StoresOnly s (s.storeRegs s a rs) a (4 * rs.length) where
  psr := by simp
  lowPower := by simp
  regs := SameRegsBut.of_eq (by simp) (by simp) (by simp) []
  special := ⟨by simp, by simp, by simp, by simp, by simp⟩
  hidden := ⟨by simp, by simp, by simp, by simp, by simp⟩
  memory := fun m' a' h => State.storeRegs_other s s a rs m' a' h
  stored := State.mem_storeRegs_stored s s a rs

/-- A store frame is unchanged by a mark of BRKRQ# before it. -/
theorem StoresOnly.of_noteBrk {s t : State} {a : Word} {n : Nat} (h : StoresOnly s.noteBrk t a n) :
    StoresOnly s t a n :=
  ⟨h.psr, h.lowPower, h.regs, ⟨h.special.vbr, h.special.epc, h.special.epsr, h.special.fpc, h.special.fpsr⟩,
    ⟨h.hidden.srstSeen, h.hidden.unrecoverable, h.hidden.plat, h.hidden.env, h.hidden.script⟩, h.memory, h.stored⟩

/-- A store frame is unchanged by completion after it. -/
theorem StoresOnly.retire {s t : State} {a : Word} {n : Nat} (h : StoresOnly s t a n) (i : Instr) (tm : Tm) (b : Word) :
    StoresOnly s (t.retire i tm b) a n :=
  ⟨h.psr, h.lowPower, h.regs, ⟨h.special.vbr, h.special.epc, h.special.epsr, h.special.fpc, h.special.fpsr⟩,
    ⟨h.hidden.srstSeen, h.hidden.unrecoverable, h.hidden.plat, h.hidden.env, h.hidden.script⟩, h.memory, h.stored⟩

/-- Where the platform has it so, each byte of a store that TEA# ended is old or new, in the words of R45. -/
theorem State.drawBytes_oldOrNew {s : State} (hw : Memory.wf s.mem = true) (hp : s.plat.teaWriteAny = false) (a : Word)
    (n : Nat) (hn : n ≤ 2 ^ 32) (v : Word) : OldOrNew s (s.drawBytes s.mode a (splitWord s.plat.bigEndian v n)) a n v := by
  intro k hk
  have := State.drawBytes_same hw hp s.mode a (splitWord s.plat.bigEndian v n) (by simpa) k (by simpa)
  rwa [splitWord_getElem _ _ _ _ hk] at this

/-- The bytes of the word at place `j` of consecutive words, counted from the first. -/
theorem word_byte_addr (a : Word) (j k : Nat) :
    a + 4 * BitVec.ofNat 32 j + BitVec.ofNat 32 k = a + BitVec.ofNat 32 (4 * j + k) := by
  rw [BitVec.ofNat_add, BitVec.ofNat_mul, BitVec.add_assoc]; rfl

/-- Some words stored, and the next one ended by TEA#: the words before it are stored, its bytes are draws (old or new
where the platform has it so), and nothing beyond it changed (R73, R45; log 15). -/
theorem State.storeRegs_drawBytes {s : State} (hw : Memory.wf s.mem = true) (a : Word) (rs : List Reg) (v : Word) {k : Nat}
    (hk : rs.length = k) (hl : 4 * (k + 1) ≤ 2 ^ 32) :
    let u := (s.storeRegs s a rs).drawBytes s.mode (a + 4 * BitVec.ofNat 32 k) (splitWord s.plat.bigEndian v 4)
    StoresOnly s u a (4 * (k + 1)) ∧
      (∀ j (hj : j < rs.length), u.wordAt s.mode (a + 4 * BitVec.ofNat 32 j) = s.reg rs[j]) ∧
      (s.plat.teaWriteAny = false → OldOrNew s u (a + 4 * BitVec.ofNat 32 k) 4 v) := by
  subst hk
  have kc : ∀ m a', (s.storeRegs s a rs).key m a' = s.key m a' := fun m a' => State.key_congr (by simp) m a'
  refine ⟨⟨by simp, by simp, SameRegsBut.of_eq (by simp) (by simp) (by simp) [], ⟨by simp, by simp, by simp, by simp,
    by simp⟩, ⟨by simp, by simp, by simp, by simp, by simp⟩, ?_, ?_⟩, ?_, ?_⟩
  · intro m' a' h
    rw [State.drawBytes_other, State.storeRegs_other]
    · exact fun k hk => h k (by omega)
    · intro k hk
      rw [kc, kc, word_byte_addr]
      exact h _ (by simp at hk; omega)
  · intro j
    simp only [State.mem_drawBytes_stored, State.mem_storeRegs_stored, splitWord_length, kc, word_byte_addr]
    constructor
    · rintro ((h | ⟨k, hk, rfl⟩) | ⟨k, hk, rfl⟩)
      · exact .inl h
      · exact .inr ⟨k, by omega, rfl⟩
      · exact .inr ⟨_, by omega, rfl⟩
    · rintro (h | ⟨k, hk, rfl⟩)
      · exact .inl (.inl h)
      · by_cases h4 : k < 4 * rs.length
        · exact .inl (.inr ⟨k, h4, rfl⟩)
        · exact .inr ⟨k - 4 * rs.length, by omega, by congr 3; omega⟩
  · intro j hj
    rw [← State.storeRegs_wordAt hw s a rs (by omega) j hj]
    refine State.wordAt_congr _ _ (by simp) fun k hk => State.drawBytes_other _ _ _ _ _ _ fun i hi => ?_
    rw [kc, kc, word_byte_addr, word_byte_addr]
    simp only [splitWord_length] at hi
    exact State.key_ne _ _ (by omega) (by omega) (by omega)
  · intro hp i hi
    have h := State.drawBytes_same (State.storeRegs_wf hw s a rs) (by simpa using hp) s.mode
      (a + 4 * BitVec.ofNat 32 rs.length) (splitWord s.plat.bigEndian v 4) (by simp) i (by simpa)
    rw [splitWord_getElem _ _ _ _ hi] at h
    have e : (s.storeRegs s a rs).byteAt s.mode (a + 4 * BitVec.ofNat 32 rs.length) i =
        s.byteAt s.mode (a + 4 * BitVec.ofNat 32 rs.length) i := by
      refine State.storeRegs_other _ _ _ _ _ _ fun j hj => ?_
      rw [word_byte_addr]
      exact State.key_ne _ _ (by omega) (by omega) (by omega)
    rwa [e] at h

end Sys2Proof.Machine
end

