-- ==== Sys2Proof/Laws/PerInstr.lean ====
section
/-! SUPPORT. Per instruction: the word its encoding gives is decoded to it. One lemma per constructor. -/

namespace Sys2Proof.Laws.RoundTrip

open Sys2Proof

/-- The instruction's word, where R65 gives it one, decodes to the instruction. -/
def Statement (i : Instr) : Prop :=
  ∀ w, i.wellFormed = true → encode i = some w → decodeWord w = .ok (.named i)

/-- An instruction whose word matches row `k` of the table, and which that row builds, has the round trip. -/
theorem of_row {i : Instr} (w : Half) (k : Nat) (hk : k < table.length) (he : encode i = some w)
    (hw : table[k].hits w = true) (hb : table[k].build w = i) : Statement i := by
  intro v _ hv
  obtain rfl : w = v := by rw [he] at hv; exact Option.some.inj hv
  rw [← hb]
  exact decodeWord_of_lookup (lookup_of_hits (List.getElem_mem hk) hw)

/-- A word that begins with a row's opcode bits matches the row. -/
theorem hits_opcode {n m : Nat} (a : BitVec n) (b : BitVec m) :
    ((a ++ b) &&& (BitVec.allOnes n ++ 0#m) == a ++ 0#m) = true := by
  simp [BitVec.and_append]

/-- Field 1 of a word of pieces of 4, 4, 4, 4 bits. -/
theorem field_4_4_4_4_1 (o : BitVec 4) (a : BitVec 4) (b : BitVec 4) (c : BitVec 4) :
    (o ++ (a ++ (b ++ c))).extractLsb' 8 4 = a :=
  ((BitVec.extractLsb'_append_eq_of_add_le (xhi := o) (xlo := a ++ (b ++ c)) (by decide))).trans
      (BitVec.extractLsb'_append_eq_left (a := a) (b := b ++ c))

/-- Field 2 of a word of pieces of 4, 4, 4, 4 bits. -/
theorem field_4_4_4_4_2 (o : BitVec 4) (a : BitVec 4) (b : BitVec 4) (c : BitVec 4) :
    (o ++ (a ++ (b ++ c))).extractLsb' 4 4 = b :=
  (((BitVec.extractLsb'_append_eq_of_add_le (xhi := o) (xlo := a ++ (b ++ c)) (by decide))).trans
      (BitVec.extractLsb'_append_eq_of_add_le (xhi := a) (xlo := b ++ c) (by decide))).trans
      (BitVec.extractLsb'_append_eq_left (a := b) (b := c))

/-- Field 3 of a word of pieces of 4, 4, 4, 4 bits. -/
theorem field_4_4_4_4_3 (o : BitVec 4) (a : BitVec 4) (b : BitVec 4) (c : BitVec 4) :
    (o ++ (a ++ (b ++ c))).extractLsb' 0 4 = c :=
  ((((BitVec.extractLsb'_append_eq_of_add_le (xhi := o) (xlo := a ++ (b ++ c)) (by decide))).trans
      (BitVec.extractLsb'_append_eq_of_add_le (xhi := a) (xlo := b ++ c) (by decide))).trans
      (BitVec.extractLsb'_append_eq_of_add_le (xhi := b) (xlo := c) (by decide))).trans
      BitVec.extractLsb'_eq_self

/-- Field 1 of a word of pieces of 12, 4 bits. -/
theorem field_12_4_1 (o : BitVec 12) (a : BitVec 4) :
    (o ++ a).extractLsb' 0 4 = a :=
  ((BitVec.extractLsb'_append_eq_of_add_le (xhi := o) (xlo := a) (by decide))).trans
      BitVec.extractLsb'_eq_self

/-- Field 1 of a word of pieces of 8, 8 bits. -/
theorem field_8_8_1 (o : BitVec 8) (a : BitVec 8) :
    (o ++ a).extractLsb' 0 8 = a :=
  ((BitVec.extractLsb'_append_eq_of_add_le (xhi := o) (xlo := a) (by decide))).trans
      BitVec.extractLsb'_eq_self

/-- Field 1 of a word of pieces of 5, 11 bits. -/
theorem field_5_11_1 (o : BitVec 5) (a : BitVec 11) :
    (o ++ a).extractLsb' 0 11 = a :=
  ((BitVec.extractLsb'_append_eq_of_add_le (xhi := o) (xlo := a) (by decide))).trans
      BitVec.extractLsb'_eq_self

/-- Field 1 of a word of pieces of 8, 4, 4 bits. -/
theorem field_8_4_4_1 (o : BitVec 8) (a : BitVec 4) (b : BitVec 4) :
    (o ++ (a ++ b)).extractLsb' 4 4 = a :=
  ((BitVec.extractLsb'_append_eq_of_add_le (xhi := o) (xlo := a ++ b) (by decide))).trans
      (BitVec.extractLsb'_append_eq_left (a := a) (b := b))

/-- Field 2 of a word of pieces of 8, 4, 4 bits. -/
theorem field_8_4_4_2 (o : BitVec 8) (a : BitVec 4) (b : BitVec 4) :
    (o ++ (a ++ b)).extractLsb' 0 4 = b :=
  (((BitVec.extractLsb'_append_eq_of_add_le (xhi := o) (xlo := a ++ b) (by decide))).trans
      (BitVec.extractLsb'_append_eq_of_add_le (xhi := a) (xlo := b) (by decide))).trans
      BitVec.extractLsb'_eq_self

/-- Field 1 of a word of pieces of 7, 5, 4 bits. -/
theorem field_7_5_4_1 (o : BitVec 7) (a : BitVec 5) (b : BitVec 4) :
    (o ++ (a ++ b)).extractLsb' 4 5 = a :=
  ((BitVec.extractLsb'_append_eq_of_add_le (xhi := o) (xlo := a ++ b) (by decide))).trans
      (BitVec.extractLsb'_append_eq_left (a := a) (b := b))

/-- Field 2 of a word of pieces of 7, 5, 4 bits. -/
theorem field_7_5_4_2 (o : BitVec 7) (a : BitVec 5) (b : BitVec 4) :
    (o ++ (a ++ b)).extractLsb' 0 4 = b :=
  (((BitVec.extractLsb'_append_eq_of_add_le (xhi := o) (xlo := a ++ b) (by decide))).trans
      (BitVec.extractLsb'_append_eq_of_add_le (xhi := a) (xlo := b) (by decide))).trans
      BitVec.extractLsb'_eq_self

theorem ldW (rz : Reg) (rx : Reg) (d : BitVec 4) : Statement (.ldW rz rx d) := by
  refine of_row _ 0 (by decide) rfl (hits_opcode (0x8#4) (rz ++ (d ++ rx))) ?_
  exact congr (congrArg₂ Instr.ldW (field_4_4_4_4_1 ..) (field_4_4_4_4_3 ..)) (field_4_4_4_4_2 ..)

theorem stW (rz : Reg) (rx : Reg) (d : BitVec 4) : Statement (.stW rz rx d) := by
  refine of_row _ 1 (by decide) rfl (hits_opcode (0x9#4) (rz ++ (d ++ rx))) ?_
  exact congr (congrArg₂ Instr.stW (field_4_4_4_4_1 ..) (field_4_4_4_4_3 ..)) (field_4_4_4_4_2 ..)

theorem ldB (rz : Reg) (rx : Reg) (d : BitVec 4) : Statement (.ldB rz rx d) := by
  refine of_row _ 2 (by decide) rfl (hits_opcode (0xA#4) (rz ++ (d ++ rx))) ?_
  exact congr (congrArg₂ Instr.ldB (field_4_4_4_4_1 ..) (field_4_4_4_4_3 ..)) (field_4_4_4_4_2 ..)

theorem stB (rz : Reg) (rx : Reg) (d : BitVec 4) : Statement (.stB rz rx d) := by
  refine of_row _ 3 (by decide) rfl (hits_opcode (0xB#4) (rz ++ (d ++ rx))) ?_
  exact congr (congrArg₂ Instr.stB (field_4_4_4_4_1 ..) (field_4_4_4_4_3 ..)) (field_4_4_4_4_2 ..)

theorem ldH (rz : Reg) (rx : Reg) (d : BitVec 4) : Statement (.ldH rz rx d) := by
  refine of_row _ 4 (by decide) rfl (hits_opcode (0xC#4) (rz ++ (d ++ rx))) ?_
  exact congr (congrArg₂ Instr.ldH (field_4_4_4_4_1 ..) (field_4_4_4_4_3 ..)) (field_4_4_4_4_2 ..)

theorem stH (rz : Reg) (rx : Reg) (d : BitVec 4) : Statement (.stH rz rx d) := by
  refine of_row _ 5 (by decide) rfl (hits_opcode (0xD#4) (rz ++ (d ++ rx))) ?_
  exact congr (congrArg₂ Instr.stH (field_4_4_4_4_1 ..) (field_4_4_4_4_3 ..)) (field_4_4_4_4_2 ..)

theorem ldm (rf : Reg) : Statement (.ldm rf) := by
  refine of_row _ 6 (by decide) rfl (hits_opcode (0x006#12) (rf)) ?_
  exact congrArg Instr.ldm (field_12_4_1 ..)

theorem ldq (rx : Reg) : Statement (.ldq rx) := by
  refine of_row _ 7 (by decide) rfl (hits_opcode (0x004#12) (rx)) ?_
  exact congrArg Instr.ldq (field_12_4_1 ..)

theorem stm (rf : Reg) : Statement (.stm rf) := by
  refine of_row _ 8 (by decide) rfl (hits_opcode (0x007#12) (rf)) ?_
  exact congrArg Instr.stm (field_12_4_1 ..)

theorem stq (rx : Reg) : Statement (.stq rx) := by
  refine of_row _ 9 (by decide) rfl (hits_opcode (0x005#12) (rx)) ?_
  exact congrArg Instr.stq (field_12_4_1 ..)

theorem jmp (rx : Reg) : Statement (.jmp rx) := by
  refine of_row _ 10 (by decide) rfl (hits_opcode (0x00C#12) (rx)) ?_
  exact congrArg Instr.jmp (field_12_4_1 ..)

theorem jsr (rx : Reg) : Statement (.jsr rx) := by
  refine of_row _ 11 (by decide) rfl (hits_opcode (0x00D#12) (rx)) ?_
  exact congrArg Instr.jsr (field_12_4_1 ..)

theorem jmpi (d : BitVec 8) : Statement (.jmpi d) := by
  refine of_row _ 12 (by decide) rfl (hits_opcode (0x70#8) (d)) ?_
  exact congrArg Instr.jmpi (field_8_8_1 ..)

theorem jsri (d : BitVec 8) : Statement (.jsri d) := by
  refine of_row _ 13 (by decide) rfl (hits_opcode (0x7F#8) (d)) ?_
  exact congrArg Instr.jsri (field_8_8_1 ..)

theorem br (d : BitVec 11) : Statement (.br d) := by
  refine of_row _ 14 (by decide) rfl (hits_opcode (0b11110#5) (d)) ?_
  exact congrArg Instr.br (field_5_11_1 ..)

theorem bt (d : BitVec 11) : Statement (.bt d) := by
  refine of_row _ 15 (by decide) rfl (hits_opcode (0b11100#5) (d)) ?_
  exact congrArg Instr.bt (field_5_11_1 ..)

theorem bf (d : BitVec 11) : Statement (.bf d) := by
  refine of_row _ 16 (by decide) rfl (hits_opcode (0b11101#5) (d)) ?_
  exact congrArg Instr.bf (field_5_11_1 ..)

theorem bsr (d : BitVec 11) : Statement (.bsr d) := by
  refine of_row _ 17 (by decide) rfl (hits_opcode (0b11111#5) (d)) ?_
  exact congrArg Instr.bsr (field_5_11_1 ..)

theorem loopt (ry : Reg) (d : BitVec 4) : Statement (.loopt ry d) := by
  refine of_row _ 18 (by decide) rfl (hits_opcode (0x04#8) (ry ++ d)) ?_
  exact congrArg₂ Instr.loopt (field_8_4_4_1 ..) (field_8_4_4_2 ..)

theorem divs (rx : Reg) : Statement (.divs rx) := by
  refine of_row _ 19 (by decide) rfl (hits_opcode (0x321#12) (rx)) ?_
  exact congrArg Instr.divs (field_12_4_1 ..)

theorem divu (rx : Reg) : Statement (.divu rx) := by
  refine of_row _ 20 (by decide) rfl (hits_opcode (0x2C1#12) (rx)) ?_
  exact congrArg Instr.divu (field_12_4_1 ..)

theorem mult (rx : Reg) (ry : Reg) : Statement (.mult rx ry) := by
  refine of_row _ 21 (by decide) rfl (hits_opcode (0x03#8) (ry ++ rx)) ?_
  exact congrArg₂ Instr.mult (field_8_4_4_2 ..) (field_8_4_4_1 ..)

theorem mfcr (rx : Reg) (c : BitVec 5) : Statement (.mfcr rx c) := by
  refine of_row _ 22 (by decide) rfl (hits_opcode (0b0001000#7) (c ++ rx)) ?_
  exact congrArg₂ Instr.mfcr (field_7_5_4_2 ..) (field_7_5_4_1 ..)

theorem mtcr (rx : Reg) (c : BitVec 5) : Statement (.mtcr rx c) := by
  refine of_row _ 23 (by decide) rfl (hits_opcode (0b0001100#7) (c ++ rx)) ?_
  exact congrArg₂ Instr.mtcr (field_7_5_4_2 ..) (field_7_5_4_1 ..)

theorem rte : Statement .rte := of_row _ 24 (by decide) rfl (by decide) rfl

theorem rfi : Statement .rfi := of_row _ 25 (by decide) rfl (by decide) rfl

theorem stop : Statement .stop := of_row _ 26 (by decide) rfl (by decide) rfl

theorem wait : Statement .wait := of_row _ 27 (by decide) rfl (by decide) rfl

theorem doze : Statement .doze := of_row _ 28 (by decide) rfl (by decide) rfl

theorem bkpt : Statement .bkpt := of_row _ 30 (by decide) rfl (by decide) rfl

theorem trap (n : BitVec 3) : Statement (.trap n) := by
  intro w _ he
  have h : ∀ n : BitVec 3, n.getLsbD 2 = true ∨
      lookup (0b00000000000010#14 ++ n.extractLsb' 0 2) = some (.trap n) := by decide
  rcases h n with h | h
  · simp [encode, h] at he
  · simp only [encode] at he
    split at he
    · simp at he
    · rw [← Option.some.inj he]
      exact decodeWord_of_lookup h

theorem hai (op : Half) : Statement (.hai op) := by
  intro w hwf he
  obtain rfl : op = w := by simpa [encode] using he
  simp only [Instr.wellFormed, outsideTable, Bool.and_eq_true, Option.isNone_iff_eq_none, beq_iff_eq] at hwf
  simp [decodeWord, decodeOther, hwf.1, hwf.2]

end Sys2Proof.Laws.RoundTrip
end

