-- ==== Sys2Proof/Laws/Psr.lean ====
section
/-! SUPPORT. Laws of the PSR's two forms: the fields one after another, the layout, and the code of TM (D1, D12). -/

namespace Sys2Proof.Machine

theorem Tm.ofNum_num (t : Tm) : Tm.ofNum t.num = t := by
  cases t <;> rfl

theorem Tm.num_ofNum (b : BitVec 2) : (Tm.ofNum b).num = b := by
  revert b; decide

theorem Tm.ofCode_code (t : Tm) : Tm.ofCode t.code = t := by
  simp [Tm.ofCode, Tm.code, Tm.ofNum_num]

theorem Tm.code_ofCode (b : BitVec 2) : (Tm.ofCode b).code = b := by
  simp [Tm.ofCode, Tm.code, Tm.num_ofNum]

/-- A permutation of the bits, undone. -/
theorem permuteBits_symm (f : Equiv.Perm (Fin 32)) (w : Word) : permuteBits f.symm (permuteBits f w) = w := by
  apply BitVec.eq_of_getLsbD_eq
  intro i hi
  simp [permuteBits, hi]

/-- The bits of a laid-out PSR. -/
theorem Psr.getLsbD_canon (p : Psr) (i : Nat) (hi : i < 32) :
    p.canon.getLsbD i =
      if i < 1 then (BitVec.ofBool p.s).getLsbD i
      else if i < 3 then p.tm.code.getLsbD (i - 1)
      else if i < 4 then (BitVec.ofBool p.tp).getLsbD (i - 3)
      else if i < 5 then (BitVec.ofBool p.ee).getLsbD (i - 4)
      else if i < 6 then (BitVec.ofBool p.ie).getLsbD (i - 5)
      else if i < 7 then (BitVec.ofBool p.fe).getLsbD (i - 6)
      else if i < 8 then (BitVec.ofBool p.ic).getLsbD (i - 7)
      else if i < 9 then (BitVec.ofBool p.mm).getLsbD (i - 8)
      else if i < 10 then (BitVec.ofBool p.db).getLsbD (i - 9)
      else if i < 14 then p.u.getLsbD (i - 10)
      else if i < 15 then (BitVec.ofBool p.c).getLsbD (i - 14)
      else if i < 16 then (BitVec.ofBool p.af).getLsbD (i - 15)
      else p.rest.getLsbD (i - 16) := by
  have e : p.canon.getLsbD i = (p.rest ++ BitVec.ofBool p.af ++ BitVec.ofBool p.c ++ p.u ++ BitVec.ofBool p.db ++
      BitVec.ofBool p.mm ++ BitVec.ofBool p.ic ++ BitVec.ofBool p.fe ++ BitVec.ofBool p.ie ++ BitVec.ofBool p.ee ++
      BitVec.ofBool p.tp ++ p.tm.code ++ BitVec.ofBool p.s).getLsbD i := rfl
  rw [e]
  simp only [BitVec.getLsbD_append]
  interval_cases i <;> rfl

/-- Reading the fields of a laid-out PSR gives it back. -/
theorem Psr.ofCanon_canon (p : Psr) : Psr.ofCanon p.canon = p := by
  have tm : p.canon.extractLsb' 1 2 = p.tm.code := by
    apply BitVec.eq_of_getLsbD_eq
    intro i hi
    rw [BitVec.getLsbD_extractLsb', Psr.getLsbD_canon _ _ (by omega)]
    interval_cases i <;> simp
  have u : p.canon.extractLsb' 10 4 = p.u := by
    apply BitVec.eq_of_getLsbD_eq
    intro i hi
    rw [BitVec.getLsbD_extractLsb', Psr.getLsbD_canon _ _ (by omega)]
    interval_cases i <;> simp
  have r : p.canon.extractLsb' 16 16 = p.rest := by
    apply BitVec.eq_of_getLsbD_eq
    intro i hi
    rw [BitVec.getLsbD_extractLsb', Psr.getLsbD_canon _ _ (by omega)]
    interval_cases i <;> simp
  rw [Psr.ofCanon, tm, u, r, Tm.ofCode_code]
  simp [Psr.getLsbD_canon, -BitVec.getLsbD_eq_getElem]

/-- Laying out the fields of a word gives it back. -/
theorem Psr.canon_ofCanon (w : Word) : (Psr.ofCanon w).canon = w := by
  apply BitVec.eq_of_getLsbD_eq
  intro i hi
  rw [Psr.getLsbD_canon _ _ hi]
  simp only [Psr.ofCanon, Tm.code_ofCode]
  interval_cases i <;> simp

end Sys2Proof.Machine
end

