-- ==== Sys2Proof/Laws/Step.lean ====
section
/-! SUPPORT. Laws of the step: what stages 1 to 5 of R158 give, what stage 8 gives, and everything a step that answers a next
state can have done. -/

namespace Sys2Proof.Machine

/-! ### The fetched word -/

theorem State.readBytes_eq (s : State) (m : Mode) (a : Word) (n : Nat) :
    s.readBytes m a n = (List.range n).map (s.byteAt m a) := by
  induction n generalizing a with
  | zero => rfl
  | succ n ih =>
    rw [State.readBytes, ih, List.range_succ_eq_map, List.map_cons, List.map_map, State.byteAt, add_ofNat_zero]
    congr 1
    exact List.map_congr_left fun k _ => by
      rw [State.byteAt, add_one_ofNat]; rfl

/-- The two bytes of an instruction, put together, are the half at its address. -/
theorem State.decode_two (s : State) (m : Mode) (a : Word) :
    decode s.plat.bigEndian [s.byteAt m a 0, s.byteAt m a 1] =
      match decodeWord (s.halfAt m a) with
      | .ok d => .ok (d, [])
      | .error e => .error (.word e) := rfl

/-- With R65's table the instruction at the pc is that of the word there. -/
theorem State.decodeNext_table {s : State} (h : s.plat.encoding = .table) :
    s.decodeNext = decodeWord (s.halfAt s.mode s.pc) := by
  simp only [State.decodeNext, h, State.halfAt, State.byteAt, add_ofNat_zero]
  rfl

/-- With another encoding it is the decoder parameter's. -/
theorem State.decodeNext_other {s : State} {units : Nat} (h : s.plat.encoding = .other units) :
    s.decodeNext = match Config.otherDecode ((List.range (2 * (units + 1))).map (s.byteAt s.mode s.pc)) with
      | some d => .ok d
      | none => .error .illegal := by
  cases hd : Config.otherDecode ((List.range (2 * (units + 1))).map (s.byteAt s.mode s.pc)) <;>
    simp [State.decodeNext, h, State.readBytes_eq, hd]

/-- What `decodes` says is what the fetch decodes. -/
theorem State.decodes_iff {s : State} {d : Decoded} : s.decodes d ↔ s.decodeNext = .ok d := by
  unfold State.decodes
  cases he : s.plat.encoding with
  | table =>
    rw [State.decodeNext_table he, State.decode_two]
    cases decodeWord (s.halfAt s.mode s.pc) <;> simp
  | other units =>
    rw [State.decodeNext_other he]
    simp only [Encoding.other.injEq, exists_eq_left', reduceCtorEq, false_and, false_or]
    generalize Config.otherDecode _ = r
    cases r <;> simp

section Latch

variable (s : State)

@[simp] theorem State.latch_mode : s.latch.mode = s.mode := rfl
@[simp] theorem State.latch_modified : s.latch.modified = s.modified := rfl
@[simp] theorem State.latch_decodeNext : s.latch.decodeNext = s.decodeNext := by
  cases h : s.plat.encoding with
  | table => rw [State.decodeNext_table h, State.decodeNext_table (s := s.latch) h]; rfl
  | other units => rw [State.decodeNext_other h, State.decodeNext_other (s := s.latch) h]; rfl
@[simp] theorem State.latch_key (m : Mode) (a : Word) : s.latch.key m a = s.key m a := rfl
@[simp] theorem State.latch_readByte (m : Mode) (a : Word) : s.latch.readByte m a = s.readByte m a := rfl
@[simp] theorem State.latch_byteAt (m : Mode) (a : Word) (k : Nat) : s.latch.byteAt m a k = s.byteAt m a k := rfl
@[simp] theorem State.latch_halfAt (m : Mode) (a : Word) : s.latch.halfAt m a = s.halfAt m a := rfl
@[simp] theorem State.latch_wordAt (m : Mode) (a : Word) : s.latch.wordAt m a = s.wordAt m a := rfl

theorem State.mem_latch_fetchErr (a : Word) :
    a ∈ s.latch.fetchErr ↔ a ∈ s.env.fetchTea ∨ a ∈ s.env.fetchMmu ∨ a ∈ s.fetchErr := by
  simp [State.latch, or_assoc]

theorem State.mem_latch_fetchBrk (a : Word) :
    a ∈ s.latch.fetchBrk ↔ a ∈ s.env.fetchBrk ∨ a ∈ s.fetchBrk := by
  simp [State.latch]

end Latch

/-! ### The decoded instruction -/

@[simp] theorem execute_named (i : Instr) (s : State) : execute (.named i) s = exec i s := rfl
@[simp] theorem execute_other (s : State) : execute .other s = execOther s := rfl
@[simp] theorem isOtherTraceDue_off : isOtherTraceDue .off = false := rfl
@[simp] theorem isOtherTraceDue_instr : isOtherTraceDue .instr = true := rfl
@[simp] theorem isOtherTraceDue_flow : isOtherTraceDue .flow = false := rfl

/-- Everything `other` can have done. -/
theorem execOther_cases {s t : State} (h : execOther s = .next t) :
    t = s.drawCore.retireOther s.psr.tm := by
  simpa [execOther] using h.symm

/-! ### Stages 1 to 5 -/

theorem State.front_of_noReset {s : State} (h : s.noReset) : s.front = s.latch.attempt := by
  simp [State.front, h.reset, h.srst, h.srstSeen]

/-- With no reset and nothing at the boundary before, an awake core fetches. -/
theorem State.front_of_quiet {s : State} (h : s.noReset) (hb : s.latch.boundaryBefore = none)
    (hl : s.lowPower = none) : s.front = s.latch.fetch := by
  simp [State.front_of_noReset h, State.attempt, hb, hl]

theorem State.fetches.noReset {s : State} (h : s.fetches) : s.noReset := ⟨h.reset, h.srst, h.srstSeen⟩

/-- Where nothing pre-empts the fetch, what follows is the decoded instruction's. -/
theorem State.front_of_fetches {s : State} (h : s.fetches) :
    s.front = match s.decodeNext with
      | .ok d => if s.plat.implements d then .run d s.latch else .ended (s.latch.raise .illegalInstruction s.pc)
      | .error .illegal => .ended (s.latch.raise .illegalInstruction s.pc)
      | .error .unlisted => .ended (.refused .unlistedWord) := by
  rw [State.front_of_quiet h.noReset h.boundary h.awake]
  simp only [State.fetch, State.latch_pc, h.fetchErr, h.even, State.latch_modified, h.unmodified, State.latch_decodeNext,
    State.latch_plat, if_false, Bool.false_eq_true]
  rfl

/-- A run front gives the instruction to the latched state. -/
theorem State.fetch_run {s u : State} {d : Decoded} (h : s.fetch = .run d u) :
    u = s ∧ isOdd s.pc = false ∧ s.decodeNext = .ok d := by
  simp only [State.fetch] at h
  split at h
  · cases h
  · split at h
    · cases h
    · next ho =>
      split at h
      · cases h
      · split at h
        · next j hd =>
          split at h
          · cases h; exact ⟨rfl, by simpa using ho, hd⟩
          · cases h
        · cases h
        · cases h

/-- A fetch that ends the step in a next state has made an exception entry. -/
theorem State.fetch_ended {s u : State} (h : s.fetch = .ended (.next u)) : Entered s u := by
  simp only [State.fetch] at h
  split at h
  · exact State.raise_entered (Front.ended.inj h)
  · split at h
    · cases h
    · split at h
      · cases h
      · split at h
        · split at h
          · cases h
          · exact State.raise_entered (Front.ended.inj h)
        · exact State.raise_entered (Front.ended.inj h)
        · cases h

theorem State.boundaryBefore_entered {s u : State} (h : s.boundaryBefore = some (.next u)) : Entered s u := by
  simp only [State.boundaryBefore] at h
  split at h
  · exact State.raise_entered (Option.some.inj h)
  · exact State.interrupt_entered h

/-- With no tag on the fetch, the boundary before is the interrupts'. -/
theorem State.boundaryBefore_none {s : State} :
    s.boundaryBefore = none ↔ s.pc ∉ s.fetchBrk ∧ ¬ Unmasked s.env.pre s.psr := by
  simp only [State.boundaryBefore]
  split
  · simp [*]
  · simp [*, State.interrupt_none]

/-! ### Stage 8 -/

/-- Stage 8 makes an exception entry, or changes nothing and leaves no mark behind. -/
theorem State.boundaryAfter_next {s u : State} (h : s.boundaryAfter = .next u) :
    Entered s u ∨ (u = s ∧ s.dataBrk = false ∧ s.traceDue = false) := by
  simp only [State.boundaryAfter] at h
  split at h
  · exact .inl (State.enterNormal_entered h)
  · next hb =>
    split at h
    · refine .inl ?_
      cases hi : s.interrupt s.env.post s.pc true with
      | none => rw [hi] at h; exact State.enterNormal_entered h
      | some r => rw [hi] at h; exact State.interrupt_entered (hi.trans (congrArg some h))
    · next ht =>
      simp only [Bool.or_eq_true, not_or] at hb
      exact .inr ⟨(Host.Outcome.next.inj h).symm, by simpa using hb.1, by simpa using ht⟩

/-! ### The step -/

theorem Result.bind_next {r : Result} {f : State → Result} {t : State} :
    Result.bind r f = .next t ↔ ∃ s, r = .next s ∧ f s = .next t := by
  cases r <;> simp [Result.bind]

theorem Result.close_next {r : Result} {t : State} : Result.close r = .next t ↔ ∃ s, r = .next s ∧ t = s.advance := by
  rw [Result.close, Result.bind_next]
  simp [eq_comm]

/-- Everything a step can have done when it answers a next state: a reset, a step of an asserted SRST, an exception entry
before an instruction, an idle low-power step, or an instruction followed by stage 8. -/
theorem step_cases {s t : State} (h : step s = .next t) :
    ∃ u, t = u.advance ∧
      (s.hardReset = .next u ∨ u = { s with srstSeen := true } ∨ s.softReset = .next u ∨
        Entered s.latch u ∨ u = s.latch ∨
        ∃ d v, s.lowPower = none ∧ isOdd s.pc = false ∧ execute d s.latch = .next v ∧ v.boundaryAfter = .next u) := by
  cases hf : s.front with
  | ended r =>
    simp only [step, hf, Result.close_next] at h
    obtain ⟨u, rfl, rfl⟩ := h
    refine ⟨u, rfl, ?_⟩
    simp only [State.front] at hf
    split at hf
    · exact .inl (Front.ended.inj hf)
    · split at hf
      · exact .inr (.inl (Host.Outcome.next.inj (Front.ended.inj hf)).symm)
      · split at hf
        · exact .inr (.inr (.inl (Front.ended.inj hf)))
        · simp only [State.attempt] at hf
          split at hf
          · next hb =>
            have := hb.trans (congrArg some (Front.ended.inj hf))
            exact .inr (.inr (.inr (.inl (State.boundaryBefore_entered this))))
          · split at hf
            · exact .inr (.inr (.inr (.inr (.inl (Host.Outcome.next.inj (Front.ended.inj hf)).symm))))
            · exact .inr (.inr (.inr (.inl (State.fetch_ended hf))))
  | run d w =>
    simp only [step, hf, Result.close_next, Result.bind_next] at h
    obtain ⟨u, ⟨v, hv, hu⟩, rfl⟩ := h
    refine ⟨u, rfl, .inr (.inr (.inr (.inr (.inr ⟨d, v, ?_⟩))))⟩
    simp only [State.front] at hf
    split at hf
    · cases hf
    · split at hf
      · cases hf
      · split at hf
        · cases hf
        · simp only [State.attempt] at hf
          split at hf
          · cases hf
          · split at hf
            · cases hf
            · next hl =>
              obtain ⟨rfl, ho, -⟩ := State.fetch_run hf
              exact ⟨by simpa using hl, ho, hv, hu⟩

end Sys2Proof.Machine
end

