-- ==== Sys2Proof/Tests/Slice0.lean ====
section
/-! SUPPORT. Tests: words written out from R65, the vectors and programs of 95_test_vectors.md and the examples of files
40 to 43 as single steps, and for every statement with hypotheses a state that meets them. -/

namespace Sys2Proof.Tests

open Sys2Proof Sys2Proof.Machine

/-! ### Well-formedness -/

/-- A word that R65's table gives to `ld.w` is no `hai` opcode. -/
theorem test_illFormed_hai : (Instr.hai 0x8203).wellFormed = false := by decide

theorem test_wellFormed_trap : (Instr.trap 7).wellFormed = true := by decide

/-! ### Decoding: every constructor, its word written out from R65's pattern -/

theorem test_decode_loadStore :
    decodeWord 0b1000_0010_0101_0011 = .ok (.named (.ldW 2 3 5)) ∧
    decodeWord 0b1001_0010_0101_0011 = .ok (.named (.stW 2 3 5)) ∧
    decodeWord 0b1010_1110_0001_0111 = .ok (.named (.ldB 14 7 1)) ∧
    decodeWord 0b1011_1110_0001_0111 = .ok (.named (.stB 14 7 1)) ∧
    decodeWord 0b1100_0000_1111_1010 = .ok (.named (.ldH 0 10 15)) ∧
    decodeWord 0b1101_0000_1111_1010 = .ok (.named (.stH 0 10 15)) := by
  decide

theorem test_decode_multiple :
    decodeWord 0b0000_0000_0110_1101 = .ok (.named (.ldm 13)) ∧
    decodeWord 0b0000_0000_0100_0010 = .ok (.named (.ldq 2)) ∧
    decodeWord 0b0000_0000_0111_0001 = .ok (.named (.stm 1)) ∧
    decodeWord 0b0000_0000_0101_1111 = .ok (.named (.stq 15)) := by
  decide

theorem test_decode_jumps :
    decodeWord 0b0000_0000_1100_0101 = .ok (.named (.jmp 5)) ∧
    decodeWord 0b0000_0000_1101_1110 = .ok (.named (.jsr 14)) ∧
    decodeWord 0b0111_0000_1000_0001 = .ok (.named (.jmpi 0x81)) ∧
    decodeWord 0b0111_1111_1000_0001 = .ok (.named (.jsri 0x81)) := by
  decide

theorem test_decode_branches :
    decodeWord 0b1111_0111_1111_1111 = .ok (.named (.br 0x7FF)) ∧
    decodeWord 0b1110_0000_0000_0111 = .ok (.named (.bt 7)) ∧
    decodeWord 0b1110_1100_0000_0000 = .ok (.named (.bf 0x400)) ∧
    decodeWord 0b1111_1000_0000_0001 = .ok (.named (.bsr 1)) ∧
    decodeWord 0b0000_0100_0011_1001 = .ok (.named (.loopt 3 9)) := by
  decide

theorem test_decode_arith :
    decodeWord 0b0011_0010_0001_0111 = .ok (.named (.divs 7)) ∧
    decodeWord 0b0010_1100_0001_0010 = .ok (.named (.divu 2)) ∧
    decodeWord 0b0000_0011_0100_0101 = .ok (.named (.mult 5 4)) := by
  decide

theorem test_decode_system :
    decodeWord 0b0001_0000_0101_0010 = .ok (.named (.mfcr 2 5)) ∧
    decodeWord 0b0001_1001_1111_0011 = .ok (.named (.mtcr 3 0x1F)) ∧
    decodeWord 0b0000_0000_0000_0010 = .ok (.named .rte) ∧
    decodeWord 0b0000_0000_0000_0011 = .ok (.named .rfi) ∧
    decodeWord 0b0000_0000_0000_0100 = .ok (.named .stop) ∧
    decodeWord 0b0000_0000_0000_0101 = .ok (.named .wait) ∧
    decodeWord 0b0000_0000_0000_0110 = .ok (.named .doze) ∧
    decodeWord 0b0000_0000_0000_1011 = .ok (.named (.trap 3)) ∧
    decodeWord 0b0000_0000_0000_0000 = .ok (.named .bkpt) := by
  decide

/-- R65 gives `hai` no pattern: such a word, if the decoder parameter has one, decodes to it, and so do `trap #4` to `#7`
and the catch-all of R62. -/
theorem test_decode_other (w : Half) (h : lookup w = none) :
    (Config.otherWord w = .hai → decodeWord w = .ok (.named (.hai w))) ∧
    (∀ k, Config.otherWord w = .trapHigh k → decodeWord w = .ok (.named (.trap (1#1 ++ k)))) ∧
    (Config.otherWord w = .other → decodeWord w = .ok .other) := by
  refine ⟨fun ho => ?_, fun k ho => ?_, fun ho => ?_⟩ <;> simp [decodeWord, decodeOther, h, ho]

/-- A word claimed by no row: `lrw`, the literal load that R65 sets apart from `jmpi` and `jsri`. -/
theorem test_lookup_lrw : lookup 0b0111_0011_0000_0001 = none := by decide

/-! ### Small states -/

/-- A field of the next state, if there is one. -/
def look {α : Type} (f : State → α) : Result → Option α
  | .next t => some (f t)
  | .fault _ => none
  | .refused _ => none

/-- The reason of a fault or a refusal, if the step stops. -/
def stops : Result → Option (Fault ⊕ Refusal)
  | .next _ => none
  | .fault r => some (.inl r)
  | .refused r => some (.inr r)

/-- A word put into supervisor memory. -/
def word (a v : Word) (s : State) : State := { s with mem := (s.writeN .supervisor a 4 v).mem }

/-- An instruction unit put into supervisor memory. -/
def code (a : Word) (w : Half) (s : State) : State := { s with mem := (s.writeN .supervisor a 2 (w.setWidth 32)).mem }

/-- At 0x1000, with the PSR given. -/
def start (p : Psr) : State := { State.reset with pc := 0x1000, psr := p }

/-- Supervisor mode, EE = 1. -/
def sup : Psr := { Psr.zero with s := true, ee := true }

/-- User mode, EE = 1. -/
def user : Psr := { Psr.zero with ee := true }

/-- INT# and AVEC# asserted. -/
def intAvec : Irq := { int := true, avec := true }

/-- FINT# and AVEC# asserted. -/
def fintAvec : Irq := { fint := true, avec := true }

/-- The same machine on another platform. -/
def on (p : Platform) (s : State) : State := { s with plat := p }

/-! ### Loads and stores -/

/-- P2, MM = m: the vector, the `ld.w r2,(r3,0)`, the data. -/
def p2 (m : Bool) : State :=
  ((start { sup with mm := m } |> word 4 0x2000 |> code 0x1000 0x8203 |> word 0x4000 0xAABBCCDD |>
    word 0x4004 0x11223344).setReg 3 0x4002).setReg 2 0x55555555

/-- P2 with m = 0, V4. -/
theorem test_ldW_misaligned :
    look (fun t => (t.pc, t.epc, t.psr.ee, t.epsr.ee, t.reg 2)) (step (p2 false)) =
      some (0x2000, 0x1000, false, true, 0x55555555) := by
  decide

/-- P2 with m = 1, V5. -/
theorem test_ldW_masked :
    look (fun t => (t.pc, t.reg 2)) (step (p2 true)) = some (0x1002, 0xAABBCCDD) := by
  decide

/-- V5b: a halfword load at 0x4003 with MM = 1 reads the halfword at 0x4002. -/
theorem test_ldH_masked :
    look (fun t => (t.pc, t.reg 2)) (exec (.ldH 2 3 0) ((p2 true).setReg 3 0x4003)) = some (0x1002, 0x0000CCDD) := by
  decide

/-- V5d: a byte load at 0x4003 is aligned, MM = 0; zero-extended (GK). -/
theorem test_ldB : look (fun t => t.reg 2) (exec (.ldB 2 3 1) (p2 false)) = some 0x000000DD := by decide

/-- V6: misaligned on an address that answers TEA#: the check comes first. -/
theorem test_stW_misaligned_first :
    look (fun t => (t.pc, t.epc)) (exec (.stW 2 3 0) { p2 false with env := { dataTea := some 0 } }) =
      some (0x2000, 0x1000) := by
  decide

/-- A word store at 0x4002 with MM = 1 writes the word at 0x4000 (R43) and not the next one. -/
theorem test_stW : look (fun t => (t.wordAt .supervisor 0x4000, t.wordAt .supervisor 0x4004)) (exec (.stW 2 3 0) (p2 true)) =
    some (0x55555555, 0x11223344) := by
  decide

/-- V5c: a halfword store at 0x4001 with MM = 1 writes the halfword at 0x4000. -/
theorem test_stH_masked :
    look (fun t => t.wordAt .supervisor 0x4000) (exec (.stH 2 3 0) ((p2 true).setReg 3 0x4001)) = some 0x5555CCDD := by
  decide

/-- One byte stored, its neighbours kept. -/
theorem test_stB : look (fun t => t.wordAt .supervisor 0x4000) (exec (.stB 2 3 0) (p2 false)) = some 0xAABB55DD := by
  decide

/-! ### Multi-register instructions -/

/-- Two words at the address in r0, registers to store. -/
def multi : State :=
  ((((start { sup with ie := true, fe := true } |> word 4 0x2000 |> word 8 0x2400 |> word 0x4000 0x01020304 |>
    word 0x4004 0x05060708).setReg 0 0x4000).setReg 14 0xE0E0E0E0).setReg 15 0xF0F0F0F0)

/-- `ldm r14-r15,(r0)` loads consecutive words in register order (R71, GK). -/
theorem test_ldm :
    look (fun t => (t.reg 14, t.reg 15, t.reg 0, t.pc)) (exec (.ldm 14) multi) =
      some (0x01020304, 0x05060708, 0x4000, 0x1002) := by
  decide

/-- R71's example: IC = 1 and INT# after the first transfer: the normal interrupt, EPC = the `ldm`. -/
theorem test_ldm_cut :
    look (fun t => (t.epc, t.epsr.tp, t.psr.ee))
      (exec (.ldm 14) { multi with psr := { sup with ie := true, ic := true }, env := { mid := intAvec, midAt := some 1 } }) =
      some (0x1000, false, false) := by
  decide

/-- R72's example: `rx` = 0x2002 with MM = 0: misaligned, EPC = the `ldq`, r4 not loaded. -/
theorem test_ldq_misaligned :
    look (fun t => (t.pc, t.epc, t.reg 4)) (exec (.ldq 3) ((multi.setReg 3 0x2002).setReg 4 9)) =
      some (0x2000, 0x1000, 9) := by
  decide

/-- R73's example: IC = 0: the `stm` completes whatever is asserted inside it. -/
theorem test_stm :
    look (fun t => (t.wordAt .supervisor 0x4000, t.wordAt .supervisor 0x4004, t.pc))
      (exec (.stm 14) { multi with env := { mid := intAvec, midAt := some 1 } }) =
      some (0xE0E0E0E0, 0xF0F0F0F0, 0x1002) := by
  decide

/-- With IC = 1 and FINT# after one transfer: FPC = the `stm`, one word stored (R73, R150). -/
theorem test_stm_cut :
    look (fun t => (t.wordAt .supervisor 0x4000, t.wordAt .supervisor 0x4004, t.fpc))
      (exec (.stm 14) { multi with psr := { sup with fe := true, ic := true }, env := { mid := fintAvec, midAt := some 1 } }) =
      some (0xE0E0E0E0, 0x05060708, 0x1000) := by
  decide

/-- R74's example, on `ldq`: TEA# on the third transfer: vector 2, EPC = the instruction; a register beyond the list kept. -/
theorem test_ldq_tea :
    look (fun t => (t.pc, t.epc, t.reg 14)) (exec (.ldq 0) { multi with env := { dataTea := some 2 } }) =
      some (0x2400, 0x1000, 0xE0E0E0E0) := by
  decide

/-! ### Control transfers -/

/-- Traced in user mode with the trace handler at 0x2000 (2.9). -/
def traced (tm : Tm) : State := start { user with tm := tm } |> word 0x18 0x2000 |> word 4 0x2400

/-- R80's example: TM = flow, `jmp` to 0x3000: trace, EPC = 0x3000. -/
theorem test_jmp_traced :
    look (fun t => (t.pc, t.epc)) (step (((traced .flow).setReg 5 0x3000) |> code 0x1000 0x00C5)) =
      some (0x2000, 0x3000) := by
  decide

/-- R81's example: TM = off: no exception; the link (GK). -/
theorem test_jsr :
    look (fun t => (t.pc, t.reg 15)) (step (((traced .off).setReg 5 0x3000) |> code 0x1000 0x00D5)) =
      some (0x3000, 0x1002) := by
  decide

/-- V7: `jmpi` whose literal is 0x5001: misaligned, EPC = the target, no trace under TM = flow. -/
theorem test_jmpi_odd :
    look (fun t => (t.pc, t.epc, t.epsr.tp)) (step (traced .flow |> code 0x1000 0x7000 |> word 0x1000 0x70000000 |>
      word 0x1004 0x5001 |> code 0x1000 0x7001)) =
      some (0x2400, 0x5001, false) := by
  decide

/-- V8 and R83: `jsri` to an even literal. -/
theorem test_jsri :
    look (fun t => (t.pc, t.reg 15)) (step (traced .off |> code 0x1000 0x7F01 |> word 0x1004 0x5000)) =
      some (0x5000, 0x1002) := by
  decide

/-- R84's example: 0xF7FF branches to itself. -/
theorem test_br_self : look (fun t => t.pc) (step (traced .off |> code 0x1000 0xF7FF)) = some 0x1000 := by decide

/-- V31: `bt` to 0x1010, not taken, TM = flow: trace, EPC = 0x1002. -/
theorem test_bt_not_taken :
    look (fun t => (t.pc, t.epc)) (step (traced .flow |> code 0x1000 0xE007)) = some (0x2000, 0x1002) := by decide

/-- V32: taken: EPC = 0x1010. -/
theorem test_bt_taken :
    look (fun t => (t.pc, t.epc)) (step (start { user with tm := .flow, c := true } |> word 0x18 0x2000 |>
      code 0x1000 0xE007)) = some (0x2000, 0x1010) := by
  decide

/-- R86's example: `bf` taken to 0x200 under TM = flow: EPC = 0x200. -/
theorem test_bf_taken :
    look (fun t => (t.pc, t.epc)) (step (start { user with tm := .flow } |> word 0x18 0x2000 |> code 0x0F00 0 |>
      code 0x100 0xE87F |> fun s => { s with pc := 0x100 })) = some (0x2000, 0x200) := by
  decide

/-- R87's example: TM = instr, `bsr`: EPC = the target; the link (GK). -/
theorem test_bsr_traced :
    look (fun t => (t.pc, t.epc, t.reg 15)) (step (traced .instr |> code 0x1000 0xF803)) =
      some (0x2000, 0x1008, 0x1002) := by
  decide

/-- V33: `loopt` under TM = flow leaves a trace due, taken or not. -/
theorem test_loopt_traced : look (fun t => t.traceDue) (exec (.loopt 3 9) (traced .flow)) = some true := by decide

/-! ### The catch-all -/

/-- V29: an `other` instruction under TM = instr completes and is traced, EPC = 0x1002. -/
theorem test_other_traced :
    look (fun t => (t.pc, t.epc, t.epsr.tp)) (Result.bind (execute .other (traced .instr)) State.boundaryAfter) =
      some (0x2000, 0x1002, false) := by
  decide

/-- V30: under TM = flow it completes and is not traced; V10: the tag of the next fetch stays. -/
theorem test_other_untraced :
    look (fun t => (t.pc, t.fetchErr))
      (Result.bind (execute .other { traced .flow with fetchErr := [0x1002] }) State.boundaryAfter) =
      some (0x1002, [0x1002]) := by
  decide

/-! ### Arithmetic -/

/-- P3: `divu r2,r1` with x[2] = 7. -/
def p3 (divisor : Word) : State :=
  ((start user |> word 0x0C 0x2000 |> code 0x1000 0x2C12).setReg 2 7).setReg 1 divisor

theorem test_divu_zero :
    look (fun t => (t.pc, t.epc, t.psr.s, t.epsr.s, t.reg 2)) (step (p3 0)) =
      some (0x2000, 0x1000, true, false, 7) := by
  decide

theorem test_divu : look (fun t => (t.pc, t.reg 2)) (step (p3 2)) = some (0x1002, 3) := by decide

/-- An exact signed quotient: -8 / 2 = -4 (R93, GK). -/
theorem test_divs_exact :
    look (fun t => t.reg 2) (exec (.divs 2) ((p3 2).setReg 2 0xFFFFFFF8)) = some 0xFFFFFFFC := by decide

/-- V28, outcome A: INT# inside a `divs` with IC = 1: EPC = the `divs`, the destination unchanged. -/
theorem test_divs_cut :
    look (fun t => (t.epc, t.reg 2, t.psr.ie))
      (exec (.divs 2) { p3 2 with psr := { user with ie := true, ic := true }, env := { mid := intAvec, midAt := some 0 } }) =
      some (0x1000, 7, false) := by
  decide

/-- The low 32 bits: 0x80000001 * 2 = 2 (R95, GK). -/
theorem test_mult_wraps :
    look (fun t => t.reg 2) (exec (.mult 2 1) ((p3 2).setReg 2 0x80000001)) = some 2 := by decide

/-- R95's example: FINT# with FE = IC = 1: FPC = the `mult`, x[rx] unchanged. -/
theorem test_mult_cut :
    look (fun t => (t.fpc, t.reg 2, t.psr.fe))
      (exec (.mult 2 1) { p3 2 with psr := { user with fe := true, ic := true }, env := { mid := fintAvec, midAt := some 0 } }) =
      some (0x1000, 7, false) := by
  decide

/-! ### System instructions -/

/-- P6: `mfcr r1,cr0` in user mode: vector 5, EPC = its address, r1 unchanged. -/
theorem test_mfcr_user :
    look (fun t => (t.pc, t.epc, t.reg 1))
      (step ((start user |> word 0x14 0x2000 |> code 0x1000 0x1001).setReg 1 0x12345678)) =
      some (0x2000, 0x1000, 0x12345678) := by
  decide

/-- In supervisor mode `mfcr r1,cr1` reads VBR (GK number). -/
theorem test_mfcr_vbr :
    look (fun t => (t.pc, t.reg 1)) (step { start sup |> code 0x1000 0x1011 with vbr := 0x10000 }) =
      some (0x1002, 0x10000) := by
  decide

/-- R101's example: `mtcr` of 0x10000 to VBR. -/
theorem test_mtcr_vbr :
    look (fun t => (t.pc, t.vbr)) (step ((start sup |> code 0x1000 0x1811).setReg 1 0x10000)) =
      some (0x1002, 0x10000) := by
  decide

/-- V15: `mtcr` in user mode has no effect but the entry. -/
theorem test_mtcr_user :
    look (fun t => (t.pc, t.vbr)) (step ((start user |> word 0x14 0x2000 |> code 0x1000 0x1811).setReg 1 0x10000)) =
      some (0x2000, 0) := by
  decide

/-- P1, step 2: `rte` restores PSR0 and the pc. -/
theorem test_rte :
    look (fun t => (t.pc, t.psr))
      (step { start { sup with ee := false } |> code 0x1000 0x0002 with epc := 0x1000, epsr := user }) =
      some (0x1000, user) := by
  decide

/-- P5, step 2: `rte` with EPSR.TP = 1: the trace, EPC = the address returned to, EPSR.TP = 0, EPSR.TM as restored. -/
theorem test_rte_pendingTrace :
    look (fun t => (t.pc, t.epc, t.epsr.tp, t.epsr.tm, t.psr.tm))
      (step { start { sup with ee := false } |> word 0x18 0x2000 |> code 0x1000 0x0002 with
        epc := 0x1002, epsr := { user with tm := .instr, ie := true, tp := true } }) =
      some (0x2000, 0x1002, false, .instr, .off) := by
  decide

/-- R103's example, V54: `rfi` into a normal handler; EPC is not touched. -/
theorem test_rfi :
    look (fun t => (t.pc, t.psr.ee, t.psr.fe, t.epc))
      (step { start sup |> code 0x1000 0x0003 with
        fpc := 0x2010, fpsr := { Psr.zero with s := true, fe := true }, epc := 0x1004 }) =
      some (0x2010, false, true, 0x1004) := by
  decide

/-- V55: `rte` with an odd EPC is refused. -/
theorem test_rte_odd : stops (exec .rte { start sup with epc := 0x5001 }) = some (.inr .oddReturn) := by decide

/-- R104 to R106: in user mode, vector 5 with EPC = the instruction. -/
theorem test_lowPower_user :
    look (fun t => (t.pc, t.epc, t.lowPower)) (step (start user |> word 0x14 0x2000 |> code 0x1000 0x0004)) =
      some (0x2000, 0x1000, none) := by
  decide

/-- R106: `doze` in user mode. -/
theorem test_doze_user :
    look (fun t => (t.pc, t.epc, t.lowPower)) (step (start user |> word 0x14 0x2000 |> code 0x1000 0x0006)) =
      some (0x2000, 0x1000, none) := by
  decide

/-- D28: in supervisor mode the core idles, and an interrupt saves the address after the instruction. -/
theorem test_lowPower_wakes :
    look (fun t => (t.pc, t.lowPower)) (step (start sup |> code 0x1000 0x0005)) = some (0x1002, some .wait) ∧
    look (fun t => (t.epc, t.lowPower))
      (step { start { sup with ie := true } with pc := 0x1002, lowPower := some .wait, env := { pre := intAvec } }) =
      some (0x1002, none) := by
  decide

/-- P1, step 1: `trap #2`. -/
theorem test_trap :
    look (fun t => (t.pc, t.epc, t.epsr, t.psr)) (step (start user |> word 0x48 0x2000 |> code 0x1000 0x000A)) =
      some (0x2000, 0x1000, user, { Psr.zero with s := true }) := by
  decide

/-- P4, step 2: `trap #0` with EE = 0 goes through vector 8 and leaves the mark. -/
theorem test_trap_unrecoverable :
    look (fun t => (t.pc, t.epc, t.unrecoverable))
      (step (start { sup with ee := false } |> word 0x20 0x3000 |> word 0x40 0x2100 |> code 0x1000 0x0008)) =
      some (0x3000, 0x1000, true) := by
  decide

/-- V43: `bkpt` at 0x500 with VBR = 0x8000. -/
theorem test_bkpt :
    look (fun t => (t.pc, t.epc)) (step { start sup |> word 0x801C 0x2800 with pc := 0x500, vbr := 0x8000 }) =
      some (0x2800, 0x500) := by
  decide

/-- V49: `hai` with U3 to U0 = 0000, in user mode. -/
theorem test_hai_disabled (op : Half) :
    look (fun t => (t.pc, t.epc)) (exec (.hai op) (start user |> word 0x30 0x2000)) = some (0x2000, 0x1000) := by
  have h : haiEnabled (start user |> word 0x30 0x2000).psr op = false := BitVec.getLsbD_zero
  rw [exec, execHai, h, Bool.not_false, if_pos rfl]
  decide

/-! ### Events around an instruction -/

/-- R63, D29: on a platform without 2-byte accesses `ld.h` is unimplemented: vector 4, EPC = the `ld.h`. -/
theorem test_width_unimplemented :
    look (fun t => (t.pc, t.epc)) (step (start sup |> word 0x10 0x2000 |> code 0x1000 0xC203 |>
      on { Platform.atReset with widths := [1, 4] })) = some (0x2000, 0x1000) := by
  decide

/-- D5: with `VBR_ALIGN` of 512 bytes `mtcr` of 0x10123 to VBR leaves 0x10000. -/
theorem test_mtcr_vbr_forced :
    look (fun t => t.vbr) (exec (.mtcr 1 1) ((start sup |> on { Platform.atReset with vbrAlign := 9 }).setReg 1 0x10123)) =
      some 0x10000 := by
  decide

/-- D28: on a platform without the LowPower reading `stop` in supervisor mode is refused. -/
theorem test_lowPower_open :
    stops (exec .stop (start sup |> on { Platform.atReset with stopIdles := false })) = some (.inr .lowPowerOpen) := by
  decide

/-- The vector address table, 2.1. -/
theorem test_vecAddr :
    vecAddr 0 9 = 0x24 ∧ vecAddr 0x10000 8 = 0x10020 ∧ vecAddr 0x10000 127 = 0x101FC ∧
      vecAddr 0xFFFFFE00 127 = 0xFFFFFFFC ∧ vecAddr 0xFFFFFFFC 1 = 0 := by
  decide

/-- V1, V3: hardware reset, SRST or not. -/
theorem test_reset :
    look (fun t => (t.pc, t.psr.s, t.psr.tm, t.vbr))
      (step { start user |> word 0 0x100 with vbr := 0x10000, env := { reset := true, srst := true } }) =
      some (0x100, true, .off, 0) := by
  decide

/-- V2: software reset reads the vector at absolute 0x24. -/
theorem test_softReset :
    look (fun t => (t.pc, t.psr.fe, t.psr.ee, t.vbr))
      (step { start user |> word 0x24 0x200 |> word 0x10024 0x300 with vbr := 0x10000, srstSeen := true }) =
      some (0x200, false, false, 0) := by
  decide

/-- V20: INT#, AVEC# at the boundary. -/
theorem test_int :
    look (fun t => (t.pc, t.epc, t.epsr, t.psr))
      (step { start { user with ie := true, fe := true } |> word 0x8028 0x2400 with
        vbr := 0x8000, env := { pre := intAvec } }) =
      some (0x2400, 0x1000, { user with ie := true, fe := true }, { Psr.zero with s := true, fe := true }) := by
  decide

/-- V21, V25: the vector number supplied is used as given. -/
theorem test_int_vectored :
    look (fun t => t.pc) (step { start { user with ie := true } |> word 0x8114 0x2400 with
      vbr := 0x8000, env := { pre := { int := true, vec := 69 } } }) = some 0x2400 ∧
    look (fun t => t.pc) (step { start { user with ie := true } |> word 0x8014 0x2600 with
      vbr := 0x8000, env := { pre := { int := true, vec := 5 } } }) = some 0x2600 := by
  decide

/-- V22, V24: FINT# first, into FPC; EPC untouched. -/
theorem test_fint :
    look (fun t => (t.pc, t.fpc, t.fpsr, t.epc, t.psr.fe, t.psr.ie))
      (step { start { user with ie := true, fe := true } |> word 0x802C 0x2400 with
        vbr := 0x8000, env := { pre := { int := true, fint := true, avec := true } } }) =
      some (0x2400, 0x1000, { user with ie := true, fe := true }, 0, false, false) := by
  decide

/-- V10: a tagged fetch error is raised when its instruction is reached; V11: a taken jump drops it. -/
theorem test_fetchErr :
    look (fun t => (t.pc, t.epc)) (step { start sup |> word 8 0x2000 with fetchErr := [0x1000] }) =
      some (0x2000, 0x1000) ∧
    look (fun t => (t.pc, t.fetchErr)) (step { (start sup).setReg 5 0x3000 |> code 0x1000 0x00C5 with
      fetchErr := [0x1002] }) = some (0x3000, []) := by
  decide

/-- V44: BRKRQ# with the fetch of the instruction reached; V45: dropped by a taken jump. -/
theorem test_fetchBrk :
    look (fun t => (t.pc, t.epc)) (step { start sup |> word 0x1C 0x2800 with fetchBrk := [0x1000] }) =
      some (0x2800, 0x1000) ∧
    look (fun t => t.pc) (step { start sup |> code 0x1000 0xF006 with fetchBrk := [0x1002] }) = some 0x100E := by
  decide

/-- V46, V47, V48: BRKRQ# with a load's data access: after the load, before INT#, a due trace deferred. -/
theorem test_dataBrk :
    look (fun t => (t.pc, t.epc, t.epsr.tp, t.reg 2))
      (step { ((start { user with tm := .instr, ie := true } |> word 0x1C 0x2800 |> word 0x4000 7 |>
        code 0x1000 0x8203).setReg 3 0x4000) with env := { dataBrk := true, post := intAvec } }) =
      some (0x2800, 0x1002, true, 7) := by
  decide

/-- V40, P5 step 1: a trace deferred behind INT#. -/
theorem test_trace_deferred :
    look (fun t => (t.pc, t.epc, t.epsr.tp, t.epsr.tm, t.psr.tp))
      (step { start { user with tm := .instr, ie := true } |> word 0x28 0x2400 |> word 0x18 0x2000 |>
        code 0x1000 0xF000 with env := { post := intAvec } }) =
      some (0x2400, 0x1002, true, .instr, false) := by
  decide

/-- V52: an odd vector word is refused; V53: TEA# on the vector fetch is a fault. -/
theorem test_vector_stops :
    stops (step (start sup |> word 0x1C 0x2001)) = some (.inr .oddVector) ∧
      stops (step { start sup with env := { vecTea := true } }) = some (.inl .vectorBusError) := by
  decide

/-- V52 on a platform whose `VECTOR_BIT0` is the ancestor's: the bit goes to PSR.AF and is cleared in the pc. -/
theorem test_vector_bank :
    look (fun t => (t.pc, t.psr.af)) (step (start sup |> word 0x1C 0x2001 |>
      on { Platform.atReset with vectorBit0 := .bank })) = some (0x2000, true) := by
  decide

/-- R53: an instruction stored to is refused; one placed from outside is not. -/
theorem test_selfModified :
    stops (step ((start sup).writeN .supervisor 0x1000 2 0xF7FF)) = some (.inr .selfModified) ∧
      look (fun t => t.pc) (step (((start sup).writeN .supervisor 0x1000 2 0).withFetchWord 16 0xF7FF)) = some 0x1000 := by
  decide

/-! ### Witnesses: for each statement with hypotheses, states and operands that meet them, clause by clause -/

theorem witness_DecodeEncodeAgree :
    (Instr.trap 3).wellFormed = true ∧ encode (.trap 3) = some 0x000B ∧ (Instr.mtcr 15 31).wellFormed = true ∧
      encode (.mtcr 15 31) = some 0x19FF := by
  decide

theorem witness_TableWordsReadBack : lookup 0xFFFF = some (.bsr 0x7FF) ∧ lookup 0x0000 = some .bkpt := by decide

/-- A fetch at 0x1000 that nothing pre-empts. -/
theorem fetches_start : (start sup).fetches := ⟨rfl, rfl, rfl, rfl, rfl, by decide, by decide, by decide⟩

/-- `br` to itself in supervisor mode, untraced, with FINT# asserted after it. -/
def quietBr : State := { start { sup with fe := true } |> code 0x1000 0xF7FF with env := { post := fintAvec } }

/-- `ld.h r2,(r3,0)` on a platform without 2-byte accesses. -/
def narrow : State := start sup |> code 0x1000 0xC203 |> on { Platform.atReset with widths := [1, 4] }

/-- An instruction that completes with nothing due, an interrupt asserted; an unimplemented access width. -/
theorem witness_StepRunsDecodedInstruction :
    (quietBr.fetches ∧ quietBr.decodes (.named (.br 0x7FF)) ∧ quietBr.plat.implements (.named (.br 0x7FF)) = true ∧
      ∃ t, execute (.named (.br 0x7FF)) quietBr.latch = .next t ∧ t.dataBrk = false ∧ t.traceDue = false) ∧
    narrow.fetches ∧ narrow.decodes (.named (.ldH 2 3 0)) ∧ narrow.plat.implements (.named (.ldH 2 3 0)) = false :=
  ⟨⟨⟨rfl, rfl, rfl, rfl, rfl, by decide, by decide, by decide⟩, .inl ⟨rfl, [], rfl⟩, rfl, _, rfl, rfl, rfl⟩,
    ⟨rfl, rfl, rfl, rfl, rfl, by decide, by decide, by decide⟩, .inl ⟨rfl, [], rfl⟩, rfl⟩

/-- The word 0x0001, which no row of the table claims, at 0x1000; a platform with instructions of 4 bytes. -/
theorem witness_StepOnWordsOutsideTable :
    ((start sup |> code 0x1000 0x0001).fetches ∧ (start sup |> code 0x1000 0x0001).plat.encoding = .table ∧
      lookup ((start sup |> code 0x1000 0x0001).halfAt .supervisor 0x1000) = none) ∧
    (start sup |> on { Platform.atReset with encoding := .other 1 }).fetches ∧
      (start sup |> on { Platform.atReset with encoding := .other 1 }).plat.encoding = .other 1 :=
  ⟨⟨⟨rfl, rfl, rfl, rfl, rfl, by decide, by decide, by decide⟩, rfl, by decide⟩,
    ⟨rfl, rfl, rfl, rfl, rfl, by decide, by decide, by decide⟩, rfl⟩

/-- One state per reason: BRKRQ# now, BRKRQ# earlier; TEA# now, the external MMU now, TEA# earlier. -/
theorem witness_FetchTagsRaisedWhenReached :
    (start sup).noReset ∧ (start sup).latch.boundaryBefore = none ∧ (start sup).lowPower = none ∧
    (0x1000 ∈ { start sup with env := { fetchBrk := [0x1000] } }.env.fetchBrk) ∧
    (0x1000 ∈ { start sup with fetchBrk := [0x1000] }.fetchBrk) ∧
    { start sup with env := { fetchTea := [0x1000] } }.latch.boundaryBefore = none ∧
    (0x1000 ∈ { start sup with env := { fetchTea := [0x1000] } }.env.fetchTea) ∧
    { start sup with env := { fetchMmu := [0x1000] } }.latch.boundaryBefore = none ∧
    (0x1000 ∈ { start sup with env := { fetchMmu := [0x1000] } }.env.fetchMmu) ∧
    { start sup with fetchErr := [0x1000] }.latch.boundaryBefore = none ∧
    (0x1000 ∈ { start sup with fetchErr := [0x1000] }.fetchErr) :=
  ⟨⟨rfl, rfl, rfl⟩, rfl, rfl, by decide, by decide, rfl, by decide, rfl, by decide, rfl, by decide⟩

/-- INT# with IE = EE = 1; FINT# with EE = 0; neither. -/
theorem witness_BoundaryInterruptTaken :
    { start { sup with ie := true } with env := { pre := intAvec } }.noReset ∧ Unmasked intAvec { sup with ie := true } ∧
    Unmasked fintAvec { Psr.zero with fe := true } ∧ ¬ Unmasked intAvec sup :=
  ⟨⟨rfl, rfl, rfl⟩, .inr ⟨rfl, rfl, rfl⟩, .inl ⟨rfl, rfl⟩, by unfold Unmasked; decide⟩

/-- The second byte of the instruction stored to. -/
theorem witness_ModifiedCodeRefused :
    { start sup with stored := [0x1001] }.noReset ∧ { start sup with stored := [0x1001] }.latch.boundaryBefore = none ∧
    (start sup).pc ∉ (start sup).latch.fetchErr ∧ isOdd (start sup).pc = false ∧
    ∃ k < (start sup).plat.unitBytes,
      (start sup).key .supervisor ((start sup).pc + BitVec.ofNat 32 k) ∈ { start sup with stored := [0x1001] }.stored :=
  ⟨⟨rfl, rfl, rfl⟩, rfl, by decide, by decide, 1, by decide, by decide⟩

theorem witness_LowPowerIdles :
    { start sup with lowPower := some .doze }.noReset ∧
    { start sup with lowPower := some .doze }.latch.boundaryBefore = none ∧
    { start sup with lowPower := some .doze }.lowPower.isSome = true := ⟨⟨rfl, rfl, rfl⟩, rfl, rfl⟩

/-- `br` to itself, traced, with the interrupt inputs of the boundary after it. -/
def tracedBr (q : Irq) : State :=
  { start { user with tm := .instr, ie := true } |> code 0x1000 0xF7FF with env := { post := q } }

theorem witness_TraceTakenAfterInstruction : (tracedBr {}).fetches ∧ (tracedBr {}).decodes (.named (.br 0x7FF)) ∧
    (tracedBr {}).plat.implements (.named (.br 0x7FF)) = true ∧
    ∃ t, execute (.named (.br 0x7FF)) (tracedBr {}).latch = .next t ∧ t.traceDue = true ∧ t.dataBrk = false ∧
      t.pc ∉ t.fetchBrk ∧ ¬ Unmasked t.env.post t.psr :=
  ⟨⟨rfl, rfl, rfl, rfl, rfl, by decide, by decide, by decide⟩, .inl ⟨rfl, [], rfl⟩, rfl, _, rfl, rfl, rfl, by decide,
    by unfold Unmasked; decide⟩

theorem witness_TraceDeferredBehindInterrupt : (tracedBr intAvec).fetches ∧
    (tracedBr intAvec).decodes (.named (.br 0x7FF)) ∧ (tracedBr intAvec).plat.implements (.named (.br 0x7FF)) = true ∧
    ∃ t, execute (.named (.br 0x7FF)) (tracedBr intAvec).latch = .next t ∧ t.traceDue = true ∧ t.dataBrk = false ∧
      t.pc ∉ t.fetchBrk ∧ Unmasked t.env.post t.psr :=
  ⟨⟨rfl, rfl, rfl, rfl, rfl, by decide, by decide, by decide⟩, .inl ⟨rfl, [], rfl⟩, rfl, _, rfl, rfl, rfl, by decide,
    .inr ⟨rfl, rfl, rfl⟩⟩

/-- `ld.b r0,(r0,0)` with BRKRQ# on its data access. -/
def brokenLoad : State := { start sup |> code 0x1000 0xA000 with env := { dataBrk := true } }

/-- A traced `br` to 0x100E, whose fetch came with BRKRQ#. -/
def brokenBr : State := { start { user with tm := .instr } |> code 0x1000 0xF006 with fetchBrk := [0x100E] }

/-- A breakpoint noted with the data access; a trace due with the next instruction tagged. -/
theorem witness_DataBreakpointAfterInstruction :
    (brokenLoad.fetches ∧ brokenLoad.decodes (.named (.ldB 0 0 0)) ∧
      brokenLoad.plat.implements (.named (.ldB 0 0 0)) = true ∧
      ∃ t, execute (.named (.ldB 0 0 0)) brokenLoad.latch = .next t ∧ t.dataBrk = true) ∧
    brokenBr.fetches ∧ brokenBr.decodes (.named (.br 6)) ∧ brokenBr.plat.implements (.named (.br 6)) = true ∧
      ∃ t, execute (.named (.br 6)) brokenBr.latch = .next t ∧ t.dataBrk = false ∧ t.traceDue = true ∧ t.pc ∈ t.fetchBrk :=
  ⟨⟨⟨rfl, rfl, rfl, rfl, rfl, by decide, by decide, by decide⟩, .inl ⟨rfl, [], rfl⟩, rfl, _, rfl, rfl⟩,
    ⟨rfl, rfl, rfl, rfl, rfl, by decide, by decide, by decide⟩, .inl ⟨rfl, [], rfl⟩, rfl, _, rfl, rfl, rfl, by decide⟩

/-- In the empty memory every vector word is 0; an odd word where `VECTOR_BIT0` admits it. -/
theorem witness_HardwareResetEffect : { start user with env := { reset := true, srst := true } }.env.reset = true ∧
    { start user with env := { reset := true, srst := true } }.vectorWordOk 0 ∧
    isOdd ((start user).wordAt .supervisor 0) = false ∧
    (start user |> word 0 0x101 |> on { Platform.atReset with vectorBit0 := .bank }).vectorWordOk 0 :=
  ⟨rfl, ⟨rfl, .inl (by decide)⟩, by decide, rfl, .inr rfl⟩

/-- SRST asserted; negated after having been seen. -/
theorem witness_SoftwareResetEffect :
    ({ start user with env := { srst := true } }.env.reset = false ∧
      { start user with env := { srst := true } }.env.srst = true) ∧
    { start user with srstSeen := true }.env.reset = false ∧ { start user with srstSeen := true }.env.srst = false ∧
    { start user with srstSeen := true }.vectorWordOk 0x24 ∧ isOdd ((start user).wordAt .supervisor 0x24) = false ∧
    (start user |> word 0x24 0x201 |> on { Platform.atReset with vectorBit0 := .bank }).vectorWordOk 0x24 :=
  ⟨⟨rfl, rfl⟩, rfl, rfl, ⟨rfl, .inl (by decide)⟩, by decide, rfl, .inr rfl⟩

/-- EE = 1, at the last vector; EE = 0. -/
theorem witness_NormalEntryEffect : (start sup).vectorOk (if (start sup).psr.ee then 127 else 8) ∧
    (start Psr.zero).vectorOk (if (start Psr.zero).psr.ee then 127 else 8) :=
  ⟨⟨rfl, .inl (by decide)⟩, rfl, .inl (by decide)⟩

theorem witness_FastEntryEffect : (start Psr.zero).vectorOk 11 := ⟨rfl, .inl (by decide)⟩

/-- TEA#; an odd word at vector 4 with EE = 1, for both kinds. -/
theorem witness_EntryStopsWithoutVector : { start sup with env := { vecTea := true } }.env.vecTea = true ∧
    (start sup |> word 0x10 0x2001).env.vecTea = false ∧ (start sup).plat.vectorBit0 = .refuse ∧
    isOdd ((start sup |> word 0x10 0x2001).wordAt .supervisor (vecAddr 0 (if sup.ee then 4 else 8))) = true ∧
    isOdd ((start sup |> word 0x10 0x2001).wordAt .supervisor (vecAddr 0 4)) = true := ⟨rfl, rfl, rfl, by decide, by decide⟩

/-- FINT# admitted; FINT# masked by FE with INT# admitted; both masked, INT# by EE. -/
theorem witness_InterruptRecognition :
    ({ intAvec with fint := true }.fint = true ∧ { Psr.zero with fe := true }.fe = true) ∧
    (¬({ intAvec with fint := true }.fint = true ∧ sup.fe = true) ∧ intAvec.int = true ∧
      { sup with ie := true }.ie = true ∧ { sup with ie := true }.ee = true) ∧
    ¬(intAvec.fint = true ∧ { Psr.zero with ie := true }.fe = true) ∧
    ¬(intAvec.int = true ∧ { Psr.zero with ie := true }.ie = true ∧ { Psr.zero with ie := true }.ee = true) := by
  decide

theorem witness_UnrecoverableErrorReplaces : (start Psr.zero).psr.ee = false ∧
    (start Psr.zero).vectorWordOk ((start Psr.zero).vbr + 0x20) := ⟨rfl, rfl, .inl (by decide)⟩

/-- A state with r1 = `v`, MM = `mm`, and its data accesses as `e` says. -/
def mem1 (v : Word) (mm : Bool) (e : Env) : State := { (start { sup with mm := mm }).setReg 1 v with env := e }

/-- Aligned with MM = 0, at the top of the address space; misaligned by one with MM = 1. -/
theorem witness_LoadsComplete : (mem1 0xFFFFFFFC false {}).env.teaAt 0 = false ∧
    ((mem1 0xFFFFFFFC false {}).reg 1 + (0 : BitVec 4).setWidth 32 * 4) % 4 = 0 ∧
    ((mem1 0xFFFFFFFE false {}).reg 1 + (0 : BitVec 4).setWidth 32 * 2) % 2 = 0 ∧
    (mem1 0xFFFFFFFF true {}).env.teaAt 0 = false ∧ (mem1 0xFFFFFFFF true {}).psr.mm = true := by
  decide

theorem witness_StoresComplete : Memory.wf (mem1 0xFFFFFFFC false {}).mem = true ∧
    (mem1 0xFFFFFFFC false {}).env.teaAt 0 = false ∧
    ((mem1 0xFFFFFFFC false {}).reg 1 + (0 : BitVec 4).setWidth 32 * 4) % 4 = 0 ∧
    ((mem1 0xFFFFFFFE false {}).reg 1 + (0 : BitVec 4).setWidth 32 * 2) % 2 = 0 ∧
    (mem1 0xFFFFFFFF true {}).psr.mm = true := by
  decide

/-- One byte above a boundary and one below; for `ldm` and `stm` the base is r0. -/
theorem witness_MisalignedOperandRaises : (mem1 0x1001 false {}).psr.mm = false ∧
    ((mem1 0x1001 false {}).reg 1 + (0 : BitVec 4).setWidth 32 * 4) % 4 ≠ 0 ∧
    ((mem1 0x1003 false {}).reg 1 + (15 : BitVec 4).setWidth 32 * 2) % 2 ≠ 0 ∧
    ((mem1 0 false {}).setReg 0 0x1002).psr.mm = false ∧ ((mem1 0 false {}).setReg 0 0x1002).reg 0 % 4 ≠ 0 ∧
    (mem1 0x1003 false {}).reg 1 % 4 ≠ 0 := by
  decide

/-- TEA# and the external MMU on the first access. -/
theorem witness_ReadBusErrorRaises : (mem1 0x1000 false { dataTea := some 0 }).env.teaAt 0 = true ∧
    ((mem1 0x1000 false { dataTea := some 0 }).reg 1 + (0 : BitVec 4).setWidth 32 * 4) % 4 = 0 ∧
    ((mem1 0x1002 false { dataMmu := some 0 }).reg 1 + (0 : BitVec 4).setWidth 32 * 2) % 2 = 0 ∧
    (mem1 0x1003 true { dataMmu := some 0 }).env.teaAt 0 = true ∧
    (mem1 0x1003 true { dataMmu := some 0 }).psr.mm = true := by
  decide

/-- The last line: the platform whose draw is of the old or the new byte. -/
theorem witness_StoreBusErrorRaises : Memory.wf (mem1 0x1000 false { dataTea := some 0 }).mem = true ∧
    (mem1 0x1000 false { dataTea := some 0 }).env.teaAt 0 = true ∧
    ((mem1 0x1000 false { dataTea := some 0 }).reg 1 + (0 : BitVec 4).setWidth 32 * 4) % 4 = 0 ∧
    ((mem1 0x1002 false { dataTea := some 0 }).reg 1 + (0 : BitVec 4).setWidth 32 * 2) % 2 = 0 ∧
    (mem1 0x1003 true { dataTea := some 0 }).psr.mm = true ∧
    (mem1 0x1000 false { dataTea := some 0 } |> on { Platform.atReset with teaWriteAny := false }).plat.teaWriteAny =
      false := by
  decide

/-- INT# with IC = 1 recognised after `k` accesses. -/
def cutState (k : Nat) : State :=
  { (start { sup with ic := true, ie := true }).setReg 1 0x4000 with env := { mid := intAvec, midAt := some k } }

theorem cutState_cutBy (k : Nat) : (cutState k).cutBy k := ⟨rfl, rfl, .inr ⟨rfl, rfl, rfl⟩⟩

/-- `n` accesses with INT# recognised, IC = 1, and TEA# asserted only beyond the last of them. -/
def beyond (n : Nat) : State :=
  { cutState (n + 1) with env := { mid := intAvec, midAt := some (n + 1), dataTea := some n } }

theorem beyond_undisturbed (n : Nat) : (beyond n).undisturbed n := by
  refine ⟨fun k hk => ?_, fun k hk => ?_⟩
  · simp [beyond, Env.teaAt]; omega
  · have : n + 1 = k := Option.some.inj hk.2.1
    omega

theorem mem1_undisturbed (n : Nat) (v : Word) (mm : Bool) : (mem1 v mm {}).undisturbed n :=
  ⟨fun _ _ => rfl, fun _ hk => nomatch hk.2.1⟩

/-- Aligned and not, nothing asserted, then everything beyond the list; the base of `ldm` is r0, which `start` leaves 0. -/
theorem witness_LoadMultiplesComplete : (∀ n, (mem1 0x4000 false {}).undisturbed n) ∧
    (mem1 0x4000 false {}).reg 1 % 4 = 0 ∧ (mem1 0x4000 false {}).reg 0 % 4 = 0 ∧
    ((beyond 4).undisturbed 4 ∧ (beyond 4).reg 1 % 4 = 0) ∧
    ((beyond 16).undisturbed (16 - (0 : Reg).toNat) ∧ (beyond 16).reg 0 % 4 = 0) ∧
    (0x4000 : Word) = (mem1 0x4003 true {}).reg 1 - (mem1 0x4003 true {}).reg 1 % 4 ∧
    (mem1 0x4003 true {}).psr.mm = true :=
  ⟨fun n => mem1_undisturbed n _ _, by decide, by decide, ⟨beyond_undisturbed 4, by decide⟩,
    ⟨beyond_undisturbed 16, by decide⟩, by decide, rfl⟩

theorem witness_StoreMultiplesComplete : Memory.wf (mem1 0x4000 false {}).mem = true ∧
    (∀ n, (mem1 0x4000 false {}).undisturbed n) ∧ (mem1 0x4000 false {}).reg 1 % 4 = 0 ∧
    (mem1 0x4000 false {}).reg 0 % 4 = 0 ∧ Memory.wf (beyond 16).mem = true ∧
    ((beyond 4).undisturbed 4 ∧ (beyond 4).reg 1 % 4 = 0) ∧
    ((beyond 16).undisturbed (16 - (0 : Reg).toNat) ∧ (beyond 16).reg 0 % 4 = 0) :=
  ⟨rfl, fun n => mem1_undisturbed n _ _, by decide, by decide, rfl, ⟨beyond_undisturbed 4, by decide⟩,
    ⟨beyond_undisturbed 16, by decide⟩⟩

/-- Before the first access, and after the last of four and of sixteen. -/
theorem witness_MultipleCutShort : Memory.wf (cutState 0).mem = true ∧ (cutState 0).cutBy 0 ∧ (cutState 4).cutBy 4 ∧
    (cutState 16).cutBy 16 ∧ (∀ j < 16, (cutState 16).env.teaAt j = false) ∧ (cutState 4).reg 1 % 4 = 0 ∧
    (cutState 16).reg 0 % 4 = 0 ∧ 16 ≤ 16 - (0 : Reg).toNat :=
  ⟨rfl, cutState_cutBy 0, cutState_cutBy 4, cutState_cutBy 16, fun _ _ => rfl, by decide, by decide, by decide⟩

/-- TEA# on the last access of four and of sixteen, no interrupt; TEA# on the first with an interrupt after it; the
platform whose draw is of the old or the new byte. -/
theorem witness_MultipleBusErrorRaises :
    (∀ k, Memory.wf (mem1 0x4000 false { dataTea := some k }).mem = true) ∧
    (mem1 0x4000 false { dataTea := some 3 }).env.teaAt 3 = true ∧
    (∀ j < 3, (mem1 0x4000 false { dataTea := some 3 }).env.teaAt j = false) ∧
    (mem1 0x4000 false { dataTea := some 3 }).cutAt = none ∧ (mem1 0x4000 false { dataTea := some 3 }).reg 1 % 4 = 0 ∧
    (mem1 0x4000 false { dataTea := some 15 }).env.teaAt 15 = true ∧
    (∀ j < 15, (mem1 0x4000 false { dataTea := some 15 }).env.teaAt j = false) ∧
    15 < 16 - (0 : Reg).toNat ∧ (mem1 0x4000 false { dataTea := some 15 }).reg 0 % 4 = 0 ∧
    { cutState 1 with env := { mid := intAvec, midAt := some 1, dataTea := some 0 } }.cutAt = some 1 ∧
    (mem1 0x4000 false { dataTea := some 3 } |> on { Platform.atReset with teaWriteAny := false }).plat.teaWriteAny =
      false :=
  ⟨fun _ => rfl, rfl, by decide, rfl, by decide, rfl, by decide, by decide, by decide, rfl, rfl⟩

/-- An even register; r15 even with an even pc. -/
theorem witness_RegisterJumpsComplete : isOdd ((mem1 0x4000 false {}).reg 1) = false ∧ (1 : Reg) ≠ 15 ∧
    isOdd ((start sup).reg 15) = false ∧ isOdd (start sup).pc = false := by
  decide

/-- An odd register, r15 among them; odd EPC and FPC in supervisor mode. -/
theorem witness_OddAddressesRefused : isOdd ((mem1 0x4001 false {}).reg 1) = true ∧
    isOdd (((start sup).setReg 15 0x4001).reg 15) = true ∧ { start sup with epc := 0x5001 }.psr.s = true ∧
    isOdd { start sup with epc := 0x5001 }.epc = true ∧ isOdd { start sup with fpc := 0x5001 }.fpc = true := by
  decide

/-- The literal of displacement 0 and of 255, in the empty memory. -/
theorem witness_LiteralJumpsComplete : (start sup).env.teaAt 0 = false ∧
    isOdd ((start sup).wordAt .supervisor (((start sup).pc + 2 + 4 * (255 : BitVec 8).setWidth 32) &&& 0xFFFFFFFC)) =
      false := by
  decide

/-- V7's literal 0x5001 at 0x1004. -/
theorem witness_OddLiteralTargetRaises : (start sup |> word 0x1004 0x5001).env.teaAt 0 = false ∧
    isOdd ((start sup |> word 0x1004 0x5001).wordAt .supervisor
      (((start sup).pc + 2 + 4 * (1 : BitVec 8).setWidth 32) &&& 0xFFFFFFFC)) = true := by
  decide

/-- R84's example: displacement 0x7FF branches to itself. -/
theorem witness_BranchesComplete : (0x1000 : Word) = (start sup).pc + 2 + 2 * (0x7FF : BitVec 11).signExtend 32 := by
  decide

/-- Taken and not taken. -/
theorem witness_ConditionalBranchesComplete : { start sup with psr := { sup with c := true } }.psr.c = true ∧
    (start sup).psr.c = false := ⟨rfl, rfl⟩

/-- A non-zero r1, with IC = 0 and INT# held inside; the largest dividend by -1. -/
theorem witness_DivuCompletes : (mem1 1 false { mid := intAvec, midAt := some 0 }).reg 1 ≠ 0 ∧
    (mem1 1 false { mid := intAvec, midAt := some 0 }).uncut := ⟨by decide, rfl⟩

theorem witness_DivsCompletes : (mem1 0xFFFFFFFF false {}).reg 1 ≠ 0 ∧ (mem1 0xFFFFFFFF false {}).uncut ∧
    ¬(((mem1 0xFFFFFFFF false {}).setReg 2 0x80000001).reg 2 |>.toInt) = -2 ^ 31 := ⟨by decide, rfl, by decide⟩

theorem witness_DivideByZeroRaises : (mem1 0 false {}).reg 1 = 0 := by decide

theorem witness_MultCompletes : (start sup).uncut := rfl

theorem witness_ArithmeticCutShort : (cutState 0).cutBy 0 ∧ (cutState 0).reg 1 ≠ 0 := ⟨cutState_cutBy 0, by decide⟩

/-- cr0, cr5 and a number the spec does not name. -/
theorem witness_MfcrReadsControlRegisters : (start sup).psr.s = true ∧ (0 : BitVec 5) = 0 ∧ (5 : BitVec 5) = 5 ∧
    (31 : BitVec 5) ≠ 5 := by
  decide

/-- VBR, no bit forced. -/
theorem witness_MtcrWritesControlRegisters : (start sup).psr.s = true ∧ (1 : BitVec 5) = 1 ∧
    (start sup).plat.vbrAlign = 0 := ⟨rfl, rfl, rfl⟩

/-- One per kind, idling; one refused. -/
theorem witness_LowPowerEntered : (start sup).psr.s = true ∧ (Instr.stop = .stop ∧ LowPower.stop = .stop) ∧
    (Instr.wait = .wait ∧ LowPower.wait = .wait) ∧ (Instr.doze = .doze ∧ LowPower.doze = .doze) ∧
    (start sup).plat.idles .stop = true ∧ (start sup).plat.idles .wait = true ∧ (start sup).plat.idles .doze = true ∧
    { Platform.atReset with dozeIdles := false }.idles .doze = false := by
  decide

theorem witness_PrivilegeViolationInUserMode : (start user).psr.s = false ∧ isPrivileged .rte = true := ⟨rfl, rfl⟩

/-- Even EPC and FPC with TP = 0. -/
theorem witness_ReturnsRestore : (start sup).psr.s = true ∧ isOdd (start sup).epc = false ∧
    (start sup).epsr.tp = false ∧ isOdd (start sup).fpc = false ∧ (start sup).fpsr.tp = false := by
  decide

/-- TP = 1 in EPSR and in FPSR; a breakpoint on the return address; an unmasked interrupt; neither. -/
theorem witness_ReturnTakesPendingTrace :
    { start sup with epsr := { sup with tp := true } }.psr.s = true ∧ isOdd (start sup).epc = false ∧
    { start sup with epsr := { sup with tp := true } }.epsr.tp = true ∧
    { start sup with fpsr := { sup with tp := true } }.fpsr.tp = true ∧
    (start sup).epc ∈ { start sup with fetchBrk := [0] }.fetchBrk ∧ (start sup).epc ∉ (start sup).fetchBrk ∧
    Unmasked fintAvec { sup with fe := true, tp := true } ∧ ¬ Unmasked {} { sup with tp := true } :=
  ⟨rfl, by decide, rfl, rfl, by decide, by decide, .inl ⟨rfl, rfl⟩, by unfold Unmasked; decide⟩

/-- n = 0 and n = 7, EE = 1; EE = 0. -/
theorem witness_TrapEntersItsVector :
    (start user).vectorOk (if (start user).psr.ee then 16 + (0 : BitVec 3).setWidth 7 else 8) ∧
    (start user).vectorOk (if (start user).psr.ee then 16 + (7 : BitVec 3).setWidth 7 else 8) ∧
    (start Psr.zero).vectorOk (if (start Psr.zero).psr.ee then 16 + (7 : BitVec 3).setWidth 7 else 8) :=
  ⟨⟨rfl, .inl (by decide)⟩, ⟨rfl, .inl (by decide)⟩, rfl, .inl (by decide)⟩

theorem witness_BkptEntersItsVector : (start user).vectorOk (if (start user).psr.ee then 7 else 8) :=
  ⟨rfl, .inl (by decide)⟩

theorem witness_HaiDisabledRaises (op : Half) : haiEnabled user op = false ∧ (start user).psr.u = 0 :=
  ⟨BitVec.getLsbD_zero, rfl⟩

/-- U3 to U0 = 1111: whichever bit enables the opcode. -/
theorem haiEnabled_all (op : Half) : haiEnabled { user with u := 0xF } op = true := by
  unfold haiEnabled
  generalize Config.haiUnit op = k
  revert k
  decide

theorem witness_HaiEnabledCompletes (op : Half) : haiEnabled (start { user with u := 0xF }).psr op = true ∧
    (start { user with u := 0xF }).env.haFault = false := ⟨haiEnabled_all op, rfl⟩

theorem witness_HaiReportedEnters (op : Half) :
    haiEnabled { start { user with u := 0xF } with env := { haFault := true } }.psr op = true ∧
    { start { user with u := 0xF } with env := { haFault := true } }.vectorOk (if user.ee then 12 else 8) :=
  ⟨haiEnabled_all op, rfl, .inl (by decide)⟩

/-- A step from a state that meets the invariant: `br` to itself in user mode, which stays in user mode. -/
theorem witness_StepKeepsInvariant : (start user |> code 0x1000 0xF7FF).Inv ∧
    ∃ t, step (start user |> code 0x1000 0xF7FF) = .next t ∧ (start user).psr.s = false ∧ t.psr.s = false :=
  ⟨⟨by decide, by decide, rfl, rfl, rfl, by decide⟩, _, rfl, rfl, rfl⟩

theorem witness_UserModeKeepsControlState : ∃ s t : State, s.psr.s = false ∧ step s = .next t ∧ t.psr.s = false :=
  have ⟨_, t, h, hs, ht⟩ := witness_StepKeepsInvariant
  ⟨start user |> code 0x1000 0xF7FF, t, hs, h, ht⟩

theorem witness_PlatformAndDrawsKept : ∃ s t : State, step s = .next t :=
  have ⟨_, t, h, _⟩ := witness_StepKeepsInvariant
  ⟨_, t, h⟩

/-- `bkpt` in user mode enters supervisor mode. -/
theorem witness_SupervisorEntryIsQuiet :
    ∃ t, step (start user) = .next t ∧ (start user).psr.s = false ∧ t.psr.s = true := ⟨_, rfl, rfl, rfl⟩

end Sys2Proof.Tests
end

/-! The exception rules of 60_exceptions.md: which interrupt a recognition point takes, the privilege check, and
the trace rule with its two sets. -/

namespace Sys2Proof.Machine

/-! ### The interrupt taken at a recognition point (R151 to R153, R157) -/

/-- The fast interrupt comes first, and EE has no say in it (R153). -/
theorem State.interrupt_of_fint {s : State} {q : Irq} (ret : Word) (tp : Bool) (h : q.fint = true ∧ s.psr.fe = true) :
    s.interrupt q ret tp = some (s.enterFast (if q.avec then 11 else q.vec) ret tp) := by
  obtain ⟨r, hr, hfast, -⟩ := State.interrupt_taken (ret := ret) (tp := tp) (Or.inl h)
  rw [hr, hfast h]

/-- Where the fast interrupt is not taken, the normal one is, if IE and EE admit it (R152). -/
theorem State.interrupt_of_int {s : State} {q : Irq} (ret : Word) (tp : Bool)
    (hf : ¬(q.fint = true ∧ s.psr.fe = true)) (h : q.int = true ∧ s.psr.ie = true ∧ s.psr.ee = true) :
    s.interrupt q ret tp = some (s.enterNormal (if q.avec then 10 else q.vec) ret tp) := by
  obtain ⟨r, hr, -, hnormal⟩ := State.interrupt_taken (ret := ret) (tp := tp) (Or.inr h)
  rw [hr, hnormal hf]

/-- Settles O20: the three clauses are the fast interrupt, the normal one, and neither unmasked. -/
theorem interruptRecognition : Obligations.InterruptRecognition := fun _ _ ret tp =>
  ⟨State.interrupt_of_fint ret tp, State.interrupt_of_int ret tp, fun hf hi =>
    State.interrupt_none.mpr (not_or.mpr ⟨hf, hi⟩)⟩

/-! ### The privilege check (R137) -/

/-- In user mode the check raises the violation at the instruction's own address, whatever the instruction would do. -/
theorem State.privileged_of_user {s : State} (hs : s.psr.s = false) (k : Result) :
    s.privileged k = s.enterNormal 5 s.pc false := by
  simp [State.privileged, State.raise, Exc.vector, hs]

/-- The members of `Privileged`, as R62 lists them. -/
theorem isPrivileged_iff (i : Instr) : isPrivileged i = true ↔
    (∃ rx c, i = .mfcr rx c) ∨ (∃ rx c, i = .mtcr rx c) ∨ i = .rfi ∨ i = .rte ∨ i = .stop ∨ i = .wait ∨ i = .doze := by
  cases i <;> simp [isPrivileged]

/-- The meaning of every privileged instruction begins with the check. -/
theorem exec_eq_privileged {i : Instr} (hi : isPrivileged i = true) (s : State) : ∃ k, exec i s = s.privileged k := by
  obtain ⟨_, _, rfl⟩ | ⟨_, _, rfl⟩ | rfl | rfl | rfl | rfl | rfl := (isPrivileged_iff i).mp hi <;> exact ⟨_, rfl⟩

/-- Settles O46: each privileged instruction is the check before anything else, and in user mode the check is the
entry of vector 5. -/
theorem privilegeViolationInUserMode : Obligations.PrivilegeViolationInUserMode := by
  refine ⟨fun i s hs hi => ?_, isPrivileged_iff⟩
  obtain ⟨k, hk⟩ := exec_eq_privileged hi s
  rw [hk, State.privileged_of_user hs]

/-! ### The trace rule and its sets (R138, R139, R142) -/

theorem traceRule_of_never (flow : Bool) (tm : Tm) : traceRule true flow tm = false := rfl

@[simp] theorem traceRule_off (never flow : Bool) : traceRule never flow .off = false := Bool.and_false _

@[simp] theorem traceRule_instr (never flow : Bool) : traceRule never flow .instr = !never := Bool.and_true _

@[simp] theorem traceRule_flow (never flow : Bool) : traceRule never flow .flow = (!never && flow) := rfl

/-- The members of `FlowTrace`, as R139 lists them. -/
theorem isFlowTrace_iff (i : Instr) : isFlowTrace i = true ↔
    (∃ rx, i = .jmp rx) ∨ (∃ rx, i = .jsr rx) ∨ (∃ d, i = .jmpi d) ∨ (∃ d, i = .jsri d) ∨ (∃ d, i = .br d) ∨
      (∃ d, i = .bt d) ∨ (∃ d, i = .bf d) ∨ (∃ d, i = .bsr d) ∨ ∃ ry d, i = .loopt ry d := by
  cases i <;> simp [isFlowTrace]

/-- The members of `NeverTraced`, as R142 lists them. -/
theorem isNeverTraced_iff (i : Instr) : isNeverTraced i = true ↔
    i = .rte ∨ i = .rfi ∨ (∃ n, i = .trap n) ∨ i = .stop ∨ i = .wait ∨ i = .doze ∨ i = .bkpt := by
  cases i <;> simp [isNeverTraced]

/-- No instruction is in both sets. -/
theorem isNeverTraced_of_isFlowTrace {i : Instr} (h : isFlowTrace i = true) : isNeverTraced i = false := by
  obtain ⟨_, rfl⟩ | ⟨_, rfl⟩ | ⟨_, rfl⟩ | ⟨_, rfl⟩ | ⟨_, rfl⟩ | ⟨_, rfl⟩ | ⟨_, rfl⟩ | ⟨_, rfl⟩ | ⟨_, _, rfl⟩ :=
    (isFlowTrace_iff i).mp h <;> rfl

theorem isTraceDue_of_isNeverTraced {i : Instr} (h : isNeverTraced i = true) (tm : Tm) : isTraceDue i tm = false := by
  rw [isTraceDue, h, traceRule_of_never]

theorem isTraceDue_off (i : Instr) : isTraceDue i .off = false := traceRule_off ..

theorem isTraceDue_instr_iff (i : Instr) : isTraceDue i .instr = true ↔ isNeverTraced i = false := by
  simp [isTraceDue]

theorem isTraceDue_flow_iff (i : Instr) :
    isTraceDue i .flow = true ↔ isNeverTraced i = false ∧ isFlowTrace i = true := by
  simp [isTraceDue]

/-- Settles O55: the two sets member by member, and the rule mode by mode. -/
theorem traceSetsMatchSource : Obligations.TraceSetsMatchSource := by
  refine ⟨isFlowTrace_iff, isNeverTraced_iff, fun i hi => ?_, fun i tm hi => isTraceDue_of_isNeverTraced hi tm,
    ⟨traceRule_off .., traceRule_instr .., traceRule_flow ..⟩,
    fun i => ⟨isTraceDue_off i, isTraceDue_instr_iff i, isTraceDue_flow_iff i⟩⟩
  exact (isTraceDue_flow_iff i).mpr ⟨isNeverTraced_of_isFlowTrace hi, hi⟩

end Sys2Proof.Machine

/-! The table of R65 read in both directions: what is encoded decodes to itself, and every word that a row claims is the
encoding of what the row builds from it. -/

namespace Sys2Proof

/-! ### From an instruction to its word and back (R60, R65) -/

/-- The word of every well-formed instruction decodes to the instruction. -/
theorem decodeWord_of_encode {i : Instr} {w : Half} (hi : i.wellFormed = true) (hw : encode i = some w) :
    decodeWord w = .ok (.named i) := by
  suffices Laws.RoundTrip.Statement i from this w hi hw
  cases i with
  | ldW rz rx d => exact Laws.RoundTrip.ldW rz rx d
  | stW rz rx d => exact Laws.RoundTrip.stW rz rx d
  | ldB rz rx d => exact Laws.RoundTrip.ldB rz rx d
  | stB rz rx d => exact Laws.RoundTrip.stB rz rx d
  | ldH rz rx d => exact Laws.RoundTrip.ldH rz rx d
  | stH rz rx d => exact Laws.RoundTrip.stH rz rx d
  | ldm rf => exact Laws.RoundTrip.ldm rf
  | ldq rx => exact Laws.RoundTrip.ldq rx
  | stm rf => exact Laws.RoundTrip.stm rf
  | stq rx => exact Laws.RoundTrip.stq rx
  | jmp rx => exact Laws.RoundTrip.jmp rx
  | jsr rx => exact Laws.RoundTrip.jsr rx
  | jmpi d => exact Laws.RoundTrip.jmpi d
  | jsri d => exact Laws.RoundTrip.jsri d
  | br d => exact Laws.RoundTrip.br d
  | bt d => exact Laws.RoundTrip.bt d
  | bf d => exact Laws.RoundTrip.bf d
  | bsr d => exact Laws.RoundTrip.bsr d
  | loopt ry d => exact Laws.RoundTrip.loopt ry d
  | divs rx => exact Laws.RoundTrip.divs rx
  | divu rx => exact Laws.RoundTrip.divu rx
  | mult rx ry => exact Laws.RoundTrip.mult rx ry
  | mfcr rx c => exact Laws.RoundTrip.mfcr rx c
  | mtcr rx c => exact Laws.RoundTrip.mtcr rx c
  | rte => exact Laws.RoundTrip.rte
  | rfi => exact Laws.RoundTrip.rfi
  | stop => exact Laws.RoundTrip.stop
  | wait => exact Laws.RoundTrip.wait
  | doze => exact Laws.RoundTrip.doze
  | trap n => exact Laws.RoundTrip.trap n
  | bkpt => exact Laws.RoundTrip.bkpt
  | hai op => exact Laws.RoundTrip.hai op

/-- Settles O1: decoding the two bytes of a word is decoding the word, and every constructor's word decodes to it. -/
theorem decodeEncodeAgree : Obligations.DecodeEncodeAgree := by
  intro be i w rest hi hw
  rw [decode_bytesOfHalf, decodeWord_of_encode hi hw]

/-- Settles O3: each word is the encoding of the instruction named there, and that is decoded. -/
theorem sampleWordsDecode : Obligations.SampleWordsDecode :=
  ⟨decodeWord_of_encode rfl rfl, decodeWord_of_encode rfl rfl, decodeWord_of_encode rfl rfl,
    decodeWord_of_encode rfl rfl, decodeWord_of_encode rfl rfl, decodeWord_of_encode rfl rfl⟩

/-! ### From a word to its instruction and back -/

/-- A word whose high bits are `a` is `a` followed by its low bits. -/
theorem append_low_of_hits {n m : Nat} {a : BitVec n} {w : BitVec (n + m)}
    (h : (w &&& (BitVec.allOnes n ++ 0#m) == a ++ 0#m) = true) : a ++ w.extractLsb' 0 m = w := by
  rw [beq_iff_eq] at h
  ext i hi
  have hbit := congrArg (·.getLsbD i) h
  simp only [BitVec.getLsbD_and, BitVec.getLsbD_append, BitVec.getLsbD_allOnes, BitVec.getLsbD_zero] at hbit
  by_cases him : i < m
  · simp [BitVec.getElem_append, him, BitVec.getLsbD_eq_getElem hi]
  · rw [BitVec.getElem_append, dif_neg him, ← BitVec.getLsbD_eq_getElem, ← BitVec.getLsbD_eq_getElem]
    simpa [him, show i - m < n by omega, -BitVec.getLsbD_eq_getElem] using hbit.symm

/-- A row whose opcode bits are `a` reads back, if what it builds is encoded as `a` followed by the word's low bits. -/
theorem encode_of_opcode {n : Nat} (a : BitVec n) (m : Nat) {w : BitVec (n + m)} {o : Option (BitVec (n + m))}
    (ho : o = some (a ++ w.extractLsb' 0 m)) (h : (w &&& (BitVec.allOnes n ++ 0#m) == a ++ 0#m) = true) :
    o = some w := by
  rw [ho, append_low_of_hits h]

/-- A row that claims one word only reads back, if what it builds is encoded as that word. -/
theorem encode_of_word {w bits : Half} {o : Option Half} (ho : o = some bits)
    (h : (w &&& BitVec.allOnes 16 == bits) = true) : o = some w := by
  rw [ho, ← beq_iff_eq.mp h, BitVec.and_allOnes]

/-- Two adjacent fields of a word, put together. -/
theorem append_fields (w : Half) (j k l : Nat) :
    w.extractLsb' (j + l) k ++ w.extractLsb' j l = w.extractLsb' j (k + l) := by
  ext i hi
  simp only [BitVec.getElem_append, BitVec.getElem_extractLsb']
  split
  · rfl
  · rw [show j + l + (i - l) = j + i by omega]

/-- The three fields of a load or store are the low 12 bits of the word. -/
theorem append_three_fields (w : Half) :
    fieldHigh w ++ (fieldMid w ++ fieldLow w) = w.extractLsb' 0 12 :=
  (congrArg (fieldHigh w ++ ·) (append_fields w 0 4 4)).trans (append_fields w 0 4 8)

/-- What a row builds from a word it claims is encoded as that word: no bit under the row is dropped. -/
def Row.ReadsBack (r : Row) : Prop := ∀ w, r.hits w = true → encode (r.build w) = some w

theorem loadStoreRows_readBack : ∀ r ∈ loadStoreRows, r.ReadsBack := by
  have fields (a : BitVec 4) (w : Half) : some (a ++ (fieldHigh w ++ (fieldMid w ++ fieldLow w))) =
      some (a ++ w.extractLsb' 0 12) := by rw [append_three_fields]
  simp only [loadStoreRows, List.forall_mem_cons]
  exact ⟨fun w => encode_of_opcode 0x8#4 12 (fields _ w), fun w => encode_of_opcode 0x9#4 12 (fields _ w),
    fun w => encode_of_opcode 0xA#4 12 (fields _ w), fun w => encode_of_opcode 0xB#4 12 (fields _ w),
    fun w => encode_of_opcode 0xC#4 12 (fields _ w), fun w => encode_of_opcode 0xD#4 12 (fields _ w), by simp⟩

theorem multipleRows_readBack : ∀ r ∈ multipleRows, r.ReadsBack := by
  simp only [multipleRows, List.forall_mem_cons]
  exact ⟨fun _ => encode_of_opcode 0x006#12 4 rfl, fun _ => encode_of_opcode 0x004#12 4 rfl,
    fun _ => encode_of_opcode 0x007#12 4 rfl, fun _ => encode_of_opcode 0x005#12 4 rfl, by simp⟩

theorem controlRows_readBack : ∀ r ∈ controlRows, r.ReadsBack := by
  simp only [controlRows, List.forall_mem_cons]
  exact ⟨fun _ => encode_of_opcode 0x00C#12 4 rfl, fun _ => encode_of_opcode 0x00D#12 4 rfl,
    fun _ => encode_of_opcode 0x70#8 8 rfl, fun _ => encode_of_opcode 0x7F#8 8 rfl,
    fun _ => encode_of_opcode 0b11110#5 11 rfl, fun _ => encode_of_opcode 0b11100#5 11 rfl,
    fun _ => encode_of_opcode 0b11101#5 11 rfl, fun _ => encode_of_opcode 0b11111#5 11 rfl,
    fun w => encode_of_opcode 0x04#8 8 (congrArg (some <| 0x04#8 ++ ·) (append_fields w 0 4 4)), by simp⟩

theorem arithRows_readBack : ∀ r ∈ arithRows, r.ReadsBack := by
  simp only [arithRows, List.forall_mem_cons]
  exact ⟨fun _ => encode_of_opcode 0x321#12 4 rfl, fun _ => encode_of_opcode 0x2C1#12 4 rfl,
    fun w => encode_of_opcode 0x03#8 8 (congrArg (some <| 0x03#8 ++ ·) (append_fields w 0 4 4)), by simp⟩

/-- The trap number built from the two bits of the word is encoded by those two bits. -/
theorem encode_trap_fieldTrap (w : Half) :
    encode (.trap (0#1 ++ fieldTrap w)) = some (0b00000000000010#14 ++ w.extractLsb' 0 2) := by
  have h : ∀ f : BitVec 2, encode (.trap (0#1 ++ f)) = some (0b00000000000010#14 ++ f) := by decide
  exact h (fieldTrap w)

theorem systemRows_readBack : ∀ r ∈ systemRows, r.ReadsBack := by
  simp only [systemRows, List.forall_mem_cons]
  exact ⟨fun w => encode_of_opcode 0b0001000#7 9 (congrArg (some <| 0b0001000#7 ++ ·) (append_fields w 0 5 4)),
    fun w => encode_of_opcode 0b0001100#7 9 (congrArg (some <| 0b0001100#7 ++ ·) (append_fields w 0 5 4)),
    fun _ => encode_of_word rfl, fun _ => encode_of_word rfl, fun _ => encode_of_word rfl,
    fun _ => encode_of_word rfl, fun _ => encode_of_word rfl,
    fun w => encode_of_opcode 0b00000000000010#14 2 (encode_trap_fieldTrap w), fun _ => encode_of_word rfl, by simp⟩

/-- Every row of R65's table reads back. -/
theorem table_readBack : ∀ r ∈ table, r.ReadsBack := by
  simp only [table, List.forall_mem_append]
  exact ⟨⟨⟨⟨loadStoreRows_readBack, multipleRows_readBack⟩, controlRows_readBack⟩, arithRows_readBack⟩,
    systemRows_readBack⟩

/-- Settles O2: every row reads back, and rows whose opcode bits differ claim no word in common. -/
theorem tableWordsReadBack : Obligations.TableWordsReadBack := by
  constructor
  · intro w i h
    obtain ⟨r, hr, hw, rfl⟩ := hits_of_lookup h
    exact table_readBack r hr w hw
  · refine table_pairwise_apart.imp fun {r q} hrq w hw => ?_
    rw [not_hits_of_apart hrq hw.1] at hw
    exact Bool.false_ne_true hw.2

end Sys2Proof

/-! Exception entry and the two resets: the state each leaves when its vector word can be taken, and what stops them. -/

namespace Sys2Proof.Machine

/-! ### Entry (R126 to R128, R148) -/

/-- Settles O16: the vector address is a sum, so each offset is four times a vector number. -/
theorem vectorOffsetsMatchTable : Obligations.VectorOffsetsMatchTable := by
  refine ⟨fun vbr => ⟨rfl, rfl, rfl, rfl, rfl, rfl, rfl, rfl⟩, fun vbr n => ?_⟩
  have offset : ∀ n : BitVec 3, 4 * (Exc.trap n).vector.setWidth 32 = (0x40 + 4 * n.setWidth 32 : Word) := by decide
  rw [vecAddr, offset, BitVec.add_assoc]

/-- A normal-kind entry whose vector word can be taken answers a next state. -/
theorem State.enterNormal_of_ok {s : State} {v : BitVec 7} (h : s.vectorOk (if s.psr.ee then v else 8)) (ret : Word)
    (tp : Bool) : ∃ t, s.enterNormal v ret tp = .next t :=
  ⟨_, State.vectorJump_of_ok h⟩

/-- Settles O17: the vector word can be taken, and the state the entry then leaves is the one R126 gives. -/
theorem normalEntryEffect : Obligations.NormalEntryEffect := by
  intro s v ret tp h
  obtain ⟨t, ht⟩ := State.enterNormal_of_ok h ret tp
  exact ⟨t, ht, State.enterNormal_next ht⟩

/-- Settles O18: the vector word can be taken, and the state the entry then leaves is the one R127 gives. -/
theorem fastEntryEffect : Obligations.FastEntryEffect := by
  intro s v ret tp h
  have ht : s.enterFast v ret tp = .next _ := State.vectorJump_of_ok h
  exact ⟨_, ht, State.enterFast_next ht⟩

/-- Settles O19: both kinds of entry end in the vector fetch, and the fetch stops. -/
theorem entryStopsWithoutVector : Obligations.EntryStopsWithoutVector := fun _ v _ _ =>
  ⟨fun h => ⟨State.vectorJump_tea _ h, State.vectorJump_tea v h⟩,
    fun h hb ho => State.vectorJump_odd h hb ho, fun h hb ho => State.vectorJump_odd h hb ho⟩

/-- Settles O21: with EE = 0 the entry goes through vector 8, which leaves its mark. -/
theorem unrecoverableErrorReplaces : Obligations.UnrecoverableErrorReplaces := by
  intro s x ret hee hok
  have hv : (if s.psr.ee then x.vector else 8) = 8 := by rw [hee]; rfl
  obtain ⟨t, ht⟩ := State.enterNormal_of_ok (v := x.vector) (by rw [hv]; exact hok) ret false
  obtain ⟨hepc, hepsr, -, hfpc, hfpsr, hvec, -⟩ := State.enterNormal_next ht
  rw [hv] at hvec
  exact ⟨t, ht, hvec.pc, hepc, hepsr, hfpc, hfpsr, by simp [hvec.unrecoverable]⟩

/-! ### The resets (R129, R149, R31) -/

/-- Bit 0 of the vector word selects the register bank where `VECTOR_BIT0` says so (D6, G9). -/
theorem Psr.takeVector_af_of_bank (p : Psr) {b : VectorBit0} (w : Word) (h : b = .bank) :
    (p.takeVector b w).af = isOdd w := by
  rw [h]; rfl

/-- With the reset input asserted a step is the hardware reset. -/
theorem step_of_reset {s : State} (h : s.env.reset = true) : step s = Result.close s.hardReset := by
  simp [step, State.front, h]

/-- While SRST is asserted a step only remembers it (D31). -/
theorem step_of_srst {s : State} (hr : s.env.reset = false) (h : s.env.srst = true) :
    step s = .next { s with srstSeen := true }.advance := by
  simp [step, State.front, hr, h, Result.close, Result.bind]

/-- When SRST is negated after it was seen a step is the software reset. -/
theorem step_of_srst_negated {s : State} (hr : s.env.reset = false) (hn : s.env.srst = false) (h : s.srstSeen = true) :
    step s = Result.close s.softReset := by
  simp [step, State.front, hr, hn, h]

/-- Settles O13: the reset answers, and every value is one that `Psr.hardReset` or `State.scramble` sets. -/
theorem hardwareResetEffect : Obligations.HardwareResetEffect := by
  intro s hr hv
  rw [step_of_reset hr, State.hardReset, State.resetFrom_of_ok _ hv]
  exact ⟨_, rfl, rfl, handlerPc_of_even, Psr.takeVector_af_of_bank _ _, rfl, Psr.takeVector_s .., Psr.takeVector_tm ..,
    Psr.takeVector_ie .., Psr.takeVector_fe .., Psr.takeVector_db .., Psr.takeVector_u .., rfl, rfl, rfl, rfl, rfl⟩

/-- Settles O14: the two steps of SRST, each with the state it leaves. -/
theorem softwareResetEffect : Obligations.SoftwareResetEffect := by
  refine fun s hr => ⟨fun hs => ⟨_, step_of_srst hr hs, rfl, rfl, rfl, rfl, rfl, rfl, rfl, rfl, rfl, rfl, rfl⟩,
    fun hn hs hv => ?_⟩
  rw [step_of_srst_negated hr hn hs, State.softReset, State.resetFrom_of_ok _ hv]
  exact ⟨_, rfl, rfl, handlerPc_of_even, Psr.takeVector_af_of_bank _ _, rfl, Psr.takeVector_s .., Psr.takeVector_tm ..,
    Psr.takeVector_ie .., Psr.takeVector_fe .., Psr.takeVector_ee .., rfl, rfl, rfl, rfl, rfl⟩

/-- Settles O15: the fields of `State.reset`, and the word its empty memory holds at address 0. -/
theorem resetStateValues : Obligations.ResetStateValues :=
  ⟨rfl, rfl, rfl, rfl, rfl, rfl, rfl, rfl, rfl, rfl, rfl, rfl, rfl⟩

/-- Settles O56: an even pc, empty memory, no marks, and a platform that forces no bit of VBR. -/
theorem resetMeetsInvariant : Obligations.ResetMeetsInvariant where
  pcEven := rfl
  memWf := rfl
  tpClear := rfl
  noBrk := rfl
  noTrace := rfl
  vbrForced := Platform.forceVbr_zero _

/-! ### Stages 1 to 5 of R158 -/

/-- Where nothing pre-empts the fetch, a step runs the instruction that the bytes at the pc are, and then stage 8. -/
theorem step_of_decodes {s : State} {d : Decoded} (hf : s.fetches) (hd : s.decodeNext = .ok d)
    (hi : s.plat.implements d = true) :
    step s = Result.close (Result.bind (execute d s.latch) State.boundaryAfter) := by
  simp [step, State.front_of_fetches hf, hd, hi]

/-- An instruction the platform does not implement is an illegal one (R63). -/
theorem step_of_unimplemented {s : State} {d : Decoded} (hf : s.fetches) (hd : s.decodeNext = .ok d)
    (hi : s.plat.implements d = false) : step s = Result.close (s.latch.enterNormal 4 s.pc false) := by
  simp [step, State.front_of_fetches hf, hd, hi, State.raise, Exc.vector]

/-- An illegal word raises IllegalInstruction at its own address (R136). -/
theorem step_of_illegal {s : State} (hf : s.fetches) (hd : s.decodeNext = .error .illegal) :
    step s = Result.close (s.latch.enterNormal 4 s.pc false) := by
  simp [step, State.front_of_fetches hf, hd, State.raise, Exc.vector]

/-- A word of which the decoder knows nothing is refused (U6). -/
theorem step_of_unlisted {s : State} (hf : s.fetches) (hd : s.decodeNext = .error .unlisted) :
    step s = .refused .unlistedWord := by
  simp [step, State.front_of_fetches hf, hd, Result.close, Result.bind]

/-- What is taken at the boundary before ends the step. -/
theorem step_of_boundaryBefore {s : State} {r : Result} (hn : s.noReset) (h : s.latch.boundaryBefore = some r) :
    step s = Result.close r := by
  simp [step, State.front_of_noReset hn, State.attempt, h]

/-- Stage 8 does nothing where no data breakpoint and no trace is due, whatever is asserted. -/
theorem State.boundaryAfter_of_unmarked {t : State} (hb : t.dataBrk = false) (ht : t.traceDue = false) :
    t.boundaryAfter = .next t := by
  simp [State.boundaryAfter, hb, ht]

/-- After an entry stage 8 does nothing: the entry has dropped the marks. -/
theorem bind_enterNormal_boundaryAfter (s : State) (v : BitVec 7) (ret : Word) (tp : Bool) :
    Result.bind (s.enterNormal v ret tp) State.boundaryAfter = s.enterNormal v ret tp := by
  cases h : s.enterNormal v ret tp with
  | next t =>
    have hm := State.enterNormal_entered h
    exact State.boundaryAfter_of_unmarked hm.noBrk hm.noTrace
  | fault r => rfl
  | refused r => rfl

/-- Settles O4: the fetch gives the decoded instruction, and unmarked stage 8 adds nothing to it. -/
theorem stepRunsDecodedInstruction : Obligations.StepRunsDecodedInstruction := by
  refine ⟨execute_named, execute_other, fun s d hf hd => ?_⟩
  rw [State.decodes_iff] at hd
  refine ⟨fun hi => ⟨step_of_decodes hf hd hi, fun t ht hb htr => ?_⟩, step_of_unimplemented hf hd⟩
  simp [step_of_decodes hf hd hi, ht, Result.close, Result.bind, State.boundaryAfter_of_unmarked hb htr]

/-- What `other` leaves: general registers and the condition bit are open, all else is as it was or at the next
instruction (R62; log 44). -/
theorem execOther_frame (s : State) : ∃ t c, execOther s = .next t ∧ t.pc = s.pc + s.ilen ∧
    t.traceDue = isOtherTraceDue s.psr.tm ∧ t.fetchErr = s.fetchErr ∧ t.fetchBrk = s.fetchBrk ∧
    t.psr = { s.psr with c := c } ∧ SameMemory s t ∧ SameSpecial s t ∧ SameHidden s t ∧ t.lowPower = s.lowPower ∧
    t.dataBrk = s.dataBrk :=
  ⟨s.drawCore.retireOther s.psr.tm, s.drawCore.psr.c, rfl, by simp, by simp, by simp, by simp,
    (State.retireOther_psr ..).trans s.drawCore_psr, ⟨fun _ _ => by simp [State.readByte, State.key], by simp⟩,
    ⟨by simp, by simp, by simp, by simp, by simp⟩, ⟨by simp, by simp, by simp, by simp, by simp⟩, by simp, by simp⟩

theorem decodeWord_of_outside {w : Half} (h : lookup w = none) : decodeWord w = decodeOther w := by
  simp [decodeWord, h]

/-- `trap #4` to `trap #7`, which only the decoder parameter can name, have vectors 20 to 23 (D17). -/
theorem vector_trapHigh (k : BitVec 2) : (Exc.trap (1#1 ++ k)).vector = 20 + k.setWidth 7 := by
  revert k; decide

/-- Settles O5: `other` in every state, then each answer of the two decoder parameters. -/
theorem stepOnWordsOutsideTable : Obligations.StepOnWordsOutsideTable := by
  refine ⟨execOther_frame, fun s hf => ⟨fun units he => ?_, fun he hl => ?_⟩⟩
  · have hd := State.decodeNext_other he
    cases ho : Config.otherDecode ((List.range (2 * (units + 1))).map (s.byteAt s.mode s.pc)) with
    | none => exact step_of_illegal hf (by rw [hd, ho])
    | some d =>
      rw [ho] at hd
      cases hi : s.plat.implements d with
      | true => simp [step_of_decodes hf hd hi, hi]
      | false => simp [step_of_unimplemented hf hd hi, hi]
  · have hd := (State.decodeNext_table he).trans (decodeWord_of_outside hl)
    rw [decodeOther] at hd
    cases ho : Config.otherWord (s.halfAt s.mode s.pc) with
    | hai => rw [ho] at hd; exact step_of_decodes hf hd rfl
    | trapHigh k =>
      rw [ho] at hd
      simp only [step_of_decodes hf hd rfl, execute_named, ← vector_trapHigh]
      exact congrArg Result.close (bind_enterNormal_boundaryAfter ..)
    | illegal => rw [ho] at hd; exact step_of_illegal hf hd
    | other => rw [ho] at hd; exact step_of_decodes hf hd rfl
    | unlisted => rw [ho] at hd; exact step_of_unlisted hf hd

/-- Settles O6: the breakpoint tag is looked at first, the error tag when the fetch is reached. -/
theorem fetchTagsRaisedWhenReached : Obligations.FetchTagsRaisedWhenReached := by
  refine fun s hn => ⟨fun hb => step_of_boundaryBefore hn ?_, fun hb hl he => ?_⟩
  · rw [← State.mem_latch_fetchBrk] at hb
    exact if_pos hb
  · rw [← State.mem_latch_fetchErr] at he
    simp [step, State.front_of_quiet hn hb hl, State.fetch, he, State.raise, Exc.vector]

/-- Settles O7: with no tag on the fetch the boundary before is the interrupts'. -/
theorem boundaryInterruptTaken : Obligations.BoundaryInterruptTaken := by
  intro s hn he hb
  have htag : s.pc ∉ s.latch.fetchBrk := by simp [State.mem_latch_fetchBrk, he, hb]
  refine ⟨fun hu => ?_, fun hu => State.boundaryBefore_none.mpr ⟨htag, hu⟩⟩
  obtain ⟨r, hr, ht⟩ := State.interrupt_taken (s := s.latch) (ret := s.pc) (tp := false) hu
  exact ⟨r, ht, step_of_boundaryBefore hn ((if_neg htag).trans hr)⟩

/-- Settles O8: the byte written is one of those that `modified` looks at. -/
theorem modifiedCodeRefused : Obligations.ModifiedCodeRefused := by
  intro s hn hb hl he ho ⟨k, hk, hs⟩
  have hm : s.modified = true :=
    List.any_eq_true.mpr ⟨k, List.mem_range.mpr hk, decide_eq_true hs⟩
  simp [step, State.front_of_quiet hn hb hl, State.fetch, he, ho, hm, Result.close, Result.bind]

/-- Settles O9: nothing is taken at the boundary, and in a low-power state nothing is fetched. -/
theorem lowPowerIdles : Obligations.LowPowerIdles := by
  intro s hn hb hl
  simp [step, State.front_of_noReset hn, State.attempt, hb, hl, Result.close, Result.bind]

/-! ### Stage 8 of R158 -/

/-- A step whose instruction completes in `t` goes on with stage 8 from `t`. -/
theorem step_of_completed {s t : State} {d : Decoded} (hf : s.fetches) (hd : s.decodes d)
    (hi : s.plat.implements d = true) (ht : execute d s.latch = .next t) :
    step s = Result.close t.boundaryAfter := by
  rw [step_of_decodes hf (State.decodes_iff.mp hd) hi, ht]
  rfl

/-- With a trace due and no breakpoint of either kind, stage 8 is the interrupts, else the trace (R141, R143). -/
theorem State.boundaryAfter_of_traceDue {t : State} (ht : t.traceDue = true) (hb : t.dataBrk = false)
    (hp : t.pc ∉ t.fetchBrk) :
    t.boundaryAfter = (t.interrupt t.env.post t.pc true).getD (t.enterNormal 6 t.pc false) := by
  simp [State.boundaryAfter, ht, hb, hp, Exc.vector]

/-- Settles O10: no interrupt is there, so the trace is taken. -/
theorem traceTakenAfterInstruction : Obligations.TraceTakenAfterInstruction := by
  intro s d t hf hd hi hx ht hb hp hu
  rw [step_of_completed hf hd hi hx, State.boundaryAfter_of_traceDue ht hb hp, State.interrupt_none.mpr hu]
  rfl

/-- Settles O11: the interrupt comes before the trace, with TP set. -/
theorem traceDeferredBehindInterrupt : Obligations.TraceDeferredBehindInterrupt := by
  intro s d t hf hd hi hx ht hb hp hu
  obtain ⟨r, hr, hr'⟩ := State.interrupt_taken (ret := t.pc) (tp := true) hu
  refine ⟨r, hr', ?_⟩
  rw [step_of_completed hf hd hi hx, State.boundaryAfter_of_traceDue ht hb hp, hr]
  rfl

/-- Settles O12: the breakpoint is the first thing stage 8 looks for. -/
theorem dataBreakpointAfterInstruction : Obligations.DataBreakpointAfterInstruction := by
  intro s d t hf hd hi hx hb
  rw [step_of_completed hf hd hi hx, State.boundaryAfter, if_pos (by simpa using hb)]
  rfl

end Sys2Proof.Machine

/-! What every step does to the control state: it leaves an exception entry or a reset behind it (`Raised`), or the work
of an instruction (`Worked`). The invariant and the guarantees of user mode follow from that one case split. -/

namespace Sys2Proof.Machine

/-! ### What every operation keeps -/

/-- What no operation of a step breaks: the platform is constant, free values are taken in order, memory stays
canonical, and VBR keeps the bits zero that the hardware forces. -/
structure Kept (s u : State) : Prop where
  plat : u.plat = s.plat
  draws : s.draws ≤ u.draws
  memWf : Memory.wf s.mem = true → Memory.wf u.mem = true
  vbrForced : s.plat.forceVbr s.vbr = s.vbr → u.plat.forceVbr u.vbr = u.vbr

/-- What an instruction, or a part of one, can do short of an exception entry; from user mode it reaches no control
state but the condition bit (R162). -/
structure Worked (s u : State) : Prop extends Kept s u where
  pcEven : isOdd s.pc = false → isOdd u.pc = false
  tpClear : s.psr.tp = false → u.psr.tp = false
  user : s.psr.s = false → u.psr = { s.psr with c := u.psr.c } ∧ SameSpecial s u

/-- What an exception entry or a reset leaves, whatever was done before it (R126 to R129, R149). -/
structure Raised (s u : State) : Prop extends Kept s u where
  supervisor : u.psr.s = true
  untraced : u.psr.tm = .off
  tpClear : u.psr.tp = false
  intMasked : u.psr.ie = false
  pcEven : isOdd u.pc = false
  noBrk : u.dataBrk = false
  noTrace : u.traceDue = false

theorem Kept.trans {s u t : State} (h : Kept s u) (h' : Kept u t) : Kept s t where
  plat := h'.plat.trans h.plat
  draws := h.draws.trans h'.draws
  memWf hw := h'.memWf (h.memWf hw)
  vbrForced hv := h'.vbrForced (h.vbrForced hv)

theorem Kept.of_eq {s u : State} (hp : u.plat = s.plat) (hd : s.draws ≤ u.draws)
    (hw : Memory.wf s.mem = true → Memory.wf u.mem = true) (hv : u.vbr = s.vbr) : Kept s u :=
  ⟨hp, hd, hw, fun h => by rw [hp, hv, h]⟩

theorem Worked.refl (s : State) : Worked s s :=
  ⟨.of_eq rfl le_rfl id rfl, id, id, fun _ => ⟨rfl, rfl, rfl, rfl, rfl, rfl⟩⟩

theorem Worked.trans {s u t : State} (h : Worked s u) (h' : Worked u t) : Worked s t where
  toKept := h.toKept.trans h'.toKept
  pcEven ho := h'.pcEven (h.pcEven ho)
  tpClear ht := h'.tpClear (h.tpClear ht)
  user hs := by
    obtain ⟨hpsr, hspecial⟩ := h.user hs
    obtain ⟨hpsr', hspecial'⟩ := h'.user (by rw [hpsr]; exact hs)
    exact ⟨by rw [hpsr', hpsr], hspecial'.vbr.trans hspecial.vbr, hspecial'.epc.trans hspecial.epc,
      hspecial'.epsr.trans hspecial.epsr, hspecial'.fpc.trans hspecial.fpc, hspecial'.fpsr.trans hspecial.fpsr⟩

/-- An entry leaves the same behind it whatever partial effects came before it. -/
theorem Raised.of_entered {s u t : State} (h : Kept s u) (he : Entered u t) : Raised s t where
  toKept := h.trans <|
    .of_eq he.frame.plat he.draws.ge (fun hw => by rwa [he.frame.mem]) he.frame.vbr
  supervisor := he.supervisor
  untraced := he.untraced
  tpClear := he.tpClear
  intMasked := he.intMasked
  pcEven := he.pcEven
  noBrk := he.noBrk
  noTrace := he.noTrace

/-! ### The parts of an instruction -/

/-- A part of an instruction that leaves the pc, the PSR and the special registers alone. -/
theorem Worked.of_frame {s u : State} (hpc : u.pc = s.pc) (hpsr : u.psr = s.psr) (hs : SameSpecial s u)
    (hp : u.plat = s.plat) (hd : s.draws ≤ u.draws) (hw : Memory.wf s.mem = true → Memory.wf u.mem = true) :
    Worked s u where
  toKept := .of_eq hp hd hw hs.vbr
  pcEven h := by rwa [hpc]
  tpClear h := by rwa [hpsr]
  user _ := ⟨by rw [hpsr], hs⟩

theorem State.draws_le_drawRegs (s : State) (l : List (Reg × Word)) : s.draws ≤ (s.drawRegs l).draws := by
  induction l generalizing s with
  | nil => exact le_rfl
  | cons c l ih => exact (Nat.le_succ _).trans (ih (s.drawReg c.1 c.2))

theorem State.draws_le_drawBytes (s : State) (m : Mode) (a : Word) (l : List Byte) :
    s.draws ≤ (s.drawBytes m a l).draws := by
  induction l generalizing s a with
  | nil => exact le_rfl
  | cons b l ih => exact (Nat.le_succ _).trans (ih (s.drawByte m a b) _)

/-- A part of an instruction that writes general registers only. -/
theorem Worked.of_regsOnly {s u : State} {rs : List Reg} (h : RegsOnly s u rs) (hpc : u.pc = s.pc)
    (hd : s.draws ≤ u.draws) (hm : u.mem = s.mem) : Worked s u :=
  .of_frame hpc h.psr h.special h.hidden.plat hd (hm ▸ id)

section Parts

variable (s : State)

theorem Worked.noteBrk : Worked s s.noteBrk := .of_regsOnly s.noteBrk_regsOnly rfl le_rfl rfl

theorem Worked.setReg (r : Reg) (v : Word) : Worked s (s.setReg r v) :=
  .of_regsOnly (s.setReg_regsOnly r v) rfl le_rfl rfl

theorem Worked.setRegs (l : List (Reg × Word)) : Worked s (s.setRegs l) :=
  .of_regsOnly (s.setRegs_regsOnly l) (by simp) (by simp) (by simp)

theorem Worked.drawReg (r : Reg) (v : Word) : Worked s (s.drawReg r v) :=
  .of_regsOnly (s.drawReg_regsOnly r v) rfl (Nat.le_succ _) rfl

theorem Worked.drawRegs (l : List (Reg × Word)) : Worked s (s.drawRegs l) :=
  .of_regsOnly (s.drawRegs_regsOnly l) (by simp) (s.draws_le_drawRegs l) (by simp)

theorem Worked.writeN (m : Mode) (a : Word) (n : Nat) (v : Word) : Worked s (s.writeN m a n v) :=
  .of_frame (by simp) (by simp) ⟨by simp, by simp, by simp, by simp, by simp⟩ (by simp) (by simp)
    fun hw => State.writeN_wf hw ..

theorem Worked.storeRegs (s0 : State) (a : Word) (rs : List Reg) : Worked s (s.storeRegs s0 a rs) :=
  .of_frame (by simp) (by simp) ⟨by simp, by simp, by simp, by simp, by simp⟩ (by simp) (by simp)
    fun hw => State.storeRegs_wf hw ..

theorem Worked.drawBytes (m : Mode) (a : Word) (l : List Byte) : Worked s (s.drawBytes m a l) :=
  .of_frame (by simp) (by simp) ⟨by simp, by simp, by simp, by simp, by simp⟩ (by simp) (s.draws_le_drawBytes ..)
    fun hw => State.drawBytes_wf hw ..

theorem Worked.drawCore : Worked s s.drawCore where
  toKept := .of_eq (by simp) (by simp [State.drawCore]) (by simp) (by simp)
  pcEven := by simp
  tpClear h := by rw [State.drawCore_psr]; exact h
  user _ := ⟨s.drawCore_psr, by simp, by simp, by simp, by simp, by simp⟩

theorem Worked.drawMem : Worked s s.drawMem :=
  .of_frame (by simp) (by simp) ⟨by simp, by simp, by simp, by simp, by simp⟩ (by simp) (by simp [State.drawMem])
    fun _ => Memory.ofCells_wf _

theorem Worked.setDraws {n : Nat} (h : s.draws ≤ n) : Worked s { s with draws := n } :=
  .of_frame rfl rfl ⟨rfl, rfl, rfl, rfl, rfl⟩ rfl h id

theorem Worked.setC (c : Bool) : Worked s { s with psr := { s.psr with c := c } } :=
  ⟨.of_eq rfl le_rfl id rfl, id, id, fun _ => ⟨rfl, rfl, rfl, rfl, rfl, rfl⟩⟩

theorem Worked.latch : Worked s s.latch :=
  .of_frame rfl rfl ⟨rfl, rfl, rfl, rfl, rfl⟩ rfl le_rfl id

theorem Worked.advance : Worked s s.advance :=
  .of_frame rfl rfl ⟨rfl, rfl, rfl, rfl, rfl⟩ rfl le_rfl id

end Parts

/-- What every completion does: it moves the pc to an even address, keeps or drops fetch tags, and decides the trace. -/
theorem Worked.complete {s u : State} (h : Worked s u) {a : Word} (ha : isOdd s.pc = false → isOdd a = false)
    (err brk : List Word) (due : Bool) :
    Worked s { u with pc := a, fetchErr := err, fetchBrk := brk, traceDue := due } where
  toKept := h.toKept.trans (.of_eq rfl le_rfl id rfl)
  pcEven := ha
  tpClear := h.tpClear
  user hs := ⟨(h.user hs).1, (h.user hs).2.vbr, (h.user hs).2.epc, (h.user hs).2.epsr, (h.user hs).2.fpc,
    (h.user hs).2.fpsr⟩

/-- Completion in sequence (R61). -/
theorem Worked.retire {s u : State} (h : Worked s u) (i : Instr) (tm : Tm) :
    Worked s (u.retire i tm (s.pc + s.ilen)) :=
  h.complete (fun ho => (isOdd_add_ilen s s.pc).trans ho) ..

theorem Worked.retireOther {s u : State} (h : Worked s u) (tm : Tm) : Worked s (u.retireOther tm) :=
  h.complete (fun ho => (isOdd_add_ilen u u.pc).trans (h.pcEven ho)) ..

/-- FLOW, taken or not, where the target is even. -/
theorem Worked.flow {s u : State} (h : Worked s u) (i : Instr) (tm : Tm) (taken : Bool) {a : Word}
    (ha : isOdd s.pc = false → isOdd a = false) : Worked s (u.flow i tm taken a) := by
  refine h.complete (fun ho => ?_) ..
  cases taken with
  | true => exact ha ho
  | false => exact (isOdd_add_ilen u u.pc).trans (h.pcEven ho)

/-! ### Instruction by instruction -/

theorem Raised.of_worked {s u t : State} (h : Worked s u) (he : Entered u t) : Raised s t := .of_entered h.toKept he

theorem load_raised_or_worked {s t : State} {i : Instr} {rz : Reg} {ea : Word} {n : Nat}
    (h : s.load i rz ea n = .next t) : Raised s t ∨ Worked s t := by
  obtain he | ⟨v, rfl⟩ := State.load_next h
  · exact .inl (.of_worked (.refl s) he)
  · exact .inr (((Worked.noteBrk s).trans (.setReg _ rz v)).retire ..)

theorem store_raised_or_worked {s t : State} {i : Instr} {rz : Reg} {ea : Word} {n : Nat}
    (h : s.store i rz ea n = .next t) : Raised s t ∨ Worked s t := by
  obtain ⟨l, he⟩ | ⟨v, rfl⟩ := State.store_next h
  · exact .inl (.of_worked (.drawBytes s _ _ l) he)
  · exact .inr (((Worked.noteBrk s).trans (.writeN _ _ _ n v)).retire ..)

theorem loadMultiple_raised_or_worked {s t : State} {i : Instr} {base : Reg} {rs : List Reg} {ob : Bool}
    (h : s.loadMultiple i base rs ob = .next t) : Raised s t ∨ Worked s t := by
  obtain ⟨l, he⟩ | ⟨l, l', rfl⟩ := State.loadMultiple_next h
  · exact .inl (.of_worked (.drawRegs s l) he)
  · exact .inr ((((Worked.noteBrk s).trans (.drawRegs _ l)).trans (.setRegs _ l')).retire ..)

theorem storeMultiple_raised_or_worked {s t : State} {i : Instr} {base : Reg} {rs : List Reg}
    (h : s.storeMultiple i base rs = .next t) : Raised s t ∨ Worked s t := by
  simp only [State.storeMultiple, State.retireNext] at h
  split at h
  · exact .inl (.of_worked (.refl s) (State.raise_entered h))
  · split at h
    · exact .inl (.of_worked ((Worked.storeRegs s s _ _).trans (.drawBytes ..)) (State.raise_entered h))
    · next hc =>
      exact .inl (.of_worked (.storeRegs s s _ _)
        (State.interruptInside_entered (by simp) (by simp) (State.ending_cut hc) h))
    · have hw := ((Worked.noteBrk s).trans (.storeRegs _ s (alignDown (s.reg base) 4) rs)).retire i s.psr.tm
      rw [← Host.Outcome.next.inj h]
      exact .inr (by simpa using hw)

theorem finishArith_raised_or_worked {s t : State} {i : Instr} {rx : Reg} {v : Word}
    (h : s.finishArith i rx v = .next t) : Raised s t ∨ Worked s t := by
  obtain he | rfl := State.finishArith_next h
  · exact .inl (.of_worked (.refl s) he)
  · exact .inr ((Worked.setReg s rx v).retire ..)

/-- A privileged instruction raises in user mode, and in supervisor mode does what its meaning says. -/
theorem privileged_raised_or_worked {s t : State} {k : Result} (h : s.privileged k = .next t)
    (hk : s.psr.s = true → k = .next t → Raised s t ∨ Worked s t) : Raised s t ∨ Worked s t := by
  obtain ⟨hs, h⟩ | ⟨-, he⟩ := State.privileged_next h
  · exact hk hs h
  · exact .inl (.of_worked (.refl s) he)

/-- A write of a control register, in supervisor mode (R101). -/
theorem Worked.writeCr {s : State} (hs : s.psr.s = true) (c : BitVec 5) (v : Word) : Worked s (s.writeCr c v) := by
  rw [State.writeCr_eq]
  refine ⟨⟨rfl, le_rfl, id, fun hv => ?_⟩, id, fun ht => ?_, fun hu => by simp [hs] at hu⟩
  · show s.plat.forceVbr (if c = 1 then s.plat.forceVbr v else s.vbr) = if c = 1 then s.plat.forceVbr v else s.vbr
    split
    · exact Platform.forceVbr_forceVbr ..
    · exact hv
  · show (if c = 0 then { Psr.ofWord v with tp := false } else s.psr).tp = false
    split
    · rfl
    · exact ht

/-- The return to an even address, in supervisor mode (R102). -/
theorem Worked.restored {s : State} (hs : s.psr.s = true) (i : Instr) (p : Psr) {a : Word} (ha : isOdd a = false) :
    Worked s (s.restored i p a) where
  toKept := .of_eq rfl le_rfl id rfl
  pcEven _ := ha
  tpClear _ := rfl
  user hu := by simp [hs] at hu

theorem returnFrom_raised_or_worked {s t : State} (hs : s.psr.s = true) {i : Instr} {p : Psr} {a : Word}
    (h : s.returnFrom i p a = .next t) : Raised s t ∨ Worked s t := by
  obtain ⟨ha, he | rfl⟩ := State.returnFrom_next h
  · exact .inl (.of_worked (.restored hs i p ha) he)
  · exact .inr (.restored hs i p ha)

theorem enterLowPower_raised_or_worked {s t : State} {k : LowPower} {i : Instr} (h : s.enterLowPower k i = .next t) :
    Raised s t ∨ Worked s t := by
  simp only [State.enterLowPower, State.retireNext] at h
  split at h
  · have hw : Worked s { s with lowPower := some k } :=
      .of_frame rfl rfl ⟨rfl, rfl, rfl, rfl, rfl⟩ rfl le_rfl id
    rw [← Host.Outcome.next.inj h]
    exact .inr (hw.retire ..)
  · cases h

/-- What the accelerator left in memory is a part of the entry that its exception made (log 19). -/
theorem haiReported_raised {s t : State} (h : s.haiReported = .next t) : Raised s t := by
  simp only [State.haiReported] at h
  split at h
  · next u hu =>
    have hr : Raised s u := .of_worked (.drawCore s) (State.raise_entered hu)
    rw [← Host.Outcome.next.inj h]
    exact ⟨hr.toKept.trans (Worked.drawMem u).toKept, hr.supervisor, hr.untraced, hr.tpClear, hr.intMasked, hr.pcEven,
      hr.noBrk, hr.noTrace⟩
  · cases h
  · cases h

/-- A taken FLOW to a target that was found even. -/
theorem Worked.jump {s u : State} (h : Worked s u) (i : Instr) (tm : Tm) {a : Word} (ha : ¬ isOdd a = true) :
    Worked s (u.flow i tm true a) :=
  h.flow i tm true fun _ => by simpa using ha

/-- FLOW to a halfword displacement from the next instruction. -/
theorem Worked.branch {s u : State} (h : Worked s u) (i : Instr) (tm : Tm) (taken : Bool) {a k : Word}
    (ha : a = s.pc + 2 + 2 * k) : Worked s (u.flow i tm taken a) :=
  h.flow i tm taken fun ho => by rw [ha, isOdd_add_double, isOdd_add_two, ho]

/-- The literal jumps: a bus error, an odd target, or a jump (R82, R83). -/
theorem literalJump_raised_or_worked {s u v t : State} {i : Instr} {a : Word} (hu : Worked s u) (hv : Worked s v)
    (h : (if s.env.teaAt 0 then u.raise .accessError s.pc
      else if isOdd a then u.raise .misaligned a else .next (v.flow i s.psr.tm true a)) = .next t) :
    Raised s t ∨ Worked s t := by
  split at h
  · exact .inl (.of_worked hu (State.raise_entered h))
  · split at h
    · exact .inl (.of_worked hu (State.raise_entered h))
    · next ha =>
      rw [← Host.Outcome.next.inj h]
      exact .inr (hv.jump i _ ha)

/-- Everything the meaning of an instruction can have done when it answers a next state. -/
theorem exec_raised_or_worked {i : Instr} {s t : State} (h : exec i s = .next t) : Raised s t ∨ Worked s t := by
  cases i with
  | ldW | ldB | ldH => exact load_raised_or_worked h
  | stW | stB | stH => exact store_raised_or_worked h
  | ldm | ldq => exact loadMultiple_raised_or_worked h
  | stm | stq => exact storeMultiple_raised_or_worked h
  | jmp rx =>
    simp only [exec, execJmp] at h
    split at h
    · cases h
    · next ha => cases h; exact .inr ((Worked.refl s).jump _ _ ha)
  | jsr rx =>
    simp only [exec, execJsr] at h
    split at h
    · cases h
    · next ha => cases h; exact .inr ((Worked.setReg s _ _).jump _ _ ha)
  | jmpi d => exact literalJump_raised_or_worked (.refl s) (.noteBrk s) h
  | jsri d =>
    exact literalJump_raised_or_worked (.drawReg s linkReg (s.pc + 2)) ((Worked.noteBrk s).trans (.setReg _ _ _)) h
  | br d => cases h; exact .inr ((Worked.refl s).branch _ _ _ (s.branchTarget_eq d))
  | bt d => cases h; exact .inr ((Worked.refl s).branch _ _ _ (s.branchTarget_eq d))
  | bf d => cases h; exact .inr ((Worked.refl s).branch _ _ _ (s.branchTarget_eq d))
  | bsr d => cases h; exact .inr ((Worked.setReg s _ _).branch _ _ _ (s.branchTarget_eq d))
  | loopt ry d =>
    cases h
    exact .inr (((Worked.setReg s _ _).trans (.setC _ _)).branch _ _ _ (s.looptTarget_eq d))
  | divs | divu =>
    simp only [exec, execDivs, execDivu] at h
    split at h
    · exact .inl (.of_worked (.refl s) (State.raise_entered h))
    · exact finishArith_raised_or_worked h
  | mult => exact finishArith_raised_or_worked h
  | mfcr rx c =>
    refine privileged_raised_or_worked h fun _ hk => ?_
    rw [← Host.Outcome.next.inj hk]
    have hd : s.draws ≤ if c.toNat < 6 then s.draws else s.draws + 1 := by split <;> omega
    exact .inr (((Worked.setReg s rx (s.readCr c)).trans (.setDraws _ hd)).retire ..)
  | mtcr rx c =>
    refine privileged_raised_or_worked h fun hs hk => ?_
    rw [← Host.Outcome.next.inj hk]
    have hw := (Worked.writeCr hs c (s.reg rx)).retire (.mtcr rx c) s.psr.tm
    exact .inr (by simpa [State.writeCr_eq, State.ilen] using hw)
  | rte | rfi => exact privileged_raised_or_worked h fun hs hk => returnFrom_raised_or_worked hs hk
  | stop | wait | doze => exact privileged_raised_or_worked h fun _ hk => enterLowPower_raised_or_worked hk
  | trap | bkpt => exact .inl (.of_worked (.refl s) (State.raise_entered h))
  | hai op =>
    simp only [exec, execHai] at h
    split at h
    · exact .inl (.of_worked (.refl s) (State.raise_entered h))
    · split at h
      · exact .inl (haiReported_raised h)
      · have hw := ((Worked.drawCore s).trans (.drawMem _)).retire (.hai op) s.psr.tm
        rw [← Host.Outcome.next.inj h]
        exact .inr (by simpa using hw)

theorem execute_raised_or_worked {d : Decoded} {s t : State} (h : execute d s = .next t) : Raised s t ∨ Worked s t := by
  cases d with
  | named i => exact exec_raised_or_worked h
  | other =>
    rw [execOther_cases h]
    exact .inr ((Worked.drawCore s).retireOther _)

/-! ### The step -/

theorem Raised.trans_worked {s u t : State} (h : Worked s u) (h' : Raised u t) : Raised s t :=
  { h' with toKept := h.toKept.trans h'.toKept }

/-- A reset raises in the sense above: it too leaves supervisor mode, no tracing and masked interrupts (R129, R149). -/
theorem resetFrom_raised {s t : State} {a : Word} {fix : Psr → Psr}
    (hfix : ∀ p, (fix p).s = true ∧ (fix p).tm = .off ∧ (fix p).tp = false ∧ (fix p).ie = false)
    (h : s.resetFrom a fix = .next t) : Raised s t := by
  obtain ⟨-, rfl⟩ := State.resetFrom_next h
  obtain ⟨hs, htm, htp, hie⟩ := hfix s.scramble.psr
  exact
    { plat := by simp
      draws := by simp [State.scramble]
      memWf := fun _ => s.scramble_wf
      vbrForced := fun _ => Platform.forceVbr_zero _
      supervisor := (Psr.takeVector_s ..).trans hs
      untraced := (Psr.takeVector_tm ..).trans htm
      tpClear := (Psr.takeVector_tp ..).trans htp
      intMasked := (Psr.takeVector_ie ..).trans hie
      pcEven := isOdd_handlerPc _
      noBrk := rfl
      noTrace := rfl }

/-- If no mark for stage 8 of R158 was left before the step, none is left after it. -/
def MarksClear (s t : State) : Prop :=
  s.dataBrk = false → s.traceDue = false → t.dataBrk = false ∧ t.traceDue = false

/-- Everything a step can have done when it answers a next state: an entry or a reset is behind it, or an instruction's
work, with no mark of stage 8 left over. -/
theorem step_raised_or_worked {s t : State} (h : step s = .next t) : Raised s t ∨ (Worked s t ∧ MarksClear s t) := by
  obtain ⟨u, rfl, hu⟩ := step_cases h
  suffices Raised s u ∨ (Worked s u ∧ MarksClear s u) from
    this.imp (fun hr => { hr with toKept := hr.toKept.trans (Worked.advance u).toKept })
      fun ⟨hw, hm⟩ => ⟨hw.trans (.advance u), hm⟩
  rcases hu with hu | rfl | hu | hu | rfl | ⟨d, v, -, -, hv, hu⟩
  · exact .inl (resetFrom_raised (fun _ => ⟨rfl, rfl, rfl, rfl⟩) hu)
  · exact .inr ⟨.of_frame rfl rfl ⟨rfl, rfl, rfl, rfl, rfl⟩ rfl le_rfl id, fun hb ht => ⟨hb, ht⟩⟩
  · exact .inl (resetFrom_raised (fun _ => ⟨rfl, rfl, rfl, rfl⟩) hu)
  · exact .inl (.of_worked (.latch s) hu)
  · exact .inr ⟨.latch s, fun hb ht => ⟨hb, ht⟩⟩
  · obtain he | ⟨rfl, hb, ht⟩ := State.boundaryAfter_next hu
    · have hk : Kept s.latch v := (execute_raised_or_worked hv).elim (·.toKept) (·.toKept)
      exact .inl (.of_entered ((Worked.latch s).toKept.trans hk) he)
    · exact (execute_raised_or_worked hv).imp (.trans_worked (.latch s))
        fun hw => ⟨(Worked.latch s).trans hw, fun _ _ => ⟨hb, ht⟩⟩

/-! ### What holds of every step -/

/-- Settles O57: a raised state meets the invariant by itself, and an instruction's work keeps each part of it. -/
theorem stepKeepsInvariant : Obligations.StepKeepsInvariant := by
  intro s t hs h
  obtain hr | ⟨hw, hm⟩ := step_raised_or_worked h
  · exact ⟨hr.pcEven, hr.memWf hs.memWf, hr.tpClear, hr.noBrk, hr.noTrace, hr.vbrForced hs.vbrForced⟩
  · obtain ⟨hb, ht⟩ := hm hs.noBrk hs.noTrace
    exact ⟨hw.pcEven hs.pcEven, hw.memWf hs.memWf, hw.tpClear hs.tpClear, hb, ht, hw.vbrForced hs.vbrForced⟩

/-- Settles O58: what is raised ends in supervisor mode, so the step was an instruction's work in user mode. -/
theorem userModeKeepsControlState : Obligations.UserModeKeepsControlState := by
  intro s t hs h ht
  obtain hr | ⟨hw, -⟩ := step_raised_or_worked h
  · exact absurd hr.supervisor (by simp [ht])
  · exact hw.user hs

/-- Settles O59: an instruction's work in user mode keeps S, so something was raised. -/
theorem supervisorEntryIsQuiet : Obligations.SupervisorEntryIsQuiet := by
  intro s t hs h ht
  obtain hr | ⟨hw, -⟩ := step_raised_or_worked h
  · exact ⟨hr.untraced, hr.tpClear, hr.intMasked⟩
  · have hkept : t.psr.s = s.psr.s := by rw [(hw.user hs).1]
    simp [hs, ht] at hkept

/-- Settles O60: both cases keep the platform and draw forward. -/
theorem platformAndDrawsKept : Obligations.PlatformAndDrawsKept := by
  intro s t h
  have hk : Kept s t := (step_raised_or_worked h).elim (·.toKept) (·.1.toKept)
  exact ⟨hk.plat, hk.draws⟩

end Sys2Proof.Machine

/-! The load and store class and the multi-register instructions: what each leaves when it completes, and what the
operand check, TEA# or an interrupt inside leaves instead. -/

namespace Sys2Proof.Machine

/-! ### Loads and stores of one operand (R43, R70) -/

theorem State.dataAddr_one (s : State) (rx : Reg) (d : BitVec 4) : s.dataAddr rx d 1 = s.reg rx + d.setWidth 32 := by
  simp [State.dataAddr]

theorem State.not_accessible {s : State} {ea : Word} {n : Nat} (hm : s.psr.mm = false)
    (he : ea % BitVec.ofNat 32 n ≠ 0) : s.accessible ea n = false := by
  rw [Bool.eq_false_iff, ne_eq, State.accessible_iff]
  exact not_or.mpr ⟨he, by simp [hm]⟩

/-- An operand of one byte is on its boundary at every address. -/
theorem State.accessible_one (s : State) (ea : Word) : s.accessible ea 1 = true := by
  simp [State.accessible, isAligned_one]

section Operand

variable {s : State} (i : Instr) (rz : Reg) {ea : Word} {n : Nat}

theorem State.load_of_misaligned (ha : s.accessible ea n = false) : s.load i rz ea n = s.enterNormal 1 s.pc false := by
  simp [State.load, ha, State.raise, Exc.vector]

theorem State.store_of_misaligned (ha : s.accessible ea n = false) :
    s.store i rz ea n = s.enterNormal 1 s.pc false := by
  simp [State.store, ha, State.raise, Exc.vector]

theorem State.load_of_tea (ha : s.accessible ea n = true) (hb : s.env.teaAt 0 = true) :
    s.load i rz ea n = s.enterNormal 2 s.pc false := by
  simp [State.load, ha, hb, State.raise, Exc.vector]

theorem State.store_of_tea (ha : s.accessible ea n = true) (hb : s.env.teaAt 0 = true) :
    s.store i rz ea n =
      (s.drawBytes s.mode (alignDown ea n) (splitWord s.plat.bigEndian (s.reg rz) n)).enterNormal 2 s.pc false := by
  simp [State.store, ha, hb, State.raise, Exc.vector]

/-- A load that completes: the value read is in its register, and nothing else but the pc has changed. -/
theorem State.load_completes (ha : s.accessible ea n = true) (hb : s.env.teaAt 0 = false) :
    ∃ t, s.load i rz ea n = .next t ∧ InSequence s t i ∧ RegsOnly s t [rz] ∧
      t.reg rz = s.readN s.mode (alignDown ea n) n ∧ t.dataBrk = (s.dataBrk || s.env.dataBrk) := by
  refine ⟨_, State.load_of_ok i rz ha hb, State.retire_inSequence i rfl rfl, ?_,
    (State.reg_retire ..).trans (State.reg_setReg_same ..), rfl⟩
  exact ((s.noteBrk_regsOnly.mono (by simp)).trans (State.setReg_regsOnly _ rz _)).trans
    ((State.retire_regsOnly _ i _ _).mono (by simp))

/-- The frame of a store that completes. -/
theorem State.writeN_retire_frame (s : State) (i : Instr) (a : Word) (n : Nat) (v : Word) :
    let t := (s.noteBrk.writeN s.mode a n v).retire i s.psr.tm (s.pc + s.ilen)
    InSequence s t i ∧ StoresOnly s t a n ∧ t.dataBrk = (s.dataBrk || s.env.dataBrk) :=
  ⟨State.retire_inSequence i (by simp) (by simp), (s.noteBrk.writeN_storesOnly a n v).of_noteBrk.retire .., by simp⟩

/-- A store that TEA# ends: the entry of vector 2 from a state in which at most its own bytes have changed (R45). -/
theorem State.store_busError (hw : Memory.wf s.mem = true) (hn : n ≤ 2 ^ 32) (ha : s.accessible ea n = true)
    (hb : s.env.teaAt 0 = true) :
    ∃ u, s.store i rz ea n = u.enterNormal 2 s.pc false ∧ StoresOnly s u (alignDown ea n) n ∧
      (s.plat.teaWriteAny = false → OldOrNew s u (alignDown ea n) n (s.reg rz)) :=
  ⟨_, State.store_of_tea i rz ha hb, by simpa using s.drawBytes_storesOnly _ (splitWord s.plat.bigEndian (s.reg rz) n),
    fun hp => State.drawBytes_oldOrNew hw hp _ n hn _⟩

end Operand

/-- Settles O22: the three widths of one load, each value in the words of R48. -/
theorem loadsComplete : Obligations.LoadsComplete := by
  refine fun s rz rx d hb => ⟨?_, ?_, ?_⟩
  · rintro ea rfl ha
    obtain ⟨t, ht, hi, hr, hv, hbrk⟩ := State.load_completes (.ldW rz rx d) rz ((s.accessible_iff _ 4).mpr ha) hb
    exact ⟨t, ht, hi, hr, hv.trans (State.readN_four ..), hbrk⟩
  · rintro ea rfl ha
    obtain ⟨t, ht, hi, hr, hv, hbrk⟩ := State.load_completes (.ldH rz rx d) rz ((s.accessible_iff _ 2).mpr ha) hb
    exact ⟨t, ht, hi, hr, hv.trans (State.readN_two ..), hbrk⟩
  · rintro ea rfl
    obtain ⟨t, ht, hi, hr, hv, hbrk⟩ := State.load_completes (.ldB rz rx d) rz (s.accessible_one _) hb
    rw [← State.dataAddr_one]
    exact ⟨t, ht, hi, hr, hv.trans (by rw [State.readN_one, alignDown_one]), hbrk⟩

/-- Settles O23: the three widths of one store, each read back. -/
theorem storesComplete : Obligations.StoresComplete := by
  refine fun s rz rx d hw hb => ⟨?_, ?_, ?_⟩
  · rintro ea rfl ha
    obtain ⟨hi, hs, hbrk⟩ := s.writeN_retire_frame (.stW rz rx d) (alignDown (s.dataAddr rx d 4) 4) 4 (s.reg rz)
    exact ⟨_, State.store_of_ok _ rz ((s.accessible_iff _ 4).mpr ha) hb, hi, hs,
      State.writeN_wordAt (s := s.noteBrk) hw .., hbrk⟩
  · rintro ea rfl ha
    obtain ⟨hi, hs, hbrk⟩ := s.writeN_retire_frame (.stH rz rx d) (alignDown (s.dataAddr rx d 2) 2) 2 (s.reg rz)
    exact ⟨_, State.store_of_ok _ rz ((s.accessible_iff _ 2).mpr ha) hb, hi, hs,
      State.writeN_halfAt (s := s.noteBrk) hw .., hbrk⟩
  · rintro ea rfl
    obtain ⟨hi, hs, hbrk⟩ := s.writeN_retire_frame (.stB rz rx d) (alignDown (s.dataAddr rx d 1) 1) 1 (s.reg rz)
    rw [← State.dataAddr_one, ← alignDown_one (s.dataAddr rx d 1)]
    refine ⟨_, State.store_of_ok _ rz (s.accessible_one _) hb, hi, hs, ?_, hbrk⟩
    refine (State.writeN_byteAt (s := s.noteBrk) hw s.mode _ 1 (s.reg rz) (by omega) 0 (by omega)).trans ?_
    simp

/-- Settles O26: the three widths of one store that TEA# ends. -/
theorem storeBusErrorRaises : Obligations.StoreBusErrorRaises := by
  refine fun s rz rx d hw hb => ⟨?_, ?_, ?_⟩
  · rintro ea rfl ha
    exact State.store_busError (.stW rz rx d) rz hw (by omega) ((s.accessible_iff _ 4).mpr ha) hb
  · rintro ea rfl ha
    exact State.store_busError (.stH rz rx d) rz hw (by omega) ((s.accessible_iff _ 2).mpr ha) hb
  · rintro ea rfl
    rw [← State.dataAddr_one, ← alignDown_one (s.dataAddr rx d 1)]
    exact State.store_busError (.stB rz rx d) rz hw (by omega) (s.accessible_one _) hb

/-! ### The multi-register instructions (R71 to R74) -/

theorem State.loadMultiple_of_misaligned {s : State} (i : Instr) {base : Reg} (rs : List Reg) (ob : Bool)
    (ha : s.accessible (s.reg base) 4 = false) : s.loadMultiple i base rs ob = s.enterNormal 1 s.pc false := by
  simp [State.loadMultiple, ha, State.raise, Exc.vector]

theorem State.storeMultiple_of_misaligned {s : State} (i : Instr) {base : Reg} (rs : List Reg)
    (ha : s.accessible (s.reg base) 4 = false) : s.storeMultiple i base rs = s.enterNormal 1 s.pc false := by
  simp [State.storeMultiple, ha, State.raise, Exc.vector]

/-- Settles O24: the operand check comes before the bus in each of the four operations. -/
theorem misalignedOperandRaises : Obligations.MisalignedOperandRaises := fun s hm =>
  ⟨fun _ _ _ he => ⟨State.load_of_misaligned _ _ (s.not_accessible (n := 4) hm he),
      State.store_of_misaligned _ _ (s.not_accessible (n := 4) hm he)⟩,
    fun _ _ _ he => ⟨State.load_of_misaligned _ _ (s.not_accessible (n := 2) hm he),
      State.store_of_misaligned _ _ (s.not_accessible (n := 2) hm he)⟩,
    fun _ he => ⟨State.loadMultiple_of_misaligned _ _ _ (s.not_accessible (n := 4) hm he),
      State.storeMultiple_of_misaligned _ _ (s.not_accessible (n := 4) hm he)⟩,
    fun _ he => ⟨State.loadMultiple_of_misaligned _ _ _ (s.not_accessible (n := 4) hm he),
      State.storeMultiple_of_misaligned _ _ (s.not_accessible (n := 4) hm he)⟩⟩

/-- The register at place `k` of a list is transferred from the `k`-th word. -/
theorem State.mem_transfers (s : State) (a : Word) {rs : List Reg} {k : BitVec 4} {r : Reg}
    (h : rs[k.toNat]? = some r) : (r, s.wordAt s.mode (a + 4 * k.setWidth 32)) ∈ s.transfers a rs := by
  obtain ⟨hk, rfl⟩ := List.getElem?_eq_some_iff.mp h
  simpa using s.transfers_mem a rs k.toNat hk

/-- The registers that some of the transfers write are listed ones. -/
theorem State.mem_filter_transfers {s : State} {a : Word} {rs : List Reg} {p : Reg × Word → Bool} {r : Reg}
    (h : r ∈ ((s.transfers a rs).filter p).map (·.1)) : r ∈ rs := by
  rw [← s.transfers_map a rs]
  exact (List.filter_sublist.map _).subset h

theorem State.nodup_filter_transfers (s : State) (a : Word) {rs : List Reg} (hd : rs.Nodup) (p : Reg × Word → Bool) :
    (((s.transfers a rs).filter p).map (·.1)).Nodup :=
  (List.filter_sublist.map _).nodup (by rwa [State.transfers_map])

/-- What is stored are the registers and the space of `s0`, whatever its marks. -/
theorem State.storeRegs_noteBrk (s s0 : State) (a : Word) (rs : List Reg) :
    s.storeRegs s0.noteBrk a rs = s.storeRegs s0 a rs := by
  induction rs generalizing s a with
  | nil => rfl
  | cons r rs ih => exact ih ..

section Multiple

variable {s : State} (i : Instr) {base : Reg} {rs : List Reg}

/-- A multi-register load that TEA# ends: each listed register is old or loaded (D27). -/
theorem State.loadMultiple_busError {k : Nat} (ha : s.accessible (s.reg base) 4 = true) (hd : rs.Nodup)
    (he : s.ending rs.length = .busError k) (ob : Bool) :
    ∃ u, s.loadMultiple i base rs ob = u.enterNormal 2 s.pc false ∧ RegsOnly s u rs ∧
      ∀ (j : BitVec 4) r, rs[j.toNat]? = some r →
        u.reg r = s.reg r ∨ u.reg r = s.wordAt s.mode (alignDown (s.reg base) 4 + 4 * j.setWidth 32) := by
  have hmap := s.transfers_map (alignDown (s.reg base) 4) rs
  refine ⟨s.drawRegs (s.transfers (alignDown (s.reg base) 4) rs), ?_, ?_, fun j r hj => ?_⟩
  · simp [State.loadMultiple, ha, he, State.raise, Exc.vector]
  · simpa [hmap] using s.drawRegs_regsOnly (s.transfers (alignDown (s.reg base) 4) rs)
  · exact s.reg_drawRegs_mem _ (by rwa [hmap]) r _ (s.mem_transfers _ hj)

/-- The interrupt inside an instruction, after partial effects that keep the PSR, the pc and the inputs. -/
theorem State.interruptInside_of_cutBy {u : State} {k : Nat} (hc : s.cutBy k) (he : u.env = s.env)
    (hp : u.psr = s.psr) (hpc : u.pc = s.pc) : InterruptTaken u s.env.mid s.pc false u.interruptInside := by
  obtain ⟨-, -, hu⟩ := hc
  rw [← he, ← hp] at hu
  simpa only [he, hpc] using State.interruptInside_taken hu

/-- A multi-register load cut short: each listed register is old or loaded, and the base is kept (D20). -/
theorem State.loadMultiple_cut {k : Nat} (ha : s.accessible (s.reg base) 4 = true) (hd : rs.Nodup) (hc : s.cutBy k)
    (he : s.ending rs.length = .cut k) (ob : Bool) :
    ∃ u, InterruptTaken u s.env.mid s.pc false (s.loadMultiple i base rs ob) ∧ RegsOnly s u rs ∧
      u.reg base = s.reg base ∧ ∀ (j : BitVec 4) r, rs[j.toNat]? = some r →
        u.reg r = s.reg r ∨ u.reg r = s.wordAt s.mode (alignDown (s.reg base) 4 + 4 * j.setWidth 32) := by
  have hbase : (s.drawRegs ((s.transfers (alignDown (s.reg base) 4) rs).filter (·.1 != base))).reg base = s.reg base :=
    State.reg_drawRegs_other _ _ _ (by simp)
  refine ⟨s.drawRegs ((s.transfers (alignDown (s.reg base) 4) rs).filter (·.1 != base)), ?_, ?_, hbase,
    fun j r hj => ?_⟩
  · simpa [State.loadMultiple, ha, he] using State.interruptInside_of_cutBy hc (by simp) (by simp) (by simp)
  · exact (s.drawRegs_regsOnly _).mono fun r hr => State.mem_filter_transfers hr
  · by_cases hr : r = base
    · exact .inl (hr ▸ hbase)
    · exact s.reg_drawRegs_mem _ (s.nodup_filter_transfers _ hd _) r _
        (List.mem_filter.mpr ⟨s.mem_transfers _ hj, by simpa using hr⟩)

/-- A multi-register load whose base stands outside its list, or is loaded like the rest, completes. -/
theorem State.loadMultiple_completes (ha : s.accessible (s.reg base) 4 = true) (hd : rs.Nodup)
    (he : s.ending rs.length = .done) :
    ∃ t, s.loadMultiple i base rs false = .next t ∧ InSequence s t i ∧ RegsOnly s t rs ∧
      (∀ (j : BitVec 4) r, rs[j.toNat]? = some r →
        t.reg r = s.wordAt s.mode (alignDown (s.reg base) 4 + 4 * j.setWidth 32)) ∧
      t.dataBrk = (s.dataBrk || s.env.dataBrk) := by
  have hmap := s.transfers_map (alignDown (s.reg base) 4) rs
  refine ⟨(s.noteBrk.setRegs (s.transfers (alignDown (s.reg base) 4) rs)).retire i s.psr.tm (s.pc + s.ilen), ?_,
    State.retire_inSequence i (by simp) (by simp), ?_, fun j r hj => ?_, by simp⟩
  · simp [State.loadMultiple, ha, he, State.retireNext]
  · have hr := s.noteBrk.setRegs_regsOnly (s.transfers (alignDown (s.reg base) 4) rs)
    rw [hmap] at hr
    exact ((s.noteBrk_regsOnly.mono (by simp)).trans hr).trans ((State.retire_regsOnly _ i _ _).mono (by simp))
  · exact State.reg_setRegs_mem _ _ (by rwa [hmap]) r _ (s.mem_transfers _ hj)

/-- A multi-register load with an open base completes: the base, if listed, ends old or loaded (log 13). -/
theorem State.loadMultiple_open_completes (ha : s.accessible (s.reg base) 4 = true) (hd : rs.Nodup)
    (he : s.ending rs.length = .done) :
    ∃ t, s.loadMultiple i base rs true = .next t ∧ InSequence s t i ∧ RegsOnly s t rs ∧
      (∀ (j : BitVec 4) r, rs[j.toNat]? = some r → r ≠ base →
        t.reg r = s.wordAt s.mode (alignDown (s.reg base) 4 + 4 * j.setWidth 32)) ∧
      (∀ j : BitVec 4, rs[j.toNat]? = some base →
        t.reg base = s.reg base ∨ t.reg base = s.wordAt s.mode (alignDown (s.reg base) 4 + 4 * j.setWidth 32)) ∧
      t.dataBrk = (s.dataBrk || s.env.dataBrk) := by
  let ts := s.transfers (alignDown (s.reg base) 4) rs
  refine ⟨((s.noteBrk.drawRegs (ts.filter (·.1 == base))).setRegs (ts.filter (·.1 != base))).retire i s.psr.tm
    (s.pc + s.ilen), ?_, State.retire_inSequence i (by simp) (by simp), ?_, fun j r hj hr => ?_, fun j hj => ?_,
    by simp⟩
  · simp [State.loadMultiple, ha, he, State.retireNext, ts]
  · have hdraw : RegsOnly s.noteBrk (s.noteBrk.drawRegs (ts.filter (·.1 == base))) rs :=
      (State.drawRegs_regsOnly _ _).mono fun r hr => State.mem_filter_transfers hr
    exact (((s.noteBrk_regsOnly.mono (by simp)).trans hdraw).trans
      ((State.setRegs_regsOnly _ _).mono fun r hr => State.mem_filter_transfers hr)).trans
      ((State.retire_regsOnly _ i _ _).mono (by simp))
  · exact State.reg_setRegs_mem _ _ (s.nodup_filter_transfers _ hd _) r _
      (List.mem_filter.mpr ⟨s.mem_transfers _ hj, by simpa using hr⟩)
  · rw [State.reg_retire, State.reg_setRegs_other _ _ _ (by simp)]
    exact State.reg_drawRegs_mem s.noteBrk _ (s.nodup_filter_transfers _ hd _) base _
      (List.mem_filter.mpr ⟨s.mem_transfers _ hj, by simp⟩)

/-- The word of the register at place `j`, among those stored. -/
theorem State.storeRegs_wordAt_of_lt {u : State} (hw : Memory.wf u.mem = true) (s : State) (a : Word)
    (hl : 4 * rs.length ≤ 2 ^ 32) {j : BitVec 4} {r : Reg} (hj : rs[j.toNat]? = some r) :
    (u.storeRegs s a rs).wordAt s.mode (a + 4 * j.setWidth 32) = s.reg r := by
  obtain ⟨hk, rfl⟩ := List.getElem?_eq_some_iff.mp hj
  simpa using State.storeRegs_wordAt hw s a rs hl j.toNat hk

/-- A multi-register store that completes (R73, R74). -/
theorem State.storeMultiple_completes (hw : Memory.wf s.mem = true) (ha : s.accessible (s.reg base) 4 = true)
    (hl : 4 * rs.length ≤ 2 ^ 32) (he : s.ending rs.length = .done) :
    ∃ t, s.storeMultiple i base rs = .next t ∧ InSequence s t i ∧
      StoresOnly s t (alignDown (s.reg base) 4) (4 * rs.length) ∧
      (∀ (j : BitVec 4) r, rs[j.toNat]? = some r →
        t.wordAt s.mode (alignDown (s.reg base) 4 + 4 * j.setWidth 32) = s.reg r) ∧
      t.dataBrk = (s.dataBrk || s.env.dataBrk) := by
  refine ⟨(s.noteBrk.storeRegs s.noteBrk (alignDown (s.reg base) 4) rs).retire i s.psr.tm (s.pc + s.ilen), ?_,
    State.retire_inSequence i (by simp) (by simp), (s.noteBrk.storeRegs_storesOnly _ rs).of_noteBrk.retire ..,
    fun j r hj => State.storeRegs_wordAt_of_lt (u := s.noteBrk) hw s.noteBrk _ hl hj, by simp⟩
  simp [State.storeMultiple, ha, he, State.retireNext, State.storeRegs_noteBrk]

/-- A multi-register store cut short: the words before the interrupt are stored (D20). -/
theorem State.storeMultiple_cut {k : Nat} (hw : Memory.wf s.mem = true) (ha : s.accessible (s.reg base) 4 = true)
    (hl : 4 * rs.length ≤ 2 ^ 32) (hk : k ≤ rs.length) (hc : s.cutBy k) (he : s.ending rs.length = .cut k) :
    ∃ u, InterruptTaken u s.env.mid s.pc false (s.storeMultiple i base rs) ∧
      StoresOnly s u (alignDown (s.reg base) 4) (4 * k) ∧
      ∀ (j : BitVec 4) r, rs[j.toNat]? = some r → j.toNat < k →
        u.wordAt s.mode (alignDown (s.reg base) 4 + 4 * j.setWidth 32) = s.reg r := by
  have hlen : (rs.take k).length = k := List.length_take_of_le hk
  refine ⟨s.storeRegs s (alignDown (s.reg base) 4) (rs.take k), ?_, ?_, fun j r hj hlt => ?_⟩
  · simpa [State.storeMultiple, ha, he] using State.interruptInside_of_cutBy hc (by simp) (by simp) (by simp)
  · simpa [hlen] using s.storeRegs_storesOnly (alignDown (s.reg base) 4) (rs.take k)
  · exact State.storeRegs_wordAt_of_lt hw s _ (by omega) (by rwa [List.getElem?_take_of_lt hlt])

/-- A multi-register store that TEA# ends: the words before the failing one are stored, its bytes are draws (D27). -/
theorem State.storeMultiple_busError {k : Nat} (hw : Memory.wf s.mem = true) (ha : s.accessible (s.reg base) 4 = true)
    (hl : 4 * rs.length ≤ 2 ^ 32) (hk : k < rs.length) (he : s.ending rs.length = .busError k) :
    ∃ u, s.storeMultiple i base rs = u.enterNormal 2 s.pc false ∧
      StoresOnly s u (alignDown (s.reg base) 4) (4 * (k + 1)) ∧
      (∀ (j : BitVec 4) r, rs[j.toNat]? = some r → j.toNat < k →
        u.wordAt s.mode (alignDown (s.reg base) 4 + 4 * j.setWidth 32) = s.reg r) ∧
      (s.plat.teaWriteAny = false →
        OldOrNew s u (alignDown (s.reg base) 4 + 4 * BitVec.ofNat 32 k) 4 (s.reg (rs.getD k 0))) := by
  have hlen : (rs.take k).length = k := List.length_take_of_le hk.le
  obtain ⟨hs, hwords, hdraw⟩ :=
    State.storeRegs_drawBytes hw (alignDown (s.reg base) 4) (rs.take k) (s.reg (rs.getD k 0)) hlen (by omega)
  refine ⟨_, ?_, hs, fun j r hj hlt => ?_, hdraw⟩
  · simp [State.storeMultiple, ha, he, State.raise, Exc.vector]
  · rw [← List.getElem?_take_of_lt hlt] at hj
    obtain ⟨hjl, rfl⟩ := List.getElem?_eq_some_iff.mp hj
    simpa using hwords j.toNat hjl

end Multiple

/-! ### The two register lists -/

theorem quadrant_nodup : quadrant.Nodup := by decide

/-- The register at place `k` of the quadrant. -/
theorem quadrant_getD {k : Nat} (hk : k < 4) : quadrant.getD k 0 = 4 + BitVec.ofNat 4 k := by
  have h : ∀ k < 4, quadrant.getD k 0 = 4 + BitVec.ofNat 4 k := by decide
  exact h k hk

/-- The register at place `k` of the list from `rf`. -/
theorem regsFrom_getD (rf : Reg) {k : Nat} (hk : k < 16 - rf.toNat) :
    (regsFrom rf).getD k 0 = rf + BitVec.ofNat 4 k := by
  have h : ∀ rf : Reg, ∀ k < 16, k < 16 - rf.toNat → (regsFrom rf).getD k 0 = rf + BitVec.ofNat 4 k := by decide
  exact h rf k (by omega) hk

/-- Settles O27: the quadrant loads every register from its word, the list from `rf` leaves its base open. -/
theorem loadMultiplesComplete : Obligations.LoadMultiplesComplete := by
  refine fun s a => ⟨fun rx hu ha hacc => ?_, fun rf hu ha hacc => ?_⟩
  · subst ha
    obtain ⟨t, ht, hi, hr, hv, hb⟩ := State.loadMultiple_completes (.ldq rx) ((s.accessible_iff _ 4).mpr hacc)
      quadrant_nodup (State.ending_done hu)
    exact ⟨t, ht, hi, hr, fun k hk => hv k _ (quadrant_getElem? k hk), hb⟩
  · subst ha
    rw [← regsFrom_length] at hu
    obtain ⟨t, ht, hi, hr, hv, hbase, hb⟩ := State.loadMultiple_open_completes (.ldm rf)
      ((s.accessible_iff _ 4).mpr hacc) (regsFrom_nodup rf) (State.ending_done hu)
    refine ⟨t, regsFrom rf, ht, hi, hr, mem_regsFrom rf, fun r hle => hv _ r (regsFrom_getElem? rf r hle), ?_, hb⟩
    rintro rfl
    simpa [multipleBase, alignDown] using hbase 0 (regsFrom_getElem? 0 0 (by decide))

/-- Settles O28: both lists are one store of consecutive words. -/
theorem storeMultiplesComplete : Obligations.StoreMultiplesComplete := by
  refine fun s a hw => ⟨fun rx hu ha hacc => ?_, fun rf hu ha hacc => ?_⟩
  · subst ha
    obtain ⟨t, ht, hi, hs, hv, hb⟩ := State.storeMultiple_completes (.stq rx) hw ((s.accessible_iff _ 4).mpr hacc)
      (by decide) (State.ending_done (n := quadrant.length) hu)
    exact ⟨t, ht, hi, hs, fun k hk => hv k _ (quadrant_getElem? k hk), hb⟩
  · subst ha
    rw [← regsFrom_length] at hu ⊢
    obtain ⟨t, ht, hi, hs, hv, hb⟩ := State.storeMultiple_completes (.stm rf) hw ((s.accessible_iff _ 4).mpr hacc)
      (by rw [regsFrom_length]; omega) (State.ending_done hu)
    exact ⟨t, ht, hi, hs, fun r hle => hv _ r (regsFrom_getElem? rf r hle), hb⟩

/-- Settles O29: the cut of the shared load and of the shared store, for both lists. -/
theorem multipleCutShort : Obligations.MultipleCutShort := by
  refine fun s k hw hc hf => ⟨fun rx a hk ha hacc => ?_, fun rf a hk ha hacc => ?_⟩
  · subst ha
    have hacc := (s.accessible_iff _ 4).mpr hacc
    have he : s.ending quadrant.length = .cut k := State.ending_of_cutBy hk hc hf
    obtain ⟨u, hu, hr, hbase, hv⟩ := State.loadMultiple_cut (.ldq rx) hacc quadrant_nodup hc he false
    obtain ⟨u', hu', hs, hv'⟩ := State.storeMultiple_cut (.stq rx) hw hacc (by decide) hk hc he
    exact ⟨⟨u, hu, hr, hbase, fun j hj => hv j _ (quadrant_getElem? j hj)⟩,
      u', hu', hs, fun j hj => hv' j _ (quadrant_getElem? j hj)⟩
  · subst ha
    have hacc := (s.accessible_iff _ 4).mpr hacc
    rw [← regsFrom_length] at hk
    have he := State.ending_of_cutBy hk hc hf
    obtain ⟨u, hu, hr, hbase, hv⟩ := State.loadMultiple_cut (.ldm rf) hacc (regsFrom_nodup rf) hc he true
    obtain ⟨u', hu', hs, hv'⟩ :=
      State.storeMultiple_cut (.stm rf) hw hacc (by rw [regsFrom_length]; omega) hk hc he
    exact ⟨⟨u, regsFrom rf, hu, hr, hbase, mem_regsFrom rf, fun r hle => hv _ r (regsFrom_getElem? rf r hle)⟩,
      u', hu', hs, fun r hle => hv' _ r (regsFrom_getElem? rf r hle)⟩

/-- Settles O30: the bus error of the shared load and of the shared store, for both lists. -/
theorem multipleBusErrorRaises : Obligations.MultipleBusErrorRaises := by
  refine fun s k hw ht hf hc => ⟨fun rx a hk ha hacc => ?_, fun rf a hk ha hacc => ?_⟩
  · subst ha
    have hacc := (s.accessible_iff _ 4).mpr hacc
    have he : s.ending quadrant.length = .busError k := State.ending_busError hk ht hf hc
    obtain ⟨u, hu, hr, hv⟩ := State.loadMultiple_busError (.ldq rx) hacc quadrant_nodup he false
    obtain ⟨u', hu', hs, hv', hd⟩ := State.storeMultiple_busError (.stq rx) hw hacc (by decide) hk he
    rw [quadrant_getD hk] at hd
    exact ⟨⟨u, hu, hr, fun j hj => hv j _ (quadrant_getElem? j hj)⟩,
      u', hu', hs, fun j hj => hv' j _ (quadrant_getElem? j (by bv_omega)) hj, hd⟩
  · subst ha
    have hacc := (s.accessible_iff _ 4).mpr hacc
    rw [← regsFrom_length] at hk
    have he := State.ending_busError hk ht hf hc
    obtain ⟨u, hu, hr, hv⟩ := State.loadMultiple_busError (.ldm rf) hacc (regsFrom_nodup rf) he true
    obtain ⟨u', hu', hs, hv', hd⟩ :=
      State.storeMultiple_busError (.stm rf) hw hacc (by rw [regsFrom_length]; omega) hk he
    rw [regsFrom_length] at hk
    rw [regsFrom_getD rf hk] at hd
    exact ⟨⟨u, regsFrom rf, hu, hr, mem_regsFrom rf, fun r hle => hv _ r (regsFrom_getElem? rf r hle)⟩,
      u', hu', hs, fun r hle => hv' _ r (regsFrom_getElem? rf r hle), hd⟩

end Sys2Proof.Machine

/-! The control transfers and the multi-cycle arithmetic: where each goes, what each writes, and what stops it. -/

namespace Sys2Proof.Machine

/-! ### Control transfers (R80 to R88) -/

/-- A jump from a state in which only general registers were written. -/
theorem RegsOnly.flow {s u : State} {rs : List Reg} (h : RegsOnly s u rs) (i : Instr) (tm : Tm) (taken : Bool)
    (a : Word) : RegsOnly s (u.flow i tm taken a) rs :=
  h.trans ((u.flow_regsOnly i tm taken a).mono (by simp))

theorem State.noteBrk_link_regsOnly (s : State) : RegsOnly s s.noteBrk.link [15] :=
  (s.noteBrk_regsOnly.mono (by simp)).trans s.noteBrk.link_regsOnly

/-- The link register of a jump holds the link. -/
theorem State.reg_link_flow (s : State) (i : Instr) (tm : Tm) (taken : Bool) (a : Word) :
    (s.link.flow i tm taken a).reg 15 = s.pc + 2 :=
  (State.reg_flow ..).trans (State.reg_setReg_same ..)

theorem execJmp_of_even {s : State} {rx : Reg} (h : isOdd (s.reg rx) = false) :
    exec (.jmp rx) s = .next (s.flow (.jmp rx) s.psr.tm true (s.reg rx)) := by
  simp [exec, execJmp, h]

theorem execJsr_of_even {s : State} {rx : Reg} (h : isOdd (s.jsrTarget rx) = false) :
    exec (.jsr rx) s = .next (s.link.flow (.jsr rx) s.psr.tm true (s.jsrTarget rx)) := by
  simp [exec, execJsr, h]

theorem execJsr_of_odd {s : State} {rx : Reg} (h : isOdd (s.jsrTarget rx) = true) :
    exec (.jsr rx) s = .refused .oddTarget := by
  simp [exec, execJsr, h]

/-- Settles O31: `jsr` goes where `jsrTarget` says, and each of the two targets of `jsr r15` is even. -/
theorem registerJumpsComplete : Obligations.RegisterJumpsComplete := by
  refine fun s rx ho => ⟨?_, fun hne => ?_, fun heq hpc => ?_⟩
  · exact ⟨_, execJmp_of_even ho, s.flow_taken s _ _ rfl rfl, s.flow_regsOnly .., rfl⟩
  · have ht := s.jsrTarget_of_ne hne
    refine ⟨_, execJsr_of_even (by rw [ht, ho]), ?_, s.link_regsOnly.flow .., s.reg_link_flow .., rfl⟩
    rw [ht]
    exact s.flow_taken s.link _ _ rfl rfl
  · subst heq
    have ht := s.jsrTarget_link
    have he : isOdd (s.jsrTarget 15) = false := by
      rcases ht with h | h
      · exact (congrArg isOdd h).trans ((isOdd_add_two _).trans hpc)
      · exact (congrArg isOdd h).trans ho
    exact ⟨_, _, execJsr_of_even he, ht.symm, s.flow_taken s.link _ _ rfl rfl, s.link_regsOnly.flow ..,
      s.reg_link_flow .., rfl⟩

/-- Settles O32: each refusal is the first thing its instruction does, but where `jsr r15` takes the new link. -/
theorem oddAddressesRefused : Obligations.OddAddressesRefused := by
  refine fun s => ⟨fun rx ho => ⟨?_, fun hne => ?_, fun heq => ?_⟩, fun hs ho => ?_, fun hs ho => ?_⟩
  · simp [exec, execJmp, ho]
  · exact execJsr_of_odd (by rw [s.jsrTarget_of_ne hne, ho])
  · subst heq
    cases he : isOdd (s.jsrTarget 15) with
    | true => exact .inl (execJsr_of_odd he)
    | false =>
      have ht : s.jsrTarget 15 = s.pc + 2 :=
        s.jsrTarget_link.resolve_right fun h => Bool.false_ne_true (he.symm.trans ((congrArg isOdd h).trans ho))
      refine .inr ⟨_, execJsr_of_even he, ?_, s.link_regsOnly.flow ..⟩
      rw [ht]
      exact s.flow_taken s.link _ _ rfl rfl
  · simp [exec, execRte, State.privileged, State.returnFrom, hs, ho]
  · simp [exec, execRfi, State.privileged, State.returnFrom, hs, ho]

/-- The literal word, in the words of R65. -/
theorem State.literal_eq (s : State) (d : BitVec 8) :
    s.readN s.mode (s.literalAddr d) 4 = s.wordAt s.mode ((s.pc + 2 + 4 * d.setWidth 32) &&& 0xFFFFFFFC) := by
  rw [State.readN_four, State.literalAddr_eq]

/-- Settles O33: the literal is read, found even, and jumped to. -/
theorem literalJumpsComplete : Obligations.LiteralJumpsComplete := by
  intro s d a hb ha ho
  rw [← State.literal_eq] at ha
  subst ha
  refine ⟨⟨s.noteBrk.flow (.jmpi d) s.psr.tm true _, ?_, s.flow_taken s.noteBrk _ _ rfl rfl, s.noteBrk_regsOnly.flow ..,
    rfl⟩, s.noteBrk.link.flow (.jsri d) s.psr.tm true _, ?_, s.flow_taken s.noteBrk.link _ _ rfl rfl,
    s.noteBrk_link_regsOnly.flow .., s.noteBrk.reg_link_flow .., rfl⟩
  · simp [exec, execJmpi, hb, ho]
  · simp [exec, execJsri, hb, ho]

/-- Settles O34: the odd literal is found before the link is kept. -/
theorem oddLiteralTargetRaises : Obligations.OddLiteralTargetRaises := by
  intro s d a hb ha ho
  rw [← State.literal_eq] at ha
  subst ha
  refine ⟨?_, s.drawReg linkReg (s.pc + 2), ?_, s.drawReg_regsOnly .., s.reg_drawReg_same ..⟩
  · simp [exec, execJmpi, hb, ho, State.raise, Exc.vector]
  · simp [exec, execJsri, hb, ho, State.raise, Exc.vector]

/-- Settles O35: a branch is FLOW taken to its target. -/
theorem branchesComplete : Obligations.BranchesComplete := by
  intro s d a ha
  rw [← State.branchTarget_eq] at ha
  subst ha
  exact ⟨⟨_, rfl, s.flow_taken s _ _ rfl rfl, s.flow_regsOnly .., rfl⟩,
    _, rfl, s.flow_taken s.link _ _ rfl rfl, s.link_regsOnly.flow .., s.reg_link_flow .., rfl⟩

/-- FLOW on a condition: taken it is a jump, not taken it is in sequence. -/
theorem State.flow_conditional (s : State) (i : Instr) (b : Bool) (a : Word) :
    (b = true → JumpedTo s (s.flow i s.psr.tm b a) i a) ∧ (b = false → InSequence s (s.flow i s.psr.tm b a) i) := by
  constructor
  · rintro rfl
    exact s.flow_taken s i a rfl rfl
  · rintro rfl
    exact s.flow_not_taken i a

/-- Settles O36: `bt` is FLOW on C, `bf` FLOW on its negation. -/
theorem conditionalBranchesComplete : Obligations.ConditionalBranchesComplete := by
  intro s d a ha
  rw [← State.branchTarget_eq] at ha
  subst ha
  obtain ⟨htaken, hnot⟩ := s.flow_conditional (.bt d) s.psr.c (s.branchTarget d)
  obtain ⟨htaken', hnot'⟩ := s.flow_conditional (.bf d) (!s.psr.c) (s.branchTarget d)
  exact ⟨⟨_, rfl, s.flow_regsOnly .., rfl, htaken, hnot⟩,
    _, rfl, s.flow_regsOnly .., rfl, fun hc => htaken' (by simp [hc]), fun hc => hnot' (by simp [hc])⟩

/-- Settles O37: whatever the parameters are, `ry` and C are written and FLOW is made. -/
theorem looptCompletes : Obligations.LooptCompletes := by
  intro s ry d
  let u := { s.setReg ry (Config.looptCount s.psr.c (s.reg ry)) with
    psr := { s.psr with c := Config.looptC s.psr.c (s.reg ry) } }
  let taken := Config.looptTaken s.psr.c (s.reg ry)
  have hflow : InSequence s (u.flow (.loopt ry d) s.psr.tm taken (s.looptTarget d)) (.loopt ry d) ∨
      JumpedTo s (u.flow (.loopt ry d) s.psr.tm taken (s.looptTarget d)) (.loopt ry d) (s.looptTarget d) := by
    cases taken with
    | true => exact .inr (s.flow_taken u _ _ rfl rfl)
    | false => exact .inl ⟨rfl, rfl, rfl, rfl⟩
  refine ⟨_, _, rfl, hflow.imp_right fun h => ⟨_, State.looptTarget_eq s d ▸ h⟩, rfl, ?_, ⟨rfl, rfl, rfl, rfl, rfl⟩,
    ⟨rfl, rfl, rfl, rfl, rfl⟩, ⟨fun _ _ => rfl, rfl⟩, rfl, rfl⟩
  exact (SameRegsBut.setReg s ry _).trans (.of_eq rfl rfl rfl _)

/-- Settles O25: the loads' own bus error, and the literal jumps', with the link of `jsri` drawn. -/
theorem readBusErrorRaises : Obligations.ReadBusErrorRaises := by
  refine fun s hb => ⟨fun rz rx d ha => ?_, fun rz rx d ha => ?_, fun rz rx d => ?_, fun d => ?_, fun d => ?_⟩
  · exact State.load_of_tea _ rz ((s.accessible_iff _ 4).mpr ha) hb
  · exact State.load_of_tea _ rz ((s.accessible_iff _ 2).mpr ha) hb
  · exact State.load_of_tea _ rz (s.accessible_one _) hb
  · simp [exec, execJmpi, hb, State.raise, Exc.vector]
  · refine ⟨s.drawReg linkReg (s.pc + 2), ?_, s.drawReg_regsOnly .., s.reg_drawReg_same ..⟩
    simp [exec, execJsri, hb, State.raise, Exc.vector]

/-! ### Multi-cycle arithmetic (R93 to R95) -/

/-- The shared end of the three where nothing cuts them short. -/
theorem State.finishArith_completes {s : State} (hu : s.uncut) (i : Instr) (rx : Reg) (v : Word) :
    ∃ t, s.finishArith i rx v = .next t ∧ InSequence s t i ∧ RegsOnly s t [rx] ∧ t.dataBrk = s.dataBrk ∧
      t.reg rx = v :=
  ⟨_, State.finishArith_of_uncut hu i rx v, State.retire_inSequence i rfl rfl,
    (s.setReg_regsOnly rx v).trans ((State.retire_regsOnly _ i _ _).mono (by simp)), rfl,
    (State.reg_retire ..).trans (State.reg_setReg_same ..)⟩

/-- The shared end of the three where an interrupt cuts them short: nothing is written (D20). -/
theorem State.finishArith_cut {s : State} {k : Nat} (hc : s.cutBy k) (i : Instr) (rx : Reg) (v : Word) :
    InterruptTaken s s.env.mid s.pc false (s.finishArith i rx v) := by
  rw [State.finishArith, State.cutAt_some.mpr hc]
  exact State.interruptInside_taken hc.2.2

theorem execDivs_of_ne {s : State} (h : s.reg 1 ≠ 0) (rx : Reg) :
    exec (.divs rx) s = s.finishArith (.divs rx) rx (quotientSigned (s.reg rx) (s.reg 1)) := if_neg h

theorem execDivu_of_ne {s : State} (h : s.reg 1 ≠ 0) (rx : Reg) :
    exec (.divu rx) s = s.finishArith (.divu rx) rx (quotientUnsigned (s.reg rx) (s.reg 1)) := if_neg h

theorem quotientUnsigned_toNat (x y : Word) : (quotientUnsigned x y).toNat = x.toNat / y.toNat := by
  rw [quotientUnsigned, BitVec.toNat_ofNat, Nat.mod_eq_of_lt]
  exact (Nat.div_le_self ..).trans_lt x.isLt

/-- Settles O38: uncut, the quotient is written, and it fits a register. -/
theorem divuCompletes : Obligations.DivuCompletes := by
  intro s rx hne hu
  obtain ⟨t, ht, hi, hr, hb, hv⟩ := State.finishArith_completes hu (.divu rx) rx (quotientUnsigned (s.reg rx) (s.reg 1))
  exact ⟨t, (execDivu_of_ne hne rx).trans ht, hi, hr, hb, by rw [hv, quotientUnsigned_toNat]⟩

/-- Settles O40: the check for a zero divisor comes first. -/
theorem divideByZeroRaises : Obligations.DivideByZeroRaises := fun _ _ h => ⟨if_pos h, if_pos h⟩

/-- Settles O41: uncut, the product is written. -/
theorem multCompletes : Obligations.MultCompletes := by
  intro s rx ry hu
  obtain ⟨t, ht, hi, hr, hb, hv⟩ := State.finishArith_completes hu (.mult rx ry) rx (s.reg rx * s.reg ry)
  exact ⟨t, ht, hi, hr, hb, by rw [hv, BitVec.toNat_mul]⟩

/-- Settles O42: the three share their end. -/
theorem arithmeticCutShort : Obligations.ArithmeticCutShort := by
  refine fun s k hc => ⟨fun rx ry => s.finishArith_cut hc _ rx _, fun hne rx => ?_⟩
  rw [execDivs_of_ne hne, execDivu_of_ne hne]
  exact ⟨s.finishArith_cut hc _ rx _, s.finishArith_cut hc _ rx _⟩

/-- The remainder of the rounded-down quotient lies between 0 and the divisor. -/
theorem fdiv_remainder (x y : Int) :
    (0 < y → 0 ≤ x - x.fdiv y * y ∧ x - x.fdiv y * y < y) ∧
      (y < 0 → y < x - x.fdiv y * y ∧ x - x.fdiv y * y ≤ 0) := by
  constructor <;> intro hy
  · have hlow := Int.fmod_nonneg_of_pos x hy
    have hhigh := Int.fmod_lt_of_pos x hy
    rw [Int.fmod_def, mul_comm] at hlow hhigh
    exact ⟨hlow, hhigh⟩
  · have hlow := Int.fmod_nonneg_of_pos (-x) (neg_pos.mpr hy)
    have hhigh := Int.fmod_lt_of_pos (-x) (neg_pos.mpr hy)
    rw [Int.fmod_def, Int.neg_fdiv_neg, neg_mul, mul_comm] at hlow hhigh
    omega

/-- Every quotient but that of the most negative number by -1 fits a register, rounded up where it is inexact too. -/
theorem fdiv_fits {x y : Int} (hx : -2 ^ 31 ≤ x) (hx' : x < 2 ^ 31) (hy : y ≠ 0) (hxy : ¬(x = -2 ^ 31 ∧ y = -1)) :
    -2 ^ 31 ≤ x.fdiv y ∧ x.fdiv y < 2 ^ 31 ∧ (x.fdiv y * y ≠ x → x.fdiv y + 1 < 2 ^ 31) := by
  have habs := Int.natAbs_fdiv_le_natAbs x y
  obtain ⟨hpos, hneg⟩ := fdiv_remainder x y
  generalize x.fdiv y = q at *
  have hq : q ≠ 2 ^ 31 := by rintro rfl; omega
  have hq' : q * y ≠ x → q ≠ 2 ^ 31 - 1 := by rintro he rfl; omega
  omega

/-- `divs` rounds the exact quotient down, or up where it is inexact (R93, log 16). -/
theorem quotientSigned_toInt {x y : Word} (hy : y ≠ 0) (hxy : ¬(x.toInt = -2 ^ 31 ∧ y.toInt = -1)) :
    (quotientSigned x y).toInt = x.toInt.fdiv y.toInt ∨
      ((quotientSigned x y).toInt = x.toInt.fdiv y.toInt + 1 ∧ x.toInt.fdiv y.toInt * y.toInt ≠ x.toInt) := by
  have hy' : y.toInt ≠ 0 := fun h => hy (BitVec.eq_of_toInt_eq (by simpa using h))
  obtain ⟨hlow, hhigh, hup⟩ := fdiv_fits x.le_toInt x.toInt_lt hy' hxy
  rw [quotientSigned, if_neg hxy]
  split
  · exact .inl (BitVec.toInt_ofInt_eq_self (by decide) hlow hhigh)
  · next hne =>
    split
    · exact .inr ⟨BitVec.toInt_ofInt_eq_self (by decide) (by omega) (hup hne), hne⟩
    · exact .inl (BitVec.toInt_ofInt_eq_self (by decide) hlow hhigh)

/-- A quotient rounded either way is off by less than one divisor. -/
theorem quotientSigned_error {x y : Word} (hy : y ≠ 0) (hxy : ¬(x.toInt = -2 ^ 31 ∧ y.toInt = -1)) :
    ((quotientSigned x y).toInt * y.toInt - x.toInt).natAbs < y.toInt.natAbs := by
  have hy' : y.toInt ≠ 0 := fun h => hy (BitVec.eq_of_toInt_eq (by simpa using h))
  obtain ⟨hpos, hneg⟩ := fdiv_remainder x.toInt y.toInt
  obtain hq | ⟨hq, hne⟩ := quotientSigned_toInt hy hxy <;> rw [hq]
  · omega
  · rw [add_mul, one_mul]
    omega

/-- Settles O39: uncut, the quotient is written, whichever way it is rounded. -/
theorem divsCompletes : Obligations.DivsCompletes := by
  intro s rx hne hu
  obtain ⟨t, ht, hi, hr, hb, hv⟩ := State.finishArith_completes hu (.divs rx) rx (quotientSigned (s.reg rx) (s.reg 1))
  exact ⟨t, (execDivs_of_ne hne rx).trans ht, hi, hr, hb, fun hxy => by rw [hv]; exact quotientSigned_error hne hxy⟩

end Sys2Proof.Machine

/-! The privileged and the trapping instructions: control registers, returns, low power, traps and the accelerator. -/

namespace Sys2Proof.Machine

/-! ### Control registers (R100, R101) -/

/-- In supervisor mode the privilege check lets the instruction through. -/
theorem State.privileged_of_supervisor {s : State} (hs : s.psr.s = true) (k : Result) : s.privileged k = k := by
  simp [State.privileged, hs]

/-- Settles O45: laying out the bits and reading the fields are inverse, in both directions. -/
theorem psrViewRoundTrips : Obligations.PsrViewRoundTrips := by
  refine ⟨fun p => ?_, fun w => ?_⟩
  · rw [Psr.ofWord, Psr.toWord, permuteBits_symm, Psr.ofCanon_canon]
  · rw [Psr.ofWord, Psr.toWord, Psr.canon_ofCanon]
    simpa using permuteBits_symm Config.psrLayout.symm w

/-- Settles O43: the register is written with what `readCr` reads. -/
theorem mfcrReadsControlRegisters : Obligations.MfcrReadsControlRegisters := by
  intro s rx c hs
  let u := { s.setReg rx (s.readCr c) with draws := if c.toNat < 6 then s.draws else s.draws + 1 }
  have hu : RegsOnly s u [rx] := by
    obtain ⟨hpsr, hlow, hregs, hspecial, hhidden, hmem⟩ := s.setReg_regsOnly rx (s.readCr c)
    exact ⟨hpsr, hlow, hregs, ⟨rfl, rfl, rfl, rfl, rfl⟩, ⟨rfl, rfl, rfl, rfl, rfl⟩, hmem⟩
  have hv : (u.retire (.mfcr rx c) s.psr.tm (s.pc + s.ilen)).reg rx = s.readCr c :=
    State.reg_setReg_same s rx (s.readCr c)
  refine ⟨u.retire (.mfcr rx c) s.psr.tm (s.pc + s.ilen), State.privileged_of_supervisor hs _,
    State.retire_inSequence _ rfl rfl, hu.trans ((State.retire_regsOnly ..).mono (by simp)), rfl, ?_⟩
  rw [hv]
  refine ⟨?_, ?_, ?_, ?_, ?_, ?_⟩ <;> rintro rfl <;> rfl

/-- Settles O44: each field is what `writeCr` makes of it. -/
theorem mtcrWritesControlRegisters : Obligations.MtcrWritesControlRegisters := by
  intro s rx c hs
  have hx : exec (.mtcr rx c) s = _ := State.privileged_of_supervisor hs _
  rw [State.writeCr_eq] at hx
  refine ⟨_, hx, State.retire_inSequence _ rfl rfl, rfl, rfl, rfl, rfl, rfl, rfl, ⟨rfl, rfl, rfl, rfl, rfl⟩, rfl, rfl,
    ?_, rfl, rfl, rfl, rfl⟩
  rintro rfl ha
  exact Platform.forceVbr_of_none ha _

/-! ### Returns (R102, R103, R144) -/

/-- What a return leaves before any pending trace: the PSR with TP clear, the pc, and the target's fetch tags alone. -/
theorem State.restored_jumpedTo (s : State) (i : Instr) (p : Psr) (a : Word) : JumpedTo s (s.restored i p a) i a :=
  s.flow_taken { s with psr := { p with tp := false } } i a rfl rfl

/-- A return to an even address with no trace pending is over when the shadow pair is restored. -/
theorem State.returnFrom_untraced {s : State} {p : Psr} {a : Word} (i : Instr) (ha : isOdd a = false)
    (hp : p.tp = false) : s.returnFrom i p a = .next (s.restored i p a) := by
  simp [State.returnFrom, ha, hp]

/-- With a trace pending the return goes on to it (R144). -/
theorem State.returnFrom_traced {s : State} {p : Psr} {a : Word} (i : Instr) (ha : isOdd a = false)
    (hp : p.tp = true) : s.returnFrom i p a = (s.restored i p a).pendingTrace a := by
  simp [State.returnFrom, ha, hp]

/-- A return with no trace pending, and everything it leaves alone. -/
theorem State.returnFrom_restores (s : State) {i : Instr} {p : Psr} {a : Word} (ha : isOdd a = false)
    (hp : p.tp = false) :
    ∃ t, s.returnFrom i p a = .next t ∧ JumpedTo s t i a ∧ t.psr = p ∧ SameSpecial s t ∧ SameHidden s t ∧
      t.regs = s.regs ∧ t.altRegs = s.altRegs ∧ SameMemory s t ∧ t.lowPower = s.lowPower ∧ t.dataBrk = s.dataBrk := by
  have hpsr : { p with tp := false } = p := by rw [← hp]
  exact ⟨_, State.returnFrom_untraced i ha hp, s.restored_jumpedTo i p a, hpsr, ⟨rfl, rfl, rfl, rfl, rfl⟩,
    ⟨rfl, rfl, rfl, rfl, rfl⟩, rfl, rfl, ⟨fun _ _ => rfl, rfl⟩, rfl, rfl⟩

theorem execRte_of_supervisor {s : State} (hs : s.psr.s = true) : exec .rte s = s.returnFrom .rte s.epsr s.epc :=
  State.privileged_of_supervisor hs _

theorem execRfi_of_supervisor {s : State} (hs : s.psr.s = true) : exec .rfi s = s.returnFrom .rfi s.fpsr s.fpc :=
  State.privileged_of_supervisor hs _

/-- Settles O47: both returns are one, from their own shadow pair. -/
theorem returnsRestore : Obligations.ReturnsRestore := by
  intro s hs
  rw [execRte_of_supervisor hs, execRfi_of_supervisor hs]
  exact ⟨s.returnFrom_restores, s.returnFrom_restores⟩

/-- The tag of the target's own fetch is kept by the return to it. -/
theorem State.mem_restored_fetchBrk (s : State) (i : Instr) (p : Psr) (a : Word) :
    a ∈ (s.restored i p a).fetchBrk ↔ a ∈ s.fetchBrk := by
  simpa using (s.restored_jumpedTo i p a).fetchBrk a

/-- Settles O48: the restored state looks for a breakpoint, an interrupt and the trace, in that order. -/
theorem returnTakesPendingTrace : Obligations.ReturnTakesPendingTrace := by
  intro s hs i p a hi ho hp
  have hx : exec i s = (s.restored i p a).pendingTrace a := by
    rw [← State.returnFrom_traced i ho hp]
    obtain ⟨rfl, rfl, rfl⟩ | ⟨rfl, rfl, rfl⟩ := hi
    · exact execRte_of_supervisor hs
    · exact execRfi_of_supervisor hs
  have htag := s.mem_restored_fetchBrk i p a
  refine ⟨s.restored i p a, rfl, s.restored_jumpedTo i p a, ⟨rfl, rfl, rfl, rfl, rfl⟩, ⟨rfl, rfl, rfl, rfl, rfl⟩, rfl,
    rfl, rfl, rfl, rfl, rfl, fun hb => ?_, fun hb hu => ?_, fun hb hu => ?_⟩ <;> rw [hx, State.pendingTrace]
  · exact if_pos (htag.mpr hb)
  · obtain ⟨r, hr, ht⟩ := State.interrupt_taken (s := s.restored i p a) (q := (s.restored i p a).env.post) (ret := a)
      (tp := true) hu
    rw [if_neg (mt htag.mp hb), hr]
    exact ht
  · rw [if_neg (mt htag.mp hb), State.interrupt_none.mpr hu]
    rfl

/-! ### Low power (R104 to R106) -/

/-- Where the platform idles, the state is entered with the pc at the next instruction. -/
theorem State.enterLowPower_of_idles {s : State} {k : LowPower} (i : Instr) (h : s.plat.idles k = true) :
    s.enterLowPower k i = .next ({ s with lowPower := some k }.retire i s.psr.tm (s.pc + s.ilen)) :=
  if_pos h

theorem State.enterLowPower_of_refused {s : State} {k : LowPower} (i : Instr) (h : s.plat.idles k = false) :
    s.enterLowPower k i = .refused .lowPowerOpen := by
  simp [State.enterLowPower, h]

/-- Settles O49: the three are one operation, and none of them is ever traced. -/
theorem lowPowerEntered : Obligations.LowPowerEntered := by
  intro s i k hs hi
  have hx : exec i s = s.enterLowPower k i ∧ isNeverTraced i = true := by
    obtain ⟨rfl, rfl⟩ | ⟨rfl, rfl⟩ | ⟨rfl, rfl⟩ := hi <;> exact ⟨State.privileged_of_supervisor hs _, rfl⟩
  obtain ⟨hx, hnever⟩ := hx
  rw [hx]
  refine ⟨State.enterLowPower_of_refused i, fun hk => ⟨_, State.enterLowPower_of_idles i hk, rfl,
    State.retire_inSequence i rfl rfl, isTraceDue_of_isNeverTraced hnever _, rfl, .of_eq rfl rfl rfl _,
    ⟨rfl, rfl, rfl, rfl, rfl⟩, ⟨rfl, rfl, rfl, rfl, rfl⟩, ⟨fun _ _ => rfl, rfl⟩, rfl⟩⟩

/-! ### Traps and the accelerator (R107 to R109) -/

/-- Settles O50: the trap is its entry, in either mode. -/
theorem trapEntersItsVector : Obligations.TrapEntersItsVector := fun s _ h => normalEntryEffect s _ s.pc false h

/-- Settles O51: `bkpt` is its entry, in either mode. -/
theorem bkptEntersItsVector : Obligations.BkptEntersItsVector := fun s h => normalEntryEffect s _ s.pc false h

theorem haiEnabled_of_zero {p : Psr} (h : p.u = 0) (op : Half) : haiEnabled p op = false := by
  simp [haiEnabled, h]

/-- Settles O52: the enable bit is the first thing looked at, and with no U bit set it is clear. -/
theorem haiDisabledRaises : Obligations.HaiDisabledRaises := by
  intro s op h
  have hd : haiEnabled s.psr op = false := h.elim id (haiEnabled_of_zero · op)
  simp [exec, execHai, hd, State.raise, Exc.vector]

/-- Settles O53: the accelerator's free values are general registers, the condition bit and memory. -/
theorem haiEnabledCompletes : Obligations.HaiEnabledCompletes := by
  intro s op he hf
  refine ⟨s.drawCore.drawMem.retire (.hai op) s.psr.tm (s.pc + s.ilen), s.drawCore.psr.c, ?_,
    State.retire_inSequence _ (by simp) (by simp),
    (State.retire_psr ..).trans ((State.drawMem_psr ..).trans s.drawCore_psr),
    ⟨by simp, by simp, by simp, by simp, by simp⟩, ⟨by simp, by simp, by simp, by simp, by simp⟩, by simp, by simp⟩
  simp [exec, execHai, he, hf, State.retireNext]

@[simp] theorem State.drawCore_wordAt (s : State) (m : Mode) (a : Word) : s.drawCore.wordAt m a = s.wordAt m a :=
  State.wordAt_congr m a (by simp) fun _ _ => by simp [State.byteAt, State.readByte, State.key]

/-- The accelerator's free values leave the vector word as it was. -/
theorem State.drawCore_vectorOk (s : State) (v : BitVec 7) : s.drawCore.vectorOk v ↔ s.vectorOk v := by
  simp [State.vectorOk, State.vectorWordOk]

/-- Where the entry of vector 12 answers a next state, a reported exception ends there, with memory drawn. -/
theorem State.haiReported_of_entered {s t : State} (h : s.drawCore.raise .hardwareAccelerator s.pc = .next t) :
    s.haiReported = .next t.drawMem := by
  rw [State.haiReported, h]

/-- Settles O54: the entry of vector 12 from the accelerator's free values, and then its free memory. -/
theorem haiReportedEnters : Obligations.HaiReportedEnters := by
  intro s op he hf hv
  have hee : s.drawCore.psr.ee = s.psr.ee := by rw [s.drawCore_psr]
  rw [← State.drawCore_vectorOk, ← hee] at hv
  obtain ⟨t, ht⟩ := State.enterNormal_of_ok hv s.pc false
  have hx : exec (.hai op) s = .next t.drawMem := by
    simp [exec, execHai, he, hf, State.haiReported_of_entered ht]
  obtain ⟨hepc, hepsr, hpsr, hfpc, hfpsr, hvec, hframe⟩ := State.enterNormal_next ht
  exact ⟨t.drawMem, hx, hepc, by simpa [hee] using hvec.pc, by simp [hpsr], by simp [hpsr], by simp [hepsr],
    by simp [hframe.vbr], by simp [hfpc], by simp [hfpsr]⟩

end Sys2Proof.Machine
